-- ==== Sys2Proof/Word.lean ====
section
/-! DEFINITION. The byte, the two line levels, and a register that may hold the spec's `⊥`
(`00_scope.md` R8). -/

namespace Sys2Proof

/-- A byte: a command byte, a data byte, eight vertical pixels (`00_scope.md` R8). -/
abbrev Byte := BitVec 8

/-- The level of a line (`10_state.md` R15). -/
inductive Level where
  | low
  | high
deriving DecidableEq, Repr, Inhabited

/-- `level(true) = high`, `level(false) = low` (`44_driver_ops.md`, opening). -/
def Level.ofBool (b : Bool) : Level := if b then .high else .low

/-- What an element of the state holds: a value, or the spec's own `⊥`, "unspecified": "an element
holding `⊥` has no value the spec vouches for" (`00_scope.md` R8). The rules test for `⊥` (R45, R66), so
it is a value of the element, not a missing reset value (log 1). -/
inductive Reg (α : Type) where
  /-- `⊥` -/
  | bot
  /-- a value -/
  | val (a : α)
deriving DecidableEq, Repr, Inhabited

/-- The element holds a value, not `⊥`. -/
def Reg.known {α : Type} : Reg α → Bool
  | .bot => false
  | .val _ => true

end Sys2Proof
end

