-- ==== Sys2Proof/Config.lean ====
section
/-! DEFINITION. The constants the spec fixes (`00_scope.md` R4) and the values it leaves open as
uninterpreted constants (`00_scope.md` R6). The construction parameters of R5 are registers of State. -/

namespace Sys2Proof.Config

/-- `WIDTH`: display width in pixels (R4). -/
abbrev width : Nat := 84
/-- `HEIGHT`: display height in pixels (R4). -/
abbrev height : Nat := 48
/-- `CELLW`: pixel columns of a character cell (R4). -/
abbrev cellWidth : Nat := 6
/-- `GLYPHW`: bytes of a glyph-table entry (R4). -/
abbrev glyphWidth : Nat := 5
/-- `BANKH`: pixel rows of a bank (R4). -/
abbrev bankHeight : Nat := 8
/-- `NBANK`: number of banks (R4). -/
abbrev numBanks : Nat := 6
/-- `NCOL`: number of character columns (R4). -/
abbrev numColumns : Nat := 14
/-- `FRAME`: bytes in a full frame (R4). -/
abbrev frameBytes : Nat := 504
/-- `CHAR_LO`: lowest character code with a glyph (R4). -/
abbrev charLo : Nat := 0x20
/-- `CHAR_HI`: highest character code with a glyph (R4). -/
abbrev charHi : Nat := 0x7F
/-- `CONTRAST_MAX`: highest legal contrast (R4). -/
abbrev contrastMax : Int := 127
/-- `BUS_HZ`: bus clock rate requested from the bus capability (R4, R195). -/
abbrev busHz : Nat := 500000

/-- `GLYPH_ROM` by byte address, wherever the spec does not give the byte (`40_glyph_rom.md` R81, U14):
a free value, so a claim holds whatever the table holds there (log 3). -/
opaque glyphRom : Nat → Byte

/-- The free draw a reader of an unspecified pixel makes (U1): the draw's number, the pixel column, the
pixel row. Two reads have two numbers and may differ (log 25). -/
opaque freePixel : Nat → Nat → Nat → Bool

/-- The order of the 8 bits of a byte on the serial line (`20_memory.md` R43). -/
inductive BitOrder where
  | msbFirst
  | lsbFirst
deriving DecidableEq, Repr, Inhabited

/-- The physical direction of increasing X (`20_memory.md` R48). -/
inductive XDirection where
  | leftToRight
  | rightToLeft
deriving DecidableEq, Repr, Inhabited

/-- `BUS_BIT_ORDER`, open (D20, U8); no rule depends on it. -/
opaque busBitOrder : BitOrder

/-- `X_DIRECTION`, open (D21); no rule depends on it. -/
opaque xDirection : XDirection

end Sys2Proof.Config
end

