-- ==== Sys2Proof/Syntax.lean ====
section
/-! DEFINITION. The instructions: one constructor per row of the opcode table (`30_encoding.md` R67),
the controller's command set, and the wire form in which each row arrives. -/

namespace Sys2Proof

/-- The mode of a unit on the bus: command (mode line low) or data (mode line high)
(`30_encoding.md` R60, `43_write_framing.md` R121). -/
inductive Mode where
  | command
  | data
deriving DecidableEq, Repr, Inhabited

/-- The level of the mode line for a mode: "low = command, high = data" (R120). -/
def Mode.level : Mode → Level
  | .command => .low
  | .data => .high

/-- The mode the mode line shows (R31). -/
def Mode.ofLevel : Level → Mode
  | .low => .command
  | .high => .data

/-- The controller's two instruction sets, the values 0 and 1 of `H` (`10_state.md` R20). -/
inductive InstrSet where
  /-- `H = 0` -/
  | basic
  /-- `H = 1` -/
  | extended
deriving DecidableEq, Repr, Inhabited

/-- What the controller reads in a command byte that is not reserved (`30_encoding.md` R66): the operands
lie in their legal ranges. -/
inductive Command where
  | funcsetExt
  | setvop (v : BitVec 7)
  | setbias
  | funcsetBasic
  | dispAllon
  | dispNormal
  | sety (y : Fin 6)
  | setx (x : Fin 84)
deriving DecidableEq, Repr

/-- The instructions, one constructor per row of the opcode table. The operands of `cursor`,
`cursorcmds`, `glyph` and `printstring` are as wide as the rules are ("the rule holds for any integer",
R64, R90): what fits the request port is WellFormed's to say. -/
inductive Instr where
  /-- `FUNCSET_EXT` (R100) -/
  | funcsetExt
  /-- `SETVOP` (R101): `v` is bits 6:0 -/
  | setvop (v : BitVec 7)
  /-- `SETBIAS` (R102) -/
  | setbias
  /-- `FUNCSET_BASIC` (R103) -/
  | funcsetBasic
  /-- `DISP_ALLON` (R104) -/
  | dispAllon
  /-- `DISP_NORMAL` (R105) -/
  | dispNormal
  /-- `SETY` (R106): `y` is bits 2:0 -/
  | sety (y : BitVec 3)
  /-- `SETX` (R107): `x` is bits 6:0 -/
  | setx (x : BitVec 7)
  /-- `DATAWR` (R45): one data byte -/
  | datawr (d : Byte)
  /-- `REINIT` (R131) -/
  | reinit
  /-- `CLEAR` (R136) -/
  | clear
  /-- `CURSOR` (R138) -/
  | cursor (bank column : Int)
  /-- `BACKLIGHT` (R134) -/
  | backlight (on : Bool)
  /-- `INVERSE` (R135) -/
  | inverse (on : Bool)
  /-- `PRINTSTRING` (R139): the character codes -/
  | printstring (text : List Nat)
  /-- `PRINTIMAGE` (R137): the frame payload -/
  | printimage (pixels : List Byte)
  /-- `OP_RESERVED` (R68): a request with `op = 7` -/
  | opReserved
  /-- `GLYPH` (R80), internal -/
  | glyph (charCode : Nat)
  /-- `CURSORCMDS` (R90), internal -/
  | cursorcmds (bank column : Int)
  /-- `WRITE` (R120), internal -/
  | write (mode : Mode) (payload : List Byte)
deriving DecidableEq, Repr

/-- The row of the opcode table a decoded command byte belongs to. -/
def Command.toInstr : Command → Instr
  | .funcsetExt => .funcsetExt
  | .setvop v => .setvop v
  | .setbias => .setbias
  | .funcsetBasic => .funcsetBasic
  | .dispAllon => .dispAllon
  | .dispNormal => .dispNormal
  | .sety y => .sety (BitVec.ofNat 3 y.val)
  | .setx x => .setx (BitVec.ofNat 7 x.val)

/-- A call of an internal function: it has no bit pattern (R67). -/
inductive InternalCall where
  | glyph (charCode : Nat)
  | cursorcmds (bank column : Int)
  | write (mode : Mode) (payload : List Byte)
deriving DecidableEq, Repr

/-- The wire form of one input (log 5, log 6). -/
inductive Input where
  /-- The `OP` format (R64): the 19-bit header, the 16-bit `len` and the bytes after it. -/
  | request (header : BitVec 19) (len : BitVec 16) (body : List Byte)
  /-- The `CMD` and `DATA` formats (R60): one byte on the bus with the mode it travels in (R32). -/
  | busUnit (mode : Mode) (c : Byte)
  /-- An internal function, which has no bit pattern (R67). -/
  | call (f : InternalCall)
deriving DecidableEq, Repr

/-- The input is a request at the host port, the one thing a host can present (`70_reset_and_hazards.md`
R196). -/
def Input.fromHost : Input → Bool
  | .request _ _ _ => true
  | .busUnit _ _ => false
  | .call _ => false

end Sys2Proof
end

