-- ==== Sys2Proof/WellFormed.lean ====
section
/-! DEFINITION. Which instructions their encoding admits: the operand ranges of the opcode table and of
`30_encoding.md` R61, R64 and R65. -/

namespace Sys2Proof

/-- An operand of the request port: 8 bits, unsigned (R64, R65). -/
def fitsPort (n : Int) : Bool := decide (0 ≤ n) && decide (n < 256)

/-- A payload length the port can carry: 16 bits, unsigned (R64). -/
def fitsLen (n : Nat) : Bool := decide (n < 65536)

/-- A character code of the port: 8 bits (R64). -/
def fitsCode (n : Nat) : Bool := decide (n < 256)

/-- The instruction lies in the range its encoding gives. -/
def Instr.wellFormed : Instr → Bool
  | .funcsetExt => true
  | .setvop _ => true
  | .setbias => true
  | .funcsetBasic => true
  | .dispAllon => true
  | .dispNormal => true
  | .sety y => decide (y.toNat ≤ 5)
  | .setx x => decide (x.toNat ≤ 83)
  | .datawr _ => true
  | .reinit => true
  | .clear => true
  | .cursor bank column => fitsPort bank && fitsPort column
  | .backlight _ => true
  | .inverse _ => true
  | .printstring text => fitsLen text.length && text.all fitsCode
  | .printimage pixels => fitsLen pixels.length
  | .opReserved => true
  | .glyph _ => true
  | .cursorcmds _ _ => true
  | .write _ payload => !payload.isEmpty

end Sys2Proof
end

