-- ==== Sys2Proof/Decode.lean ====
section
/-! DEFINITION. The decoder, total on any input and rejecting by name (`30_encoding.md` R61, R62, R64,
R66, R68), and after it the encoder, written from the same tables. -/

namespace Sys2Proof

/-- Why an input stands for no instruction. -/
inductive DecodeError where
  /-- The map of R66 calls the command byte reserved under this `H`. -/
  | reservedCommand (set : Reg InstrSet) (c : Byte)
  /-- A request of PRINTSTRING or PRINTIMAGE whose `len` is more than the bytes presented (R64). -/
  | incompletePayload (len available : Nat)
deriving DecidableEq, Repr

/-! ## Command bytes (R61, R66) -/

/-- The column `H = 0` of the map of R66, without the two function-set bytes. -/
def decodeBasic (c : Byte) : Option Command :=
  if c = 0x09#8 then some .dispAllon
  else if c = 0x0C#8 then some .dispNormal
  else if h : 0x40 ≤ c.toNat ∧ c.toNat ≤ 0x45 then some (.sety ⟨c.toNat - 0x40, by omega⟩)
  else if h : 0x80 ≤ c.toNat ∧ c.toNat ≤ 0xD3 then some (.setx ⟨c.toNat - 0x80, by omega⟩)
  else none

/-- The column `H = 1` of the map of R66, without the two function-set bytes. -/
def decodeExtended (c : Byte) : Option Command :=
  if c = 0x13#8 then some .setbias
  else if 0x80 ≤ c.toNat then some (.setvop (c.setWidth 7))
  else none

/-- The complete map of a command byte (R66); `none` is "reserved". The function-set bytes are read
alike under every `H`, `⊥` included. -/
def decodeCommand (h : Reg InstrSet) (c : Byte) : Option Command :=
  if c = 0x20#8 then some .funcsetBasic
  else if c = 0x21#8 then some .funcsetExt
  else match h with
    | .val .basic => decodeBasic c
    | .val .extended => decodeExtended c
    | .bot => none

/-! ## Requests (R64) -/

/-- Bits 18:16 of the header. -/
def headerOp (w : BitVec 19) : BitVec 3 := w.extractLsb' 16 3
/-- Bits 15:8 of the header. -/
def headerA (w : BitVec 19) : Byte := w.extractLsb' 8 8
/-- Bits 7:0 of the header. -/
def headerB (w : BitVec 19) : Byte := w.extractLsb' 0 8

/-- The `on` operand is bit 0 of `a` (R64, R65, D24). -/
def onOperand (w : BitVec 19) : Bool := (headerA w).getLsbD 0

/-- The `len` bytes that follow the length of a request (R64, log 15). -/
def takePayload (len : BitVec 16) (body : List Byte) : Except DecodeError (List Byte) :=
  if len.toNat ≤ body.length then .ok (body.take len.toNat)
  else .error (.incompletePayload len.toNat body.length)

/-- The request a header and what follows it stand for (R64, R68). -/
def decodeRequest (w : BitVec 19) (len : BitVec 16) (body : List Byte) : Except DecodeError Instr :=
  match (headerOp w).toNat with
  | 0 => .ok .reinit
  | 1 => .ok .clear
  | 2 => .ok (.cursor (headerA w).toNat (headerB w).toNat)
  | 3 => .ok (.backlight (onOperand w))
  | 4 => .ok (.inverse (onOperand w))
  | 5 => match takePayload len body with
    | .ok bytes => .ok (.printstring (bytes.map BitVec.toNat))
    | .error e => .error e
  | 6 => match takePayload len body with
    | .ok bytes => .ok (.printimage bytes)
    | .error e => .error e
  | _ => .ok .opReserved

/-! ## Any input -/

/-- The instruction an input stands for, under the instruction set in force. -/
def decode (h : Reg InstrSet) : Input → Except DecodeError Instr
  | .request w len body => decodeRequest w len body
  | .busUnit .command c => match decodeCommand h c with
    | some k => .ok k.toInstr
    | none => .error (.reservedCommand h c)
  | .busUnit .data c => .ok (.datawr c)
  | .call (.glyph n) => .ok (.glyph n)
  | .call (.cursorcmds b c) => .ok (.cursorcmds b c)
  | .call (.write m p) => .ok (.write m p)

/-! ## The encoder -/

/-- `FUNCSET_EXT` (R61, R100): `ENC_FUNCSET_EXT() = 0x21`. -/
def funcsetExtByte : Byte := 0x21#8
/-- `1vvvvvvv` (R61). -/
def setvopByte (v : BitVec 7) : Byte := 0x80#8 ||| v.setWidth 8
/-- `SETBIAS` (R61, R102). -/
def setbiasByte : Byte := 0x13#8
/-- `FUNCSET_BASIC` (R61, R103). -/
def funcsetBasicByte : Byte := 0x20#8
/-- `DISP_ALLON` (R61, R104). -/
def dispAllonByte : Byte := 0x09#8
/-- `DISP_NORMAL` (R61, R105). -/
def dispNormalByte : Byte := 0x0C#8
/-- `01000yyy` (R61). -/
def setyByte (y : BitVec 3) : Byte := 0x40#8 ||| y.setWidth 8
/-- `1xxxxxxx` (R61). -/
def setxByte (x : BitVec 7) : Byte := 0x80#8 ||| x.setWidth 8

/-- The header `{op, a, b}` (R64). -/
def requestHeader (op : BitVec 3) (a b : Byte) : BitVec 19 := op ++ a ++ b

/-- A request without a payload; ignored operand bits and the unread payload are sent as zeros. -/
def bareRequest (op : BitVec 3) (a b : Byte) : Input := .request (requestHeader op a b) 0#16 []

/-- The `on` operand as operand `a` (R64). -/
def onByte (on : Bool) : Byte := if on then 1#8 else 0#8

/-- A request with a payload (R64): the length, then the bytes. -/
def payloadRequest (op : BitVec 3) (bytes : List Byte) : Input :=
  .request (requestHeader op 0#8 0#8) (BitVec.ofNat 16 bytes.length) bytes

/-- The wire form of an instruction. -/
def encode : Instr → Input
  | .funcsetExt => .busUnit .command funcsetExtByte
  | .setvop v => .busUnit .command (setvopByte v)
  | .setbias => .busUnit .command setbiasByte
  | .funcsetBasic => .busUnit .command funcsetBasicByte
  | .dispAllon => .busUnit .command dispAllonByte
  | .dispNormal => .busUnit .command dispNormalByte
  | .sety y => .busUnit .command (setyByte y)
  | .setx x => .busUnit .command (setxByte x)
  | .datawr d => .busUnit .data d
  | .reinit => bareRequest 0#3 0#8 0#8
  | .clear => bareRequest 1#3 0#8 0#8
  | .cursor bank column => bareRequest 2#3 (BitVec.ofInt 8 bank) (BitVec.ofInt 8 column)
  | .backlight on => bareRequest 3#3 (onByte on) 0#8
  | .inverse on => bareRequest 4#3 (onByte on) 0#8
  | .printstring text => payloadRequest 5#3 (text.map (BitVec.ofNat 8))
  | .printimage pixels => payloadRequest 6#3 pixels
  | .opReserved => bareRequest 7#3 0#8 0#8
  | .glyph n => .call (.glyph n)
  | .cursorcmds b c => .call (.cursorcmds b c)
  | .write m p => .call (.write m p)

/-- The instruction set an instruction's word needs to be read as that instruction; `none` where every
`H` reads it alike (R61, R66). -/
def requiredSet : Instr → Option InstrSet
  | .funcsetExt => none
  | .setvop _ => some .extended
  | .setbias => some .extended
  | .funcsetBasic => none
  | .dispAllon => some .basic
  | .dispNormal => some .basic
  | .sety _ => some .basic
  | .setx _ => some .basic
  | .datawr _ => none
  | .reinit => none
  | .clear => none
  | .cursor _ _ => none
  | .backlight _ => none
  | .inverse _ => none
  | .printstring _ => none
  | .printimage _ => none
  | .opReserved => none
  | .glyph _ => none
  | .cursorcmds _ _ => none
  | .write _ _ => none

/-- The instruction set `h` reads the instruction's word as that instruction. -/
def readUnder (h : Reg InstrSet) (i : Instr) : Bool :=
  match requiredSet i with
  | none => true
  | some x => decide (h = .val x)

/-! ## The opcode table's numbering -/

/-- Bits per row: the column `width` of the opcode table. -/
def tableWidth : Instr → Nat
  | .funcsetExt => 8
  | .setvop _ => 8
  | .setbias => 8
  | .funcsetBasic => 8
  | .dispAllon => 8
  | .dispNormal => 8
  | .sety _ => 8
  | .setx _ => 8
  | .datawr _ => 8
  | .reinit => 19
  | .clear => 19
  | .cursor _ _ => 19
  | .backlight _ => 19
  | .inverse _ => 19
  | .printstring _ => 19
  | .printimage _ => 19
  | .opReserved => 19
  | .glyph _ => 0
  | .cursorcmds _ _ => 0
  | .write _ _ => 0

/-- The columns `mask` and `match` of the opcode table. -/
def tableRow : Instr → Nat × Nat
  | .funcsetExt => (0xFF, 0x21)
  | .setvop _ => (0x80, 0x80)
  | .setbias => (0xFF, 0x13)
  | .funcsetBasic => (0xFF, 0x20)
  | .dispAllon => (0xFF, 0x09)
  | .dispNormal => (0xFF, 0x0C)
  | .sety _ => (0xF8, 0x40)
  | .setx _ => (0x80, 0x80)
  | .datawr _ => (0x00, 0x00)
  | .reinit => (0x70000, 0x00000)
  | .clear => (0x70000, 0x10000)
  | .cursor _ _ => (0x70000, 0x20000)
  | .backlight _ => (0x70000, 0x30000)
  | .inverse _ => (0x70000, 0x40000)
  | .printstring _ => (0x70000, 0x50000)
  | .printimage _ => (0x70000, 0x60000)
  | .opReserved => (0x70000, 0x70000)
  | .glyph _ => (0, 0)
  | .cursorcmds _ _ => (0, 0)
  | .write _ _ => (0, 0)

/-- The bits of an input as the opcode table numbers them; an internal call has none. -/
def Input.tableBits : Input → Nat
  | .request w _ _ => w.toNat
  | .busUnit _ c => c.toNat
  | .call _ => 0

/-- The mode and the instruction set in which a byte of the table is read when nothing but its bits is
given: the basic set's command, else the extended set's, else a data byte (log 7). -/
def tableContext (c : Byte) : Mode × Option InstrSet :=
  if (decodeCommand .bot c).isSome then (.command, none)
  else if (decodeBasic c).isSome then (.command, some .basic)
  else if (decodeExtended c).isSome then (.command, some .extended)
  else (.data, none)

/-- The input and the instruction set a table word of `nbits` bits stands for: 8 bits are a bus unit, the
19 bits of a header come as three whole bytes with operand words of zeros, and no bits are no unit. -/
def tableInput (nbits w : Nat) : Option (Input × Option InstrSet) :=
  if nbits = 0 then none
  else if nbits ≤ 8 then
    if w < 256 then
      let c := BitVec.ofNat 8 w
      some (.busUnit (tableContext c).1 c, (tableContext c).2)
    else none
  else if w < 524288 then some (.request (BitVec.ofNat 19 w) 0#16 [], none)
  else none

/-- The `H` a required set asks for. -/
def setInForce : Option InstrSet → Reg InstrSet
  | none => .bot
  | some x => .val x

/-- The instruction the decoder reads from a word of the opcode table. -/
def decodeTableWord (nbits w : Nat) : Option Instr :=
  match tableInput nbits w with
  | none => none
  | some (inp, req) => match decode (setInForce req) inp with
    | .ok i => some i
    | .error _ => none

end Sys2Proof
end

