-- ==== Sys2Proof/Machine/State.lean ====
section
/-! DEFINITION. The state: everything `10_state.md` gives the machine, as plain data, and the state at
power-on (`10_state.md` R33). -/

namespace Sys2Proof.Machine

/-- `phase` (R11). -/
inductive Phase where
  | uninitialized
  | initializing
  | ready
deriving DecidableEq, Repr

/-- The four lines (R15). -/
inductive Line where
  | rst
  | dc
  | bl
  | cs
deriving DecidableEq, Repr

/-- `DMODE`'s two modes (R23). -/
inductive DisplayMode where
  | allOn
  | normal
deriving DecidableEq, Repr

/-- The opaque pin assignments `CFG_PINS`, one identifier per line (R19, log 22). -/
structure Pins where
  rst : Nat
  dc  : Nat
  bl  : Nat
  cs  : Nat
deriving DecidableEq, Repr

/-- The configuration registers, "fixed at construction" (`00_scope.md` R5, `10_state.md` R17 to R19), and
the named premise `RESET_PULSE_OK` (`70_reset_and_hazards.md` R186, log 16). No step writes them. -/
structure Cfg where
  /-- `CFG_CONTRAST`: any integer; 0 to 127 are legal (R17). -/
  contrast     : Int
  /-- `CFG_ACTIVE_LOW` (R18). -/
  activeLow    : Bool
  /-- `CFG_CS_SOFT` (R19). -/
  csSoft       : Bool
  /-- `CFG_PINS` (R19). -/
  pins         : Pins
  /-- `CFG_BUS_ID` (R19). -/
  busId        : Nat
  /-- `CFG_DEVICE_ID` (R19). -/
  deviceId     : Nat
  /-- `RESET_PULSE_OK`: the low level REINIT gives the reset line is enough for the controller (R186). -/
  resetPulseOk : Bool
deriving DecidableEq, Repr

/-- The display data RAM (`20_memory.md` R40): address and byte pairs, addresses strictly rising, none
above 503. An address that is not listed reads as `⊥`, which no listed entry can hold. -/
abbrev Memory := List Host.Cell

/-- What the output trace drives: the four line latches (R15) and the display side (R20 to R26). -/
structure Panel where
  /-- `RST`: low asserts the controller's reset (R15, R27). -/
  rst           : Reg Level
  /-- `DC`: low = command, high = data (R15). -/
  dc            : Reg Level
  /-- `BL`: the backlight line (R15). -/
  bl            : Reg Level
  /-- `CS`: the software-managed chip-select (R15, R19). -/
  cs            : Reg Level
  /-- `H`: the instruction set in force (R20). -/
  h             : Reg InstrSet
  /-- `VOP`: the contrast register (R21). -/
  vop           : Reg (BitVec 7)
  /-- `BIAS`: the bias register (R22). -/
  bias          : Reg Byte
  /-- `DMODE`: the display mode (R23). -/
  dmode         : Reg DisplayMode
  /-- `AY`: the bank of the address counter (R24). -/
  ay            : Reg (Fin 6)
  /-- `AX`: the pixel column of the address counter (R24). -/
  ax            : Reg (Fin 84)
  /-- `DDRAM` (R25). -/
  ddram         : Memory
  /-- `ctrl_reset_done` (R26). -/
  ctrlResetDone : Bool
deriving DecidableEq, Repr

/-- An event of the output trace: one call on a capability (R30). -/
inductive Event where
  /-- `BusClose` -/
  | busClose
  /-- `GpioConfigure(lines, level)` -/
  | gpioConfigure (lines : List Line) (level : Level)
  /-- `BusOpen(CFG_BUS_ID, CFG_DEVICE_ID)` -/
  | busOpen (busId deviceId : Nat)
  /-- `BusClock(hz)` -/
  | busClock (hz : Nat)
  /-- `Pin(line, level)` -/
  | pin (line : Line) (level : Level)
  /-- `Xfer(bytes)` -/
  | xfer (bytes : List Byte)
deriving DecidableEq, Repr

/-- The status of an operation, with what it records (`60_exceptions.md` R160). -/
inductive Status where
  /-- `OK` -/
  | ok
  /-- `REJECTED` (R162) -/
  | rejected
  /-- `CONFIG_ERROR` with the offending contrast (R161) -/
  | configError (contrast : Int)
  /-- `SIZE_ERROR` with the offending length (R163) -/
  | sizeError (length : Nat)
  /-- `NOT_READY` (R166) -/
  | notReady
  /-- `ILLEGAL_OP` (R166) -/
  | illegalOp
  /-- `TRANSPORT_FAULT` with what the capability reported, unmodified (R165) -/
  | transportFault (report : Nat)
deriving DecidableEq, Repr

/-- How a capability call ends: it succeeds, it fails with a report (R165), or it never returns (R191). -/
inductive CallEnd where
  | succeeds
  | fails (report : Nat)
  | hangs
deriving DecidableEq, Repr

/-- What a stand-alone internal function returned (log 20). -/
inductive Returned where
  | nothing
  /-- the result of GLYPH (R80): five bytes, or a rejection -/
  | glyph (result : Option (List Byte))
  /-- the result of CURSORCMDS (R90): two command bytes, or a rejection -/
  | cursorcmds (result : Option (Byte × Byte))
deriving DecidableEq, Repr

/-- The state of the machine. -/
structure State where
  /-- The configuration registers (R17 to R19). -/
  cfg         : Cfg
  /-- `phase` (R11). -/
  phase       : Phase
  /-- `inverse` (R13). -/
  inverse     : Bool
  /-- `backlightOn` (R14). -/
  backlightOn : Bool
  /-- `bus_open` (R16). -/
  busOpen     : Bool
  /-- The line latches and the display side (R15, R20 to R26). -/
  panel       : Panel
  /-- `out`, the output trace, oldest event first (R30). -/
  out         : List Event
  /-- The statuses returned so far, oldest first (R160, R197, log 20). -/
  statuses    : List Status
  /-- What the last stand-alone internal function returned (log 20). -/
  returned    : Returned
  /-- The inputs the environment still presents, oldest first (R196, R197, log 5). -/
  inbox       : List Input
  /-- How the next capability calls end, oldest first; when it is empty every call succeeds (log 8). -/
  transport   : List CallEnd
deriving DecidableEq, Repr

/-- Why the machine stops. -/
inductive Fault where
  /-- A capability call does not return: "a bus transfer that blocks blocks the caller indefinitely" (R191,
  U11). Raised by every operation that emits an event, when the environment's tape says the call hangs.
  Safe: the machine stops where the hardware is stuck. -/
  | transportHang
deriving DecidableEq, Repr

/-- Why an input has no meaning. -/
inductive Refusal where
  /-- An instruction with no meaning yet. Raised by an arm of exec only. Safe. -/
  | notModelled (mnemonic : String)
  /-- A reserved command byte reaches a controller that is out of reset (R68, U6). Raised wherever a
  command byte is delivered. Safe. -/
  | reservedCommand (set : Reg InstrSet) (c : Byte)
  /-- WRITE of an empty payload, which the spec does not define (R125, U12). Raised by WRITE. Safe. -/
  | emptyPayload
  /-- A transfer while the mode line is not acquired, so that its mode is not said (R31, log 13). Raised by
  the delivery of a transfer; no operation causes it. Safe. -/
  | modeUnspecified
  /-- A request whose payload is shorter than its `len` (R64, log 15). Raised by step. Safe. -/
  | incompleteRequest (len available : Nat)
deriving DecidableEq, Repr

/-- The panel at power-on (R33): no line acquired, the whole display side `⊥`. -/
def Panel.powerOn : Panel :=
  { rst := .bot, dc := .bot, bl := .bot, cs := .bot
    h := .bot, vop := .bot, bias := .bot, dmode := .bot, ay := .bot, ax := .bot
    ddram := [], ctrlResetDone := false }

/-- The state at power-on of an instance built with a configuration and a `BL_RESET` (R33, R180). -/
def State.powerOn (cfg : Cfg) (blReset : Bool) : State :=
  { cfg := cfg, phase := .uninitialized, inverse := false, backlightOn := blReset, busOpen := false
    panel := Panel.powerOn, out := [], statuses := [], returned := .nothing, inbox := [], transport := [] }

/-- The construction parameters of `State.reset`: those of the spec's program P1 (`95_test_vectors.md`).
DESIGN CHOICE, unsafe: the spec gives no value (log 2). -/
def Cfg.atReset : Cfg :=
  { contrast := 60, activeLow := false, csSoft := true
    pins := { rst := 0, dc := 1, bl := 2, cs := 3 }, busId := 0, deviceId := 0, resetPulseOk := true }

/-- The machine right after reset (R33), with the construction parameters of log 2. -/
def State.reset : State := State.powerOn Cfg.atReset false

end Sys2Proof.Machine
end

