-- ==== Sys2Proof/Machine/Operands.lean ====
section
/-! DEFINITION. Operand assembly: the glyph lookup (`40_glyph_rom.md`), the addressing mux
(`41_addressing.md`) and the encoder side of the commands (`42_command_encoder.md`, `30_encoding.md` R65). -/

namespace Sys2Proof.Machine

/-! ## The glyph ROM -/

/-- One byte of the glyph ROM by its flat address `5*e + k` (`20_memory.md` R41). The five bytes of entry
33, the glyph of 'A', are the ones the spec states (R81); every other byte is free (log 3). -/
def romByte (addr : Nat) : Byte :=
  if addr = 165 then 0x7E#8
  else if addr = 166 then 0x11#8
  else if addr = 167 then 0x11#8
  else if addr = 168 then 0x11#8
  else if addr = 169 then 0x7E#8
  else Config.glyphRom addr

/-- `MemRead(ROM, addr, n)` (`00_scope.md` R8). -/
def romRead (addr : Nat) : Nat → List Byte
  | 0 => []
  | n + 1 => romByte addr :: romRead (addr + 1) n

/-- `GLYPH(charCode)` (R80): the validated lookup; `none` is the rejection. -/
def glyph (charCode : Nat) : Option (List Byte) :=
  if charCode < Config.charLo ∨ Config.charHi < charCode then none
  else some (romRead (5 * (charCode - Config.charLo)) 5)

/-- `CELL(charCode)` (R84): the glyph and the spacer byte 0x00. -/
def cell (charCode : Nat) : Option (List Byte) :=
  match glyph charCode with
  | none => none
  | some g => some (g ++ [0x00#8])

/-- The cells of a text, one for each accepted code, in order (R139, R164). -/
def textCells : List Nat → List (List Byte)
  | [] => []
  | ch :: text => match cell ch with
    | none => textCells text
    | some c => c :: textCells text

/-! ## The addressing mux and the encoder side -/

/-- `ENC_SETY(bank) = 0x40 | (bank - 1)` (R106). -/
def encSety (bank : Int) : Byte := 0x40#8 ||| BitVec.ofInt 8 (bank - 1)

/-- `ENC_SETX(column) = 0x80 | ((column - 1) * 6)` (R107). -/
def encSetx (column : Int) : Byte := 0x80#8 ||| BitVec.ofInt 8 ((column - 1) * 6)

/-- `ENC_SETVOP(contrast) = 0x80 | contrast` (R101). -/
def encSetvop (contrast : Int) : Byte := 0x80#8 ||| BitVec.ofInt 8 contrast

/-- The cursor position lies on the display (R90). -/
def cursorInRange (bank column : Int) : Bool :=
  decide (1 ≤ bank) && decide (bank ≤ 6) && (decide (1 ≤ column) && decide (column ≤ 14))

/-- `CURSORCMDS(bank, column)` (R90). -/
def cursorCmds (bank column : Int) : Option (Byte × Byte) :=
  if cursorInRange bank column then some (encSety bank, encSetx column) else none

/-- `OFFSET(bank, column)` (R91), for a position on the display. -/
def offset (bank column : Int) : Nat := ((bank - 1) * 84 + (column - 1) * 6).toNat

/-- `INIT_HEAD(contrast)` (R108). -/
def initHead (contrast : Int) : List Byte :=
  [funcsetExtByte, encSetvop contrast, setbiasByte, funcsetBasicByte]

/-- `INIT_TAIL` (R108). -/
def initTail : List Byte := [dispAllonByte, dispNormalByte]

/-- The two command bytes of `CURSORCMDS(1, 1)` (R136). -/
def homeCommands : List Byte := [encSety 1, encSetx 1]

/-- The configured contrast is legal (R17, R131 step 1). -/
def contrastLegal (contrast : Int) : Bool :=
  decide (0 ≤ contrast) && decide (contrast ≤ Config.contrastMax)

end Sys2Proof.Machine
end

