-- ==== Sys2Proof/Machine/Flags.lean ====
section
/-! DEFINITION. The flag computations: the backlight level, the inverse complement, and the numbers of
the statuses. -/

namespace Sys2Proof.Machine

/-- The level driven on `BL`: `level(backlightOn != CFG_ACTIVE_LOW)` (`10_state.md` R18, R134). -/
def backlightLevel (on activeLow : Bool) : Level := Level.ofBool (on != activeLow)

/-- The 8-bit complement `~v` (`00_scope.md` R8, R124). -/
def complement (b : Byte) : Byte := ~~~b

/-- What WRITE transfers (R120): data bytes complemented when `inverse` is set, command bytes never. -/
def txBytes (inverse : Bool) (mode : Mode) (payload : List Byte) : List Byte :=
  match mode with
  | .command => payload
  | .data => if inverse then payload.map complement else payload

/-- The byte CLEAR stores in every cell (R133, R136): 0x00, or its complement when `inverse` is set. -/
def clearByte (inverse : Bool) : Byte := if inverse then 0xFF#8 else 0x00#8

/-- The code of a status on the 3-bit status port (R160). -/
def Status.code : Status → BitVec 3
  | .ok => 0#3
  | .rejected => 1#3
  | .configError _ => 2#3
  | .sizeError _ => 3#3
  | .notReady => 4#3
  | .illegalOp => 5#3
  | .transportFault _ => 6#3

/-- CURSOR's boolean result: `true` for `OK` and `false` for `REJECTED` (R160). -/
def Status.cursorResult : Status → Option Bool
  | .ok => some true
  | .rejected => some false
  | .configError _ => none
  | .sizeError _ => none
  | .notReady => none
  | .illegalOp => none
  | .transportFault _ => none

end Sys2Proof.Machine
end

