-- ==== Sys2Proof/Machine/Ops.lean ====
section
/-! DEFINITION. The shared operations: the display RAM, reception by the controller, the events, the
actions an operation is made of, and how an operation ends. -/

namespace Sys2Proof.Machine

/-! ## The display RAM (`20_memory.md` section 3) -/

/-- What an address that is not listed reads as: `⊥` (R25, R33). -/
def Memory.unlisted : Reg Byte := .bot

/-- Reading one cell. -/
def Memory.read : Memory → Nat → Reg Byte
  | [], _ => Memory.unlisted
  | (k, b) :: m, a => if a = k then .val b else Memory.read m a

/-- `MemWrite(DDRAM, a, 1, d)`: the written address keeps its place in the rising order. -/
def Memory.write : Memory → Nat → Byte → Memory
  | [], a, d => [(a, d)]
  | (k, b) :: m, a, d =>
    if k < a then (k, b) :: Memory.write m a d
    else if a = k then (a, d) :: m
    else (a, d) :: (k, b) :: m

/-- Every cell to `⊥` (R27, R45). -/
def Memory.allUnspecified : Memory := []

/-- The canonical form: addresses strictly rising and inside the 504 cells. -/
def Memory.wf : Memory → Bool
  | [] => true
  | (k, _) :: m => decide (k < Config.frameBytes) && m.all (fun c => decide (k < c.1)) && Memory.wf m

/-- The cell the address counter points at: `AY*84 + AX` (R24, R45). -/
def ddramIndex (y : Fin 6) (x : Fin 84) : Nat := y.val * 84 + x.val

/-- The address counter after a data byte (R46, R47). At the last cell it wraps to the first (log 4). -/
def advance (y : Fin 6) (x : Fin 84) : Fin 6 × Fin 84 :=
  if hx : x.val < 83 then (y, ⟨x.val + 1, by omega⟩)
  else if hy : y.val < 5 then (⟨y.val + 1, by omega⟩, 0)
  else (0, 0)

/-! ## Reception by the controller -/

/-- The controller is out of reset and its reset line is released, so that it is known to accept bytes
(R26, R45, R110). -/
def Panel.listening (p : Panel) : Bool := p.ctrlResetDone && decide (p.rst = .val .high)

/-- Every display-side register and every cell to `⊥` (R27, R110). -/
def Panel.lost (p : Panel) : Panel :=
  { p with
    h := .bot, vop := .bot, bias := .bot, dmode := .bot, ay := .bot, ax := .bot
    ddram := Memory.allUnspecified }

/-- The controller side of a command (R100 to R107). -/
def controllerSide (k : Command) (p : Panel) : Panel :=
  match k with
  | .funcsetExt => { p with h := .val .extended }
  | .setvop v => { p with vop := .val v }
  | .setbias => { p with bias := .val setbiasByte }
  | .funcsetBasic => { p with h := .val .basic }
  | .dispAllon => { p with dmode := .val .allOn }
  | .dispNormal => { p with dmode := .val .normal }
  | .sety y => { p with ay := .val y }
  | .setx x => { p with ax := .val x }

/-- `CtrlRecvCommand(c)` (R110). -/
def recvCommand (c : Byte) (p : Panel) : Except Refusal Panel :=
  if p.listening then
    match decodeCommand p.h c with
    | some k => .ok (controllerSide k p)
    | none => .error (.reservedCommand p.h c)
  else .ok p.lost

/-- A data byte arriving at the controller (R45). -/
def recvData (d : Byte) (p : Panel) : Panel :=
  if p.listening then
    match p.ay, p.ax with
    | .val y, .val x =>
      { p with
        ddram := Memory.write p.ddram (ddramIndex y x) d
        ay := .val (advance y x).1, ax := .val (advance y x).2 }
    | .bot, _ => { p with ddram := Memory.allUnspecified }
    | _, .bot => { p with ddram := Memory.allUnspecified }
  else { p with ddram := Memory.allUnspecified, ay := .bot, ax := .bot }

/-- One byte of a transfer, with the mode the mode line gives (R31). -/
def recvByte (dc : Reg Level) (c : Byte) (p : Panel) : Except Refusal Panel :=
  match dc with
  | .val .low => recvCommand c p
  | .val .high => .ok (recvData c p)
  | .bot => .error .modeUnspecified

/-- The bytes of one transfer, in order (R31). -/
def deliver (dc : Reg Level) : List Byte → Panel → Except Refusal Panel
  | [], p => .ok p
  | c :: cs, p => match recvByte dc c p with
    | .ok q => deliver dc cs q
    | .error r => .error r

/-! ## Events (`10_state.md` R27, R31) -/

/-- A line driven to a level. `RST` low resets the display side; `RST` high after low takes the
controller out of reset, on the premise `RESET_PULSE_OK` (R27, R186, log 16). -/
def drive (pulseOk : Bool) (line : Line) (level : Level) (p : Panel) : Panel :=
  match line, level with
  | .rst, .low => { p.lost with rst := .val .low, ctrlResetDone := false }
  | .rst, .high =>
    { p with
      rst := .val .high
      ctrlResetDone := if p.rst = .val .low then pulseOk else p.ctrlResetDone }
  | .dc, l => { p with dc := .val l }
  | .bl, l => { p with bl := .val l }
  | .cs, l => { p with cs := .val l }

/-- Several lines driven to one level, in order (R31). -/
def driveAll (pulseOk : Bool) (level : Level) : List Line → Panel → Panel
  | [], p => p
  | l :: ls, p => driveAll pulseOk level ls (drive pulseOk l level p)

/-- How an event reaches the lines and the display side (R31). -/
def applyEvent (pulseOk : Bool) (e : Event) (p : Panel) : Except Refusal Panel :=
  match e with
  | .busClose => .ok p
  | .gpioConfigure lines level => .ok (driveAll pulseOk level lines p)
  | .busOpen _ _ => .ok p
  | .busClock _ => .ok p
  | .pin line level => .ok (drive pulseOk line level p)
  | .xfer bytes => deliver p.dc bytes p

/-- The panel after a trace: the left fold of R31 (`20_memory.md` R51). -/
def replay (pulseOk : Bool) : List Event → Panel → Except Refusal Panel
  | [], p => .ok p
  | e :: es, p => match applyEvent pulseOk e p with
    | .ok q => replay pulseOk es q
    | .error r => .error r

/-! ## Updates of the state -/

def State.setPhase (s : State) (v : Phase) : State := { s with phase := v }
def State.setInverse (s : State) (v : Bool) : State := { s with inverse := v }
def State.setBacklightOn (s : State) (v : Bool) : State := { s with backlightOn := v }
def State.setBusOpen (s : State) (v : Bool) : State := { s with busOpen := v }
def State.setPanel (s : State) (v : Panel) : State := { s with panel := v }
def State.setReturned (s : State) (v : Returned) : State := { s with returned := v }
def State.setInbox (s : State) (v : List Input) : State := { s with inbox := v }
def State.setTransport (s : State) (v : List CallEnd) : State := { s with transport := v }
/-- `emit E` appends to the trace (`00_scope.md` R8). -/
def State.record (s : State) (e : Event) : State := { s with out := s.out ++ [e] }
/-- `return S` hands a status to the host (R160). -/
def State.report (s : State) (st : Status) : State := { s with statuses := s.statuses ++ [st] }

/-! ## Actions -/

/-- One action of an operation's pseudocode (`10_state.md` R12: "a fixed finite sequence of actions"). -/
inductive Action where
  | emit (e : Event)
  | setPhase (v : Phase)
  | setInverse (v : Bool)
  | setBacklightOn (v : Bool)
  | setBusOpen (v : Bool)
deriving DecidableEq, Repr

/-- How a sequence of actions ends. -/
inductive Flow where
  /-- every action done -/
  | done (s : State)
  /-- a capability call failed with a report: the sequence stops there (R165) -/
  | failed (s : State) (report : Nat)
  /-- a capability call does not return (R191) -/
  | hung
  /-- the controller was given something without a meaning (R68) -/
  | refused (r : Refusal)
deriving DecidableEq, Repr

/-- An event that the capability carried out: it joins the trace and takes its effect (R30, R31). -/
def land (e : Event) (s : State) : Flow :=
  match applyEvent s.cfg.resetPulseOk e s.panel with
  | .ok p => .done ((s.setPanel p).record e)
  | .error r => .refused r

/-- `emit E`: one capability call, which may fail or never return (R165, R191). -/
def emit (e : Event) (s : State) : Flow :=
  match s.transport with
  | [] => land e s
  | .succeeds :: rest => land e (s.setTransport rest)
  | .fails n :: rest => .failed (s.setTransport rest) n
  | .hangs :: _ => .hung

/-- One action. -/
def perform (a : Action) (s : State) : Flow :=
  match a with
  | .emit e => emit e s
  | .setPhase v => .done (s.setPhase v)
  | .setInverse v => .done (s.setInverse v)
  | .setBacklightOn v => .done (s.setBacklightOn v)
  | .setBusOpen v => .done (s.setBusOpen v)

/-- Actions in order, up to the first that does not complete. -/
def runActions : List Action → State → Flow
  | [], s => .done s
  | a :: as, s => match perform a s with
    | .done s' => runActions as s'
    | .failed s' n => .failed s' n
    | .hung => .hung
    | .refused r => .refused r

/-- Events as actions. -/
def emitAll (es : List Event) : List Action := es.map Action.emit

/-! ## How an operation ends (`60_exceptions.md` R172, R173) -/

/-- The one way an error or a success reaches the host: the operation ends, its status is returned, and
the block waits for the next request (R172, R173). -/
def endWith (st : Status) (s : State) : Host.Outcome State Fault Refusal := .next (s.report st)

/-- `ACCEPT` (R130): every operation but REINIT needs `phase = Ready`. -/
def accept (s : State) (body : Host.Outcome State Fault Refusal) : Host.Outcome State Fault Refusal :=
  if s.phase = .ready then body else endWith .notReady s

/-- The end of an operation other than REINIT: `OK`, or the transport fault of R165. -/
def conclude : Flow → Host.Outcome State Fault Refusal
  | .done s => endWith .ok s
  | .failed s n => endWith (.transportFault n) s
  | .hung => .fault .transportHang
  | .refused r => .refused r

/-- The end of REINIT: a transport fault also leaves `phase` at `Uninitialized` (R165). -/
def concludeReinit : Flow → Host.Outcome State Fault Refusal
  | .done s => endWith .ok s
  | .failed s n => endWith (.transportFault n) (s.setPhase .uninitialized)
  | .hung => .fault .transportHang
  | .refused r => .refused r

/-- The end of a stand-alone WRITE, which has no status of its own: only a transport failure is
propagated (R120, R165, log 29). -/
def concludeWrite : Flow → Host.Outcome State Fault Refusal
  | .done s => .next s
  | .failed s n => endWith (.transportFault n) s
  | .hung => .fault .transportHang
  | .refused r => .refused r

/-- A command byte arrives at the controller (R110). -/
def commandArrives (c : Byte) (s : State) : Host.Outcome State Fault Refusal :=
  match recvCommand c s.panel with
  | .ok p => .next (s.setPanel p)
  | .error r => .refused r

/-- An input that stands for no instruction: a command byte that is reserved under the `H` in force still
arrives at the controller (R110), and an incomplete request is refused (log 15). -/
def undecoded (e : DecodeError) (s : State) : Host.Outcome State Fault Refusal :=
  match e with
  | .reservedCommand _ c => commandArrives c s
  | .incompletePayload len available => .refused (.incompleteRequest len available)

/-! ## The frames of the operations (`43_write_framing.md`, `44_driver_ops.md`) -/

/-- The frame of `WRITE(mode, payload)` (R120, `30_encoding.md` R63). -/
def writeEvents (csSoft inverse : Bool) (mode : Mode) (payload : List Byte) : List Event :=
  (if csSoft then [Event.pin .cs .low] else [])
    ++ [.pin .dc mode.level, .xfer (txBytes inverse mode payload)]
    ++ (if csSoft then [Event.pin .cs .high] else [])

/-- `SENDCMD(c)` is `WRITE(command, [c])` (R122). -/
def sendCmdEvents (csSoft inverse : Bool) (c : Byte) : List Event := writeEvents csSoft inverse .command [c]

/-- Command bytes, each in a frame of its own (R122). -/
def commandEvents (csSoft inverse : Bool) (cs : List Byte) : List Event :=
  cs.flatMap (sendCmdEvents csSoft inverse)

/-- The cursor commands of (1,1), then one data frame (R136, R137). -/
def frameFromHome (csSoft inverse : Bool) (payload : List Byte) : List Event :=
  commandEvents csSoft inverse homeCommands ++ writeEvents csSoft inverse .data payload

/-- `CLEAR_BODY()` (R136). -/
def clearEvents (csSoft inverse : Bool) : List Event :=
  frameFromHome csSoft inverse (List.replicate Config.frameBytes 0x00#8)

/-- The lines REINIT step 2 acquires (R131). -/
def acquiredLines (csSoft : Bool) : List Line := [.rst, .dc, .bl] ++ (if csSoft then [Line.cs] else [])

end Sys2Proof.Machine
end

