-- ==== Sys2Proof/Machine/Commands.lean ====
section
/-! DEFINITION. The eight command bytes (`42_command_encoder.md`): each is its byte arriving at the
controller with the mode line low (R110), so that the map of R66 says what it does under the `H` in force
(log 12). -/

namespace Sys2Proof.Machine

/-- `FUNCSET_EXT` (R100). -/
def execFuncsetExt (s : State) : Host.Outcome State Fault Refusal := commandArrives funcsetExtByte s

/-- `SETVOP` (R101). -/
def execSetvop (v : BitVec 7) (s : State) : Host.Outcome State Fault Refusal :=
  commandArrives (setvopByte v) s

/-- `SETBIAS` (R102). -/
def execSetbias (s : State) : Host.Outcome State Fault Refusal := commandArrives setbiasByte s

/-- `FUNCSET_BASIC` (R103). -/
def execFuncsetBasic (s : State) : Host.Outcome State Fault Refusal := commandArrives funcsetBasicByte s

/-- `DISP_ALLON` (R104). -/
def execDispAllon (s : State) : Host.Outcome State Fault Refusal := commandArrives dispAllonByte s

/-- `DISP_NORMAL` (R105). -/
def execDispNormal (s : State) : Host.Outcome State Fault Refusal := commandArrives dispNormalByte s

/-- `SETY` (R106). -/
def execSety (y : BitVec 3) (s : State) : Host.Outcome State Fault Refusal := commandArrives (setyByte y) s

/-- `SETX` (R107). -/
def execSetx (x : BitVec 7) (s : State) : Host.Outcome State Fault Refusal := commandArrives (setxByte x) s

end Sys2Proof.Machine
end

