-- ==== Sys2Proof/Machine/DataWrite.lean ====
section
/-! DEFINITION. The data byte (`20_memory.md` section 3). -/

namespace Sys2Proof.Machine

/-- `DATAWR` (R45, R46, R47): a data byte arrives at the controller with the mode line high. -/
def execDatawr (d : Byte) (s : State) : Host.Outcome State Fault Refusal :=
  .next (s.setPanel (recvData d s.panel))

end Sys2Proof.Machine
end

