-- ==== Sys2Proof/Machine/DriverOps.lean ====
section
/-! DEFINITION. The seven public operations (`44_driver_ops.md`) and the reserved request (R68). -/

namespace Sys2Proof.Machine

/-- The actions of REINIT after its check, in the order of the eight steps (R131). -/
def reinitActions (s : State) : List Action :=
  [.setPhase .initializing]
    ++ (if s.busOpen then [Action.emit .busClose, .setBusOpen false] else [])
    ++ [.emit (.gpioConfigure (acquiredLines s.cfg.csSoft) .low)]
    ++ [.emit (.busOpen s.cfg.busId s.cfg.deviceId), .emit (.busClock Config.busHz), .setBusOpen true]
    ++ [.emit (.pin .bl (backlightLevel s.backlightOn s.cfg.activeLow))]
    ++ (if s.cfg.csSoft then [Action.emit (.pin .cs .high)] else [])
    ++ [.emit (.pin .rst .high)]
    ++ emitAll (commandEvents s.cfg.csSoft s.inverse (initHead s.cfg.contrast))
    ++ emitAll (clearEvents s.cfg.csSoft s.inverse)
    ++ emitAll (commandEvents s.cfg.csSoft s.inverse initTail)
    ++ [.setPhase .ready]

/-- `REINIT` (R131, R161). -/
def execReinit (s : State) : Host.Outcome State Fault Refusal :=
  if contrastLegal s.cfg.contrast then concludeReinit (runActions (reinitActions s) s)
  else endWith (.configError s.cfg.contrast) s

/-- `CLEAR` (R136). -/
def execClear (s : State) : Host.Outcome State Fault Refusal :=
  accept s (conclude (runActions (emitAll (clearEvents s.cfg.csSoft s.inverse)) s))

/-- `CURSOR bank column` (R138, R162): SETY first, SETX second. -/
def execCursor (bank column : Int) (s : State) : Host.Outcome State Fault Refusal :=
  accept s
    (match cursorCmds bank column with
      | none => endWith .rejected s
      | some (cmd1, cmd2) =>
        conclude (runActions (emitAll (commandEvents s.cfg.csSoft s.inverse [cmd1, cmd2])) s))

/-- `BACKLIGHT on` (R134). -/
def execBacklight (on : Bool) (s : State) : Host.Outcome State Fault Refusal :=
  accept s
    (conclude
      (runActions [.setBacklightOn on, .emit (.pin .bl (backlightLevel on s.cfg.activeLow))] s))

/-- `INVERSE on` (R135). -/
def execInverse (on : Bool) (s : State) : Host.Outcome State Fault Refusal :=
  accept s (conclude (runActions [.setInverse on] s))

/-- The frames of PRINTSTRING: one data frame of six bytes for each accepted code (R139). -/
def printStringEvents (csSoft inverse : Bool) (text : List Nat) : List Event :=
  (textCells text).flatMap (writeEvents csSoft inverse .data)

/-- `PRINTSTRING text` (R139). -/
def execPrintstring (text : List Nat) (s : State) : Host.Outcome State Fault Refusal :=
  accept s (conclude (runActions (emitAll (printStringEvents s.cfg.csSoft s.inverse text)) s))

/-- `PRINTIMAGE pixels` (R137, R163). -/
def execPrintimage (pixels : List Byte) (s : State) : Host.Outcome State Fault Refusal :=
  accept s
    (if pixels.length = Config.frameBytes then
      conclude (runActions (emitAll (frameFromHome s.cfg.csSoft s.inverse pixels)) s)
    else endWith (.sizeError pixels.length) s)

/-- A request with `op = 7` (R68, R166): no effect but its status. -/
def execOpReserved (s : State) : Host.Outcome State Fault Refusal := endWith .illegalOp s

end Sys2Proof.Machine
end

