-- ==== Sys2Proof/Machine/Internal.lean ====
section
/-! DEFINITION. The three internal functions, run on their own (R67): their results go to `returned`
(log 20). -/

namespace Sys2Proof.Machine

/-- `GLYPH charCode` (R80): a pure lookup. -/
def execGlyph (charCode : Nat) (s : State) : Host.Outcome State Fault Refusal :=
  .next (s.setReturned (.glyph (glyph charCode)))

/-- `CURSORCMDS bank column` (R90): a pure function. -/
def execCursorcmds (bank column : Int) (s : State) : Host.Outcome State Fault Refusal :=
  .next (s.setReturned (.cursorcmds (cursorCmds bank column)))

/-- `WRITE mode payload` (R120): one frame; an empty payload is not defined (R125). -/
def execWrite (mode : Mode) (payload : List Byte) (s : State) : Host.Outcome State Fault Refusal :=
  match payload with
  | [] => .refused .emptyPayload
  | c :: cs =>
    concludeWrite (runActions (emitAll (writeEvents s.cfg.csSoft s.inverse mode (c :: cs))) s)

end Sys2Proof.Machine
end

