-- ==== Sys2Proof/Machine/Dispatch.lean ====
section
/-! DEFINITION. One arm per instruction. -/

namespace Sys2Proof.Machine

def exec (i : Instr) (s : State) : Host.Outcome State Fault Refusal :=
  match i with
  | .funcsetExt => Sys2Proof.Machine.execFuncsetExt s
  | .setvop v => Sys2Proof.Machine.execSetvop v s
  | .setbias => Sys2Proof.Machine.execSetbias s
  | .funcsetBasic => Sys2Proof.Machine.execFuncsetBasic s
  | .dispAllon => Sys2Proof.Machine.execDispAllon s
  | .dispNormal => Sys2Proof.Machine.execDispNormal s
  | .sety y => Sys2Proof.Machine.execSety y s
  | .setx x => Sys2Proof.Machine.execSetx x s
  | .datawr d => Sys2Proof.Machine.execDatawr d s
  | .reinit => Sys2Proof.Machine.execReinit s
  | .clear => Sys2Proof.Machine.execClear s
  | .cursor bank column => Sys2Proof.Machine.execCursor bank column s
  | .backlight on => Sys2Proof.Machine.execBacklight on s
  | .inverse on => Sys2Proof.Machine.execInverse on s
  | .printstring text => Sys2Proof.Machine.execPrintstring text s
  | .printimage pixels => Sys2Proof.Machine.execPrintimage pixels s
  | .opReserved => Sys2Proof.Machine.execOpReserved s
  | .glyph charCode => Sys2Proof.Machine.execGlyph charCode s
  | .cursorcmds bank column => Sys2Proof.Machine.execCursorcmds bank column s
  | .write mode payload => Sys2Proof.Machine.execWrite mode payload s

end Sys2Proof.Machine
end

