-- ==== Sys2Proof/Machine/Step.lean ====
section
/-! DEFINITION. One step: the next input is taken, decoded under the instruction set in force, and run
(`00_scope.md` R7). -/

namespace Sys2Proof.Machine

/-- One step. With no input left the block is quiescent (`70_reset_and_hazards.md` R197, log 26). -/
def step (s : State) : Host.Outcome State Fault Refusal :=
  match s.inbox with
  | [] => .next s
  | inp :: rest => match decode s.panel.h inp with
    | .ok i => exec i (s.setInbox rest)
    | .error e => undecoded e (s.setInbox rest)

/-- `s` with a word of the opcode table as its next input; where the word is a command byte that only one
instruction set reads, that set is put in force (log 7). A row without bits is not a word: `s` is then
unchanged. -/
def State.withFetchWord (s : State) (nbits w : Nat) : State :=
  match tableInput nbits w with
  | none => s
  | some (inp, none) => s.setInbox (inp :: s.inbox)
  | some (inp, some set) => (s.setInbox (inp :: s.inbox)).setPanel { s.panel with h := .val set }

end Sys2Proof.Machine
end

