-- ==== Sys2Proof/Machine/Glass.lean ====
section
/-! DEFINITION. What the glass shows (`20_memory.md` R42, R48). Nothing in a step reads it. -/

namespace Sys2Proof.Machine

/-- The cell that holds a pixel: `(py div 8)*84 + px` (R42). -/
def pixelCell (px : Fin 84) (py : Fin 48) : Nat := py.val / 8 * 84 + px.val

/-- The bit of a pixel in its cell: `py mod 8`, bit 0 on top (R42). -/
def pixelBit (py : Fin 48) (b : Byte) : Bool := b.getLsbD (py.val % 8)

/-- Whether a pixel is lit; `⊥` is "unspecified" (R48). -/
def pixel (p : Panel) (px : Fin 84) (py : Fin 48) : Reg Bool :=
  match p.dmode with
  | .val .allOn => .val true
  | .val .normal => match Memory.read p.ddram (pixelCell px py) with
    | .val b => .val (pixelBit py b)
    | .bot => .bot
  | .bot => .bot

/-- What a reader of the glass sees at its `draw`-th look: an unspecified pixel is a free draw at every
look (U1, log 25). -/
def pixelSeen (draw : Nat) (p : Panel) (px : Fin 84) (py : Fin 48) : Bool :=
  match pixel p px py with
  | .val b => b
  | .bot => Config.freePixel draw px.val py.val

/-- The physical column of a pixel column, counted from the left (`X_DIRECTION`, R48). -/
def physicalColumn (px : Fin 84) : Fin 84 :=
  match Config.xDirection with
  | .leftToRight => px
  | .rightToLeft => px.rev

end Sys2Proof.Machine
end

