-- ==== Sys2Proof/Machine/Trace.lean ====
section
/-! DEFINITION. Readings of the output trace: the capability calls behind the events (`10_state.md` R30,
`60_exceptions.md` R177), the byte stream (R32), what the display side sees of a trace (R32), and the bits
of a byte on the serial line (`20_memory.md` R43). Nothing in a step reads them. -/

namespace Sys2Proof.Machine

/-- A call on the Bus or GPIO capability (R30, R177). -/
inductive CapabilityCall where
  | close
  | configureOutputs (pins : List Nat) (initialLevel : Level)
  | openBus (busId deviceId : Nat)
  | setClockRate (hz : Nat)
  | setLevel (pin : Nat) (level : Level)
  | transfer (bytes : List Byte)
deriving DecidableEq, Repr

/-- The pin a line is assigned to (`CFG_PINS`, R19). -/
def Pins.of (pins : Pins) : Line → Nat
  | .rst => pins.rst
  | .dc => pins.dc
  | .bl => pins.bl
  | .cs => pins.cs

/-- The capability call an event records (R30). -/
def Event.call (pins : Pins) : Event → CapabilityCall
  | .busClose => .close
  | .gpioConfigure lines level => .configureOutputs (lines.map pins.of) level
  | .busOpen busId deviceId => .openBus busId deviceId
  | .busClock hz => .setClockRate hz
  | .pin line level => .setLevel (pins.of line) level
  | .xfer bytes => .transfer bytes

/-- The level of the mode line after an event (R31). -/
def dcAfter (e : Event) (dc : Reg Level) : Reg Level :=
  match e with
  | .gpioConfigure lines level => if lines.contains Line.dc then .val level else dc
  | .pin .dc level => .val level
  | .pin .rst _ => dc
  | .pin .bl _ => dc
  | .pin .cs _ => dc
  | .busClose => dc
  | .busOpen _ _ => dc
  | .busClock _ => dc
  | .xfer _ => dc

/-- The bytes of one event. -/
def Event.bytes : Event → List Byte
  | .xfer bytes => bytes
  | .busClose => []
  | .gpioConfigure _ _ => []
  | .busOpen _ _ => []
  | .busClock _ => []
  | .pin _ _ => []

/-- `stream(out)` (R32): every transferred byte with the level of the mode line in force, from the level
the line has before the trace. -/
def stream (dc : Reg Level) : List Event → List (Reg Level × Byte)
  | [] => []
  | e :: es => e.bytes.map (fun b => (dc, b)) ++ stream (dcAfter e dc) es

/-- What the display side sees of a trace (R32): the drives of its reset line, and the bytes with their
mode. -/
inductive DisplayInput where
  | reset (level : Level)
  | unit (dc : Reg Level) (c : Byte)
deriving DecidableEq, Repr

/-- The drives of the reset line in an event. -/
def Event.resets : Event → List Level
  | .gpioConfigure lines level => (lines.filter (fun l => decide (l = Line.rst))).map (fun _ => level)
  | .pin .rst level => [level]
  | .pin .dc _ => []
  | .pin .bl _ => []
  | .pin .cs _ => []
  | .busClose => []
  | .busOpen _ _ => []
  | .busClock _ => []
  | .xfer _ => []

/-- The display side's view of a trace (R32): no grouping into transfers, no chip-select. -/
def displayView (dc : Reg Level) : List Event → List DisplayInput
  | [] => []
  | e :: es =>
    e.resets.map DisplayInput.reset ++ e.bytes.map (DisplayInput.unit dc) ++ displayView (dcAfter e dc) es

/-- The display side of a panel: its registers, its RAM, and the reset line it listens to. -/
def Panel.displaySide (p : Panel) : Panel := { p with dc := .bot, bl := .bot, cs := .bot }

/-- The eight bits of a byte in the order they travel (`BUS_BIT_ORDER`, R43). -/
def serialBits (b : Byte) : List Bool :=
  match Config.busBitOrder with
  | .msbFirst => [b.getLsbD 7, b.getLsbD 6, b.getLsbD 5, b.getLsbD 4,
      b.getLsbD 3, b.getLsbD 2, b.getLsbD 1, b.getLsbD 0]
  | .lsbFirst => [b.getLsbD 0, b.getLsbD 1, b.getLsbD 2, b.getLsbD 3,
      b.getLsbD 4, b.getLsbD 5, b.getLsbD 6, b.getLsbD 7]

end Sys2Proof.Machine
end

