-- ==== Sys2Proof/Safety.lean ====
section
/-! DEFINITION. What the claims are stated in: kinds of instruction, premises about the environment, and
the invariants of a run. -/

namespace Sys2Proof

/-! ## Kinds of instruction -/

/-- The rows of the `CMD` format (`30_encoding.md` R61). -/
def Instr.isCommand : Instr → Bool
  | .funcsetExt => true
  | .setvop _ => true
  | .setbias => true
  | .funcsetBasic => true
  | .dispAllon => true
  | .dispNormal => true
  | .sety _ => true
  | .setx _ => true
  | .datawr _ => false
  | .reinit => false
  | .clear => false
  | .cursor _ _ => false
  | .backlight _ => false
  | .inverse _ => false
  | .printstring _ => false
  | .printimage _ => false
  | .opReserved => false
  | .glyph _ => false
  | .cursorcmds _ _ => false
  | .write _ _ => false

/-- The rows of the `OP` format, the host's requests (R64). -/
def Instr.isRequest : Instr → Bool
  | .funcsetExt => false
  | .setvop _ => false
  | .setbias => false
  | .funcsetBasic => false
  | .dispAllon => false
  | .dispNormal => false
  | .sety _ => false
  | .setx _ => false
  | .datawr _ => false
  | .reinit => true
  | .clear => true
  | .cursor _ _ => true
  | .backlight _ => true
  | .inverse _ => true
  | .printstring _ => true
  | .printimage _ => true
  | .opReserved => true
  | .glyph _ => false
  | .cursorcmds _ _ => false
  | .write _ _ => false

/-- The public operations other than REINIT, which need `phase = Ready` (R130). -/
def Instr.needsReady : Instr → Bool
  | .funcsetExt => false
  | .setvop _ => false
  | .setbias => false
  | .funcsetBasic => false
  | .dispAllon => false
  | .dispNormal => false
  | .sety _ => false
  | .setx _ => false
  | .datawr _ => false
  | .reinit => false
  | .clear => true
  | .cursor _ _ => true
  | .backlight _ => true
  | .inverse _ => true
  | .printstring _ => true
  | .printimage _ => true
  | .opReserved => false
  | .glyph _ => false
  | .cursorcmds _ _ => false
  | .write _ _ => false

end Sys2Proof

namespace Sys2Proof.Machine

/-- The status ends an operation that did nothing (`60_exceptions.md` R172: precise errors). -/
def Status.isPrecise : Status → Bool
  | .ok => false
  | .rejected => true
  | .configError _ => true
  | .sizeError _ => true
  | .notReady => true
  | .illegalOp => true
  | .transportFault _ => false

/-! ## Premises about the environment -/

/-- `TRANSPORT_TOTAL` for what is left of the run: every capability call succeeds (D13, log 8). -/
def Reliable (s : State) : Prop := s.transport = []

/-- Everything the environment still presents is a host request (`70_reset_and_hazards.md` R196, log 6). -/
def FromHost (s : State) : Prop := s.inbox.all Input.fromHost = true

/-! ## Invariants -/

/-- Every display-side register and cell is `⊥` (`10_state.md` R27). -/
def Panel.unspecified (p : Panel) : Prop :=
  p.h = .bot ∧ p.vop = .bot ∧ p.bias = .bot ∧ p.dmode = .bot ∧ p.ay = .bot ∧ p.ax = .bot ∧ p.ddram = []

/-- What every step keeps, whatever the input: the display RAM's canonical form; a controller out of reset
has its reset line released, on the premise `RESET_PULSE_OK`; one that is not holds no value (R26, R27); a
hardware-managed chip-select is never driven (R15, R19). -/
structure Sound (s : State) : Prop where
  memory   : Memory.wf s.panel.ddram = true
  released : s.panel.ctrlResetDone = true → s.panel.rst = .val .high ∧ s.cfg.resetPulseOk = true
  inReset  : s.panel.ctrlResetDone = false → s.panel.unspecified
  noSelect : s.cfg.csSoft = false → s.panel.cs = .bot

/-- The display side as every operation leaves it once REINIT has ended (R34, R49, R108): the basic set is
in force, contrast, bias and display mode are REINIT's, the address counter stands at a character cell, and
every cell holds a byte. -/
structure DisplayWorking (cfg : Cfg) (p : Panel) : Prop where
  listening : p.listening = true
  basic     : p.h = .val .basic
  contrast  : p.vop = .val (BitVec.ofInt 7 cfg.contrast)
  bias      : p.bias = .val 0x13#8
  normal    : p.dmode = .val .normal
  counter   : ∃ y x, p.ay = .val y ∧ p.ax = .val x ∧ x.val % 6 = 0
  filled    : ∀ a, a < 504 → (Memory.read p.ddram a).known = true

/-- What host requests keep (R11, R34, R49, R108, R183): no step ends inside REINIT, and in `Ready` the
configuration is legal, the lines and the bus are held, and, on the premise `RESET_PULSE_OK`, the display
works. -/
structure HostInv (s : State) : Prop where
  settled : s.phase ≠ .initializing
  legal   : s.phase = .ready → contrastLegal s.cfg.contrast = true
  bus     : s.phase = .ready → s.busOpen = true
  lines   : s.phase = .ready →
    s.panel.rst = .val .high ∧ s.panel.dc.known = true ∧ s.panel.bl.known = true ∧
      s.panel.cs.known = s.cfg.csSoft
  display : s.phase = .ready → s.cfg.resetPulseOk = true → DisplayWorking s.cfg s.panel

/-- An instance built with an illegal contrast that has not become ready (R192). -/
def NeverReady (s : State) : Prop :=
  s.phase = .uninitialized ∧ contrastLegal s.cfg.contrast = false

/-- Both fields of the address counter, as the number `AY*84 + AX` (R47). -/
def Panel.counterIs (p : Panel) (a : Nat) : Prop :=
  ∃ y x, p.ay = .val y ∧ p.ax = .val x ∧ ddramIndex y x = a

/-- A frame as it stands in the trace: the levels and bytes of one WRITE (`30_encoding.md` R63). -/
def frameOf (csSoft : Bool) (dc : Level) (bytes : List Byte) : List Event :=
  if csSoft then [.pin .cs .low, .pin .dc dc, .xfer bytes, .pin .cs .high]
  else [.pin .dc dc, .xfer bytes]

end Sys2Proof.Machine
end

