-- ==== Sys2Proof/Certificates/Slice0/Obligations.lean ====
section
/-! DEFINITION. The statements for the provers. Each docstring names the rules of `spec/` it formalises.
Every statement about a configuration parameter, an undefined byte of the glyph ROM or an environment tape
holds for every value of it. -/

open Sys2Proof Sys2Proof.Machine

/-! ## Power-on, stepping, decoding -/

/-- The state at power-on (R33), for every configuration and every `BL_RESET`; the block executes nothing until
the host presents an operation. `State.reset` is one of these states (log 2). -/
def Obligations.PowerOnState : Prop :=
  (∀ (cfg : Cfg) (blReset : Bool),
    let s := State.powerOn cfg blReset
    s.phase = .uninitialized ∧ s.inverse = false ∧ s.backlightOn = blReset ∧
    s.panel.rst = .bot ∧ s.panel.dc = .bot ∧ s.panel.bl = .bot ∧ s.panel.cs = .bot ∧
    s.busOpen = false ∧ s.cfg = cfg ∧
    s.panel.h = .bot ∧ s.panel.vop = .bot ∧ s.panel.bias = .bot ∧ s.panel.dmode = .bot ∧
    s.panel.ay = .bot ∧ s.panel.ax = .bot ∧
    (∀ a, Memory.read s.panel.ddram a = .bot) ∧
    s.panel.ctrlResetDone = false ∧ s.out = [] ∧ step s = .next s) ∧
  ∃ cfg blReset, State.reset = State.powerOn cfg blReset

/-- The invariants of a run hold at power-on, with any requests still to come. -/
def Obligations.PowerOnMeetsInvariants : Prop :=
  ∀ (cfg : Cfg) (blReset : Bool) (requests : List Input),
    Sound ((State.powerOn cfg blReset).setInbox requests) ∧
    HostInv ((State.powerOn cfg blReset).setInbox requests)

/-- A step takes the next input, decodes it under the instruction set in force and runs it; with no input
the block is quiescent (R197), and an incomplete request is refused (log 15). -/
def Obligations.StepRunsDecodedInput : Prop :=
  (∀ (s : State) (inp : Input) (rest : List Input) (i : Instr),
    s.inbox = inp :: rest → decode s.panel.h inp = .ok i →
      step s = exec i { s with inbox := rest }) ∧
  (∀ s : State, s.inbox = [] → step s = .next s) ∧
  (∀ (s : State) (inp : Input) (rest : List Input) (len available : Nat),
    s.inbox = inp :: rest → decode s.panel.h inp = .error (.incompletePayload len available) →
      step s = .refused (.incompleteRequest len available))

/-- Words written out from the spec's encodings stand for their instructions (R61, R62, R64, and the words
of `95_test_vectors.md`). -/
def Obligations.SpecWordsDecode : Prop :=
  decode .bot (.busUnit .command 0b00100001#8) = .ok .funcsetExt ∧
  decode (.val .extended) (.busUnit .command 0b10111100#8) = .ok (.setvop 60#7) ∧
  decode (.val .extended) (.busUnit .command 0b00010011#8) = .ok .setbias ∧
  decode (.val .extended) (.busUnit .command 0b00100000#8) = .ok .funcsetBasic ∧
  decode (.val .basic) (.busUnit .command 0b00001001#8) = .ok .dispAllon ∧
  decode (.val .basic) (.busUnit .command 0b00001100#8) = .ok .dispNormal ∧
  decode (.val .basic) (.busUnit .command 0b01000101#8) = .ok (.sety 5#3) ∧
  decode (.val .basic) (.busUnit .command 0b11001110#8) = .ok (.setx 78#7) ∧
  decode (.val .basic) (.busUnit .data 0b01111110#8) = .ok (.datawr 0x7E#8) ∧
  decode .bot (.request 0x00000#19 0#16 []) = .ok .reinit ∧
  decode .bot (.request 0x10000#19 0#16 []) = .ok .clear ∧
  decode .bot (.request 0x20203#19 0#16 []) = .ok (.cursor 2 3) ∧
  decode .bot (.request 0x30100#19 0#16 []) = .ok (.backlight true) ∧
  decode .bot (.request 0x40100#19 0#16 []) = .ok (.inverse true) ∧
  decode .bot (.request 0x50000#19 3#16 [0x41#8, 0x0A#8, 0x41#8]) =
    .ok (.printstring [0x41, 0x0A, 0x41]) ∧
  decode .bot (.request 0x60000#19 2#16 [0xAA#8, 0x55#8]) = .ok (.printimage [0xAA#8, 0x55#8]) ∧
  decode .bot (.request 0x70000#19 0#16 []) = .ok .opReserved

/-- Decoding an encoded well-formed instruction gives it back, with every operand (R61, R62, R64, R65,
R66), under every instruction set that reads its word as that instruction. -/
def Obligations.DecodeEncodeAgree : Prop :=
  ∀ (i : Instr) (h : Reg InstrSet),
    i.wellFormed = true → readUnder h i = true → decode h (encode i) = .ok i

/-- The other direction for command bytes (R61, R66): the instruction a byte decodes to is well-formed, is
read under that instruction set, and encodes to that byte. -/
def Obligations.CommandBytesReencode : Prop :=
  ∀ (h : Reg InstrSet) (c : Byte) (i : Instr),
    decode h (.busUnit .command c) = .ok i →
      i.wellFormed = true ∧ readUnder h i = true ∧ encode i = .busUnit .command c

/-- The map of R66, row by row. -/
def Obligations.CommandByteMap : Prop :=
  ∀ (h : Reg InstrSet) (c : Byte),
    (decodeCommand h c = some .funcsetBasic ↔ c.toNat = 0x20) ∧
    (decodeCommand h c = some .funcsetExt ↔ c.toNat = 0x21) ∧
    (decodeCommand h c = some .dispAllon ↔ h = .val .basic ∧ c.toNat = 0x09) ∧
    (decodeCommand h c = some .dispNormal ↔ h = .val .basic ∧ c.toNat = 0x0C) ∧
    (decodeCommand h c = some .setbias ↔ h = .val .extended ∧ c.toNat = 0x13) ∧
    (∀ y : Fin 6, decodeCommand h c = some (.sety y) ↔ h = .val .basic ∧ c.toNat = 0x40 + y.val) ∧
    (∀ x : Fin 84, decodeCommand h c = some (.setx x) ↔ h = .val .basic ∧ c.toNat = 0x80 + x.val) ∧
    (∀ v : BitVec 7,
      decodeCommand h c = some (.setvop v) ↔ h = .val .extended ∧ c.toNat = 0x80 + v.toNat)

/-- Operand bits that a request does not use have no effect (R64, R68): the decoder reads the same
instruction whatever they hold. That a payload is not read where the format has none is the model's choice
(log 15). -/
def Obligations.UnusedRequestBitsIgnored : Prop :=
  ∀ (h : Reg InstrSet) (a b : Byte) (len : BitVec 16) (body : List Byte),
    decode h (.request (requestHeader 0#3 a b) len body) = .ok .reinit ∧
    decode h (.request (requestHeader 1#3 a b) len body) = .ok .clear ∧
    decode h (.request (requestHeader 2#3 a b) len body) = .ok (.cursor a.toNat b.toNat) ∧
    decode h (.request (requestHeader 3#3 a b) len body) = .ok (.backlight (a.getLsbD 0)) ∧
    decode h (.request (requestHeader 4#3 a b) len body) = .ok (.inverse (a.getLsbD 0)) ∧
    decode h (.request (requestHeader 7#3 a b) len body) = .ok .opReserved ∧
    (len.toNat ≤ body.length →
      decode h (.request (requestHeader 5#3 a b) len body) =
        .ok (.printstring ((body.take len.toNat).map BitVec.toNat)) ∧
      decode h (.request (requestHeader 6#3 a b) len body) = .ok (.printimage (body.take len.toNat)))

/-! ## Command bytes at the controller -/

/-- `FUNCSET_EXT` and `FUNCSET_BASIC` (R100, R103): whatever `H` was, only `H` changes. -/
def Obligations.FunctionSetCommands : Prop :=
  (∀ s : State, s.panel.listening = true →
    exec .funcsetExt s = .next { s with panel := { s.panel with h := .val .extended } } ∧
    exec .funcsetBasic s = .next { s with panel := { s.panel with h := .val .basic } }) ∧
  encode .funcsetExt = .busUnit .command 0x21#8 ∧ encode .funcsetBasic = .busUnit .command 0x20#8

/-- `SETVOP` and `SETBIAS` (R101, R102): in the extended set each writes its register and nothing else; in the
basic set the byte of SETVOP is SETX and the byte of SETBIAS is reserved, and where `H` is `⊥` both are
reserved (the map of R66); and the encoder's bytes. That a reserved byte is refused is the spec's decision D17
(R68, log 11), and that SETVOP acts as its byte is read is log 12. -/
def Obligations.ContrastAndBiasCommands : Prop :=
  (∀ (s : State) (v : BitVec 7), s.panel.listening = true → s.panel.h = .val .extended →
    exec (.setvop v) s = .next { s with panel := { s.panel with vop := .val v } } ∧
    exec .setbias s = .next { s with panel := { s.panel with bias := .val 0x13#8 } }) ∧
  (∀ (s : State) (v : BitVec 7), s.panel.listening = true → s.panel.h = .val .basic →
    exec (.setvop v) s = exec (.setx v) s ∧
    exec .setbias s = .refused (.reservedCommand (.val .basic) 0x13#8)) ∧
  (∀ (s : State) (v : BitVec 7), s.panel.listening = true → s.panel.h = .bot →
    exec (.setvop v) s = .refused (.reservedCommand .bot (0x80#8 ||| v.setWidth 8)) ∧
    exec .setbias s = .refused (.reservedCommand .bot 0x13#8)) ∧
  (∀ contrast : Int, 0 ≤ contrast → contrast ≤ 127 →
    encode (.setvop (BitVec.ofInt 7 contrast)) = .busUnit .command (encSetvop contrast) ∧
    ((encSetvop contrast).toNat : Int) = 0x80 + contrast) ∧
  encode .setbias = .busUnit .command 0x13#8

/-- `DISP_ALLON` and `DISP_NORMAL` (R104, R105): in the basic set only `DMODE` changes, and under every other
`H` both are reserved (the map of R66); in the all-on mode every pixel is lit whatever the RAM holds, and in
the normal mode the glass shows the RAM (R48). That a reserved byte is refused is the spec's decision D17
(R68, log 11). -/
def Obligations.DisplayModeCommands : Prop :=
  (∀ s : State, s.panel.listening = true → s.panel.h = .val .basic →
    exec .dispAllon s = .next { s with panel := { s.panel with dmode := .val .allOn } } ∧
    exec .dispNormal s = .next { s with panel := { s.panel with dmode := .val .normal } }) ∧
  (∀ s : State, s.panel.listening = true → s.panel.h ≠ .val .basic →
    exec .dispAllon s = .refused (.reservedCommand s.panel.h 0x09#8) ∧
    exec .dispNormal s = .refused (.reservedCommand s.panel.h 0x0C#8)) ∧
  (∀ (p : Panel) (px : Fin 84) (py : Fin 48), p.dmode = .val .allOn → pixel p px py = .val true) ∧
  (∀ (p : Panel) (px : Fin 84) (py : Fin 48) (b : Byte), p.dmode = .val .normal →
    Memory.read p.ddram (py.val / 8 * 84 + px.val) = .val b →
      pixel p px py = .val (b.getLsbD (py.val % 8))) ∧
  encode .dispAllon = .busUnit .command 0x09#8 ∧ encode .dispNormal = .busUnit .command 0x0C#8

/-- `SETY` and `SETX` (R106, R107): in the basic set each writes its half of the address counter and nothing
else; operands past the last bank or pixel column are reserved; under another `H` SETY is reserved, and SETX
is SETVOP in the extended set and reserved where `H` is `⊥` (the map of R66); and the encoder's bytes for a bank
and a column (R90). That a reserved byte is refused is the spec's decision D17 (R68, log 11), and that SETX acts
as its byte is read is log 12. -/
def Obligations.AddressCommands : Prop :=
  (∀ (s : State) (y : BitVec 3), s.panel.listening = true → s.panel.h = .val .basic →
    (∀ hy : y.toNat < 6,
      exec (.sety y) s = .next { s with panel := { s.panel with ay := .val ⟨y.toNat, hy⟩ } }) ∧
    (6 ≤ y.toNat → exec (.sety y) s = .refused (.reservedCommand (.val .basic) (0x40#8 ||| y.setWidth 8)))) ∧
  (∀ (s : State) (x : BitVec 7), s.panel.listening = true → s.panel.h = .val .basic →
    (∀ hx : x.toNat < 84,
      exec (.setx x) s = .next { s with panel := { s.panel with ax := .val ⟨x.toNat, hx⟩ } }) ∧
    (84 ≤ x.toNat → exec (.setx x) s = .refused (.reservedCommand (.val .basic) (0x80#8 ||| x.setWidth 8)))) ∧
  (∀ (s : State) (y : BitVec 3) (x : BitVec 7), s.panel.listening = true →
    (s.panel.h ≠ .val .basic →
      exec (.sety y) s = .refused (.reservedCommand s.panel.h (0x40#8 ||| y.setWidth 8))) ∧
    (s.panel.h = .val .extended → exec (.setx x) s = exec (.setvop x) s) ∧
    (s.panel.h = .bot → exec (.setx x) s = .refused (.reservedCommand .bot (0x80#8 ||| x.setWidth 8)))) ∧
  (∀ bank : Int, 1 ≤ bank → bank ≤ 6 →
    encode (.sety (BitVec.ofInt 3 (bank - 1))) = .busUnit .command (encSety bank) ∧
    ((encSety bank).toNat : Int) = 0x40 + (bank - 1)) ∧
  (∀ column : Int, 1 ≤ column → column ≤ 14 →
    encode (.setx (BitVec.ofInt 7 ((column - 1) * 6))) = .busUnit .command (encSetx column) ∧
    ((encSetx column).toNat : Int) = 0x80 + (column - 1) * 6) ∧
  (∀ bank column : Int, 1 ≤ bank → bank ≤ 6 → 1 ≤ column → column ≤ 14 →
    cursorCmds bank column = some (encSety bank, encSetx column))

/-- Reception of a command byte (R110): a controller not known to accept it loses everything; else the byte
does what the map of R66 says under the current `H`, or has no meaning where it is reserved (R68). A
command byte never writes the RAM, and moves the counter only as SETY and SETX. -/
def Obligations.CommandByteReception : Prop :=
  ∀ (s : State) (c : Byte) (rest : List Input), s.inbox = .busUnit .command c :: rest →
    (s.panel.listening = false →
      step s = .next { s with
        inbox := rest
        panel := { s.panel with
          h := .bot, vop := .bot, bias := .bot, dmode := .bot, ay := .bot, ax := .bot, ddram := [] } }) ∧
    (s.panel.listening = true →
      (∀ k, decodeCommand s.panel.h c = some k → step s = exec k.toInstr { s with inbox := rest }) ∧
      (decodeCommand s.panel.h c = none → step s = .refused (.reservedCommand s.panel.h c)) ∧
      (∀ t, step s = .next t → t.panel.ddram = s.panel.ddram ∧
        (t.panel.ay ≠ s.panel.ay → ∃ y, decodeCommand s.panel.h c = some (.sety y)) ∧
        (t.panel.ax ≠ s.panel.ax → ∃ x, decodeCommand s.panel.h c = some (.setx x))))

/-- The frame of the eight commands (R100 to R107, R110): nothing of the block changes, no line, not
`ctrl_reset_done`; a listening controller keeps its RAM, and one that is not listening completes with its
display side lost. -/
def Obligations.CommandFrame : Prop :=
  ∀ (i : Instr) (s : State), i.isCommand = true →
    (∀ t, exec i s = .next t →
      t = { s with panel := t.panel } ∧
      t.panel.rst = s.panel.rst ∧ t.panel.dc = s.panel.dc ∧ t.panel.bl = s.panel.bl ∧
      t.panel.cs = s.panel.cs ∧ t.panel.ctrlResetDone = s.panel.ctrlResetDone ∧
      (s.panel.listening = true → t.panel.ddram = s.panel.ddram)) ∧
    (s.panel.listening = false →
      exec i s = .next { s with
        panel := { s.panel with
          h := .bot, vop := .bot, bias := .bot, dmode := .bot, ay := .bot, ax := .bot, ddram := [] } })

/-! ## The data byte -/

/-- `DATAWR` (R45, R46, R47): the three arms of R45, every other cell and every other element unchanged, the
counter's advance along X and to the next bank, and its wrap after the last cell. The wrap is the spec's own
decision D15 (log 4). -/
def Obligations.DataByteStores : Prop :=
  ∀ (s : State) (d : Byte),
    (∀ (y : Fin 6) (x : Fin 84),
      s.panel.listening = true → s.panel.ay = .val y → s.panel.ax = .val x →
        ∃ (m : Memory) (y' : Fin 6) (x' : Fin 84),
          exec (.datawr d) s =
            .next { s with panel := { s.panel with ddram := m, ay := .val y', ax := .val x' } } ∧
          Memory.read m (y.val * 84 + x.val) = .val d ∧
          (∀ a, a ≠ y.val * 84 + x.val → Memory.read m a = Memory.read s.panel.ddram a) ∧
          (x.val < 83 → y' = y ∧ x'.val = x.val + 1) ∧
          (x.val = 83 → y.val < 5 → y'.val = y.val + 1 ∧ x'.val = 0) ∧
          (x.val = 83 → y.val = 5 → y'.val = 0 ∧ x'.val = 0) ∧
          y'.val * 84 + x'.val = (y.val * 84 + x.val + 1) % 504) ∧
    (s.panel.listening = true → (s.panel.ay = .bot ∨ s.panel.ax = .bot) →
      exec (.datawr d) s = .next { s with panel := { s.panel with ddram := [] } }) ∧
    (s.panel.listening = false →
      exec (.datawr d) s = .next { s with panel := { s.panel with ddram := [], ay := .bot, ax := .bot } })

/-- What the glass shows (R48, R42): in the normal mode the pixel of a written byte's bit is that bit, with
bit 0 on top, and a pixel of a cell or a mode that is `⊥` is unspecified. -/
def Obligations.WrittenBitsShow : Prop :=
  (∀ (s : State) (y : Fin 6) (x : Fin 84) (d : Byte) (r : Nat) (py : Fin 48),
    s.panel.listening = true → s.panel.ay = .val y → s.panel.ax = .val x →
    s.panel.dmode = .val .normal → r < 8 → py.val = 8 * y.val + r →
      ∃ t, exec (.datawr d) s = .next t ∧ pixel t.panel x py = .val (d.getLsbD r)) ∧
  (∀ (p : Panel) (px : Fin 84) (py : Fin 48), p.dmode = .bot → pixel p px py = .bot) ∧
  (∀ (p : Panel) (px : Fin 84) (py : Fin 48), p.dmode = .val .normal →
    Memory.read p.ddram (py.val / 8 * 84 + px.val) = .bot → pixel p px py = .bot)

/-! ## The glyph ROM and the addressing mux -/

/-- `GLYPH` (R80): the five ROM bytes of the entry for a code in range, the rejection for every other code,
and nothing else changes. The entry of 'A' is the one the spec states (R81). -/
def Obligations.GlyphLookup : Prop :=
  ∀ (charCode : Nat) (s : State),
    (0x20 ≤ charCode → charCode ≤ 0x7F →
      exec (.glyph charCode) s = .next { s with
        returned := .glyph (some [romByte (5 * (charCode - 0x20)), romByte (5 * (charCode - 0x20) + 1),
          romByte (5 * (charCode - 0x20) + 2), romByte (5 * (charCode - 0x20) + 3),
          romByte (5 * (charCode - 0x20) + 4)]) }) ∧
    (charCode < 0x20 ∨ 0x7F < charCode →
      exec (.glyph charCode) s = .next { s with returned := .glyph none }) ∧
    exec (.glyph 0x41) s = .next { s with
      returned := .glyph (some [0x7E#8, 0x11#8, 0x11#8, 0x11#8, 0x7E#8]) }

/-- `CELL` (R84): the glyph and the zero spacer, or no cell; with `inverse` set all six bytes go out
complemented, the spacer as 0xFF. -/
def Obligations.CellIsGlyphAndSpacer : Prop :=
  (∀ (charCode : Nat) (g : List Byte), glyph charCode = some g →
    g.length = 5 ∧ cell charCode = some (g ++ [0x00#8]) ∧
    txBytes false .data (g ++ [0x00#8]) = g ++ [0x00#8] ∧
    txBytes true .data (g ++ [0x00#8]) = g.map (fun b => ~~~b) ++ [0xFF#8]) ∧
  (∀ charCode : Nat, glyph charCode = none → cell charCode = none) ∧
  cell 0x41 = some [0x7E#8, 0x11#8, 0x11#8, 0x11#8, 0x7E#8, 0x00#8]

/-- `CURSORCMDS` (R90): the two command bytes for a position on the display, a rejection for every other
pair of integers, and nothing else changes. -/
def Obligations.CursorCommandBytes : Prop :=
  ∀ (bank column : Int) (s : State),
    (1 ≤ bank ∧ bank ≤ 6 ∧ 1 ≤ column ∧ column ≤ 14 →
      ∃ cmd1 cmd2 : Byte,
        exec (.cursorcmds bank column) s = .next { s with returned := .cursorcmds (some (cmd1, cmd2)) } ∧
        (cmd1.toNat : Int) = 0x40 + (bank - 1) ∧ (cmd2.toNat : Int) = 0x80 + (column - 1) * 6) ∧
    (¬(1 ≤ bank ∧ bank ≤ 6 ∧ 1 ≤ column ∧ column ≤ 14) →
      exec (.cursorcmds bank column) s = .next { s with returned := .cursorcmds none })

/-- `OFFSET` (R91): the formula, a multiple of 6 from 0 to 498, a cell that does not cross a bank boundary;
and after CURSOR the next data byte is stored there. -/
def Obligations.CursorSetsOffset : Prop :=
  ∀ bank column : Int, 1 ≤ bank → bank ≤ 6 → 1 ≤ column → column ≤ 14 →
    (offset bank column : Int) = (bank - 1) * 84 + (column - 1) * 6 ∧
    offset bank column ≤ 498 ∧ offset bank column % 6 = 0 ∧
    (offset bank column + 5) / 84 = offset bank column / 84 ∧
    ∀ (s : State) (d : Byte), s.phase = .ready → Reliable s → s.panel.listening = true →
      s.panel.h = .val .basic →
        ∃ t u, exec (.cursor bank column) s = .next t ∧ exec (.datawr d) t = .next u ∧
          Memory.read u.panel.ddram (offset bank column) = .val d ∧
          ∀ a, a ≠ offset bank column → Memory.read u.panel.ddram a = Memory.read s.panel.ddram a

/-! ## The write primitive -/

/-- `WRITE` (R120, R121): the frame it emits, the bytes it transfers, the levels it leaves on `CS` and `DC`,
and nothing else of the block. Its payload reaches the controller with the mode line at the mode's level.
Data always completes, and so does a command byte that is not reserved; a command frame is refused exactly
where the delivery of its bytes is (R68, log 11). -/
def Obligations.WriteFrame : Prop :=
  ∀ (mode : Mode) (payload : List Byte) (s : State), payload ≠ [] → Reliable s →
    let dc := match mode with | .command => Level.low | .data => Level.high
    let tx := match mode with
      | .command => payload
      | .data => if s.inverse then payload.map (fun b => ~~~b) else payload
    let selected : Panel :=
      { s.panel with cs := if s.cfg.csSoft then .val .low else s.panel.cs, dc := .val dc }
    let after : Panel → State := fun q => { s with
      panel := { q with cs := if s.cfg.csSoft then .val .high else q.cs }
      out := s.out ++ frameOf s.cfg.csSoft dc tx }
    (∀ q, deliver (.val dc) tx selected = .ok q → exec (.write mode payload) s = .next (after q)) ∧
    (∀ r, deliver (.val dc) tx selected = .error r → exec (.write mode payload) s = .refused r) ∧
    (mode = .data ∨ s.panel.listening = false ∨
        (∃ c k, payload = [c] ∧ decodeCommand s.panel.h c = some k) →
      ∃ q, deliver (.val dc) tx selected = .ok q ∧ exec (.write mode payload) s = .next (after q))

/-- A WRITE of an empty payload is not defined (R125), and the model refuses it (log 14). -/
def Obligations.EmptyWriteRefused : Prop :=
  ∀ (mode : Mode) (s : State), exec (.write mode []) s = .refused .emptyPayload

/-- The laws of the complement (R124): on bytes, and that a data write with `inverse` set does what the write
of the complemented payload does with `inverse` clear, whatever the transport does. -/
def Obligations.ComplementLaw : Prop :=
  (∀ b : Byte, (complement b).toNat = 255 - b.toNat ∧ complement (complement b) = b) ∧
  complement 0x00#8 = 0xFF#8 ∧ complement 0xFF#8 = 0x00#8 ∧
  ∀ (payload : List Byte) (s t : State), s.inverse = true →
    (exec (.write .data payload) s = .next t ↔
      t.inverse = true ∧
        exec (.write .data (payload.map complement)) { s with inverse := false } =
          .next { t with inverse := false })

/-! ## Acceptance and the errors -/

/-- Acceptance (R130): before `Ready` every public operation but REINIT changes nothing and returns
`NOT_READY`, whatever its operands (R171); REINIT is accepted in every phase. -/
def Obligations.AcceptanceByPhase : Prop :=
  (∀ (i : Instr) (s : State), i.needsReady = true → s.phase ≠ .ready →
    exec i s = .next { s with statuses := s.statuses ++ [.notReady] }) ∧
  (∀ (s t : State), exec .reinit s = .next t → t.statuses ≠ s.statuses ++ [.notReady]) ∧
  (∀ s : State, Reliable s → 0 ≤ s.cfg.contrast → s.cfg.contrast ≤ 127 →
    ∃ t, exec .reinit s = .next t ∧ t.phase = .ready)

/-- A request with `op = 7` changes nothing and returns `ILLEGAL_OP`, in every phase (R68, R166). -/
def Obligations.ReservedRequestIsIllegal : Prop :=
  ∀ s : State, exec .opReserved s = .next { s with statuses := s.statuses ++ [.illegalOp] }

/-- `ConfigError` (R161): an illegal contrast ends REINIT with nothing changed, and nothing else raises it. -/
def Obligations.IllegalContrastIsConfigError : Prop :=
  (∀ s : State, s.cfg.contrast < 0 ∨ 127 < s.cfg.contrast →
    exec .reinit s = .next { s with statuses := s.statuses ++ [.configError s.cfg.contrast] }) ∧
  (∀ (i : Instr) (s t : State) (n : Int),
    exec i s = .next t → t.statuses = s.statuses ++ [.configError n] →
      i = .reinit ∧ n = s.cfg.contrast ∧ (n < 0 ∨ 127 < n))

/-- Errors are precise (R172): where an operation ends in one of the five precise statuses, the state after
is the state before and the trace is not extended. -/
def Obligations.ErrorsArePrecise : Prop :=
  ∀ (i : Instr) (s t : State) (st : Status), st.isPrecise = true →
    exec i s = .next t → t.statuses = s.statuses ++ [st] → t = { s with statuses := s.statuses ++ [st] }

/-- The status codes (R160), and CURSOR's boolean. -/
def Obligations.StatusCodes : Prop :=
  (∀ (contrast : Int) (length report : Nat),
    Status.ok.code.toNat = 0 ∧ Status.rejected.code.toNat = 1 ∧
    (Status.configError contrast).code.toNat = 2 ∧ (Status.sizeError length).code.toNat = 3 ∧
    Status.notReady.code.toNat = 4 ∧ Status.illegalOp.code.toNat = 5 ∧
    (Status.transportFault report).code.toNat = 6) ∧
  Status.ok.cursorResult = some true ∧ Status.rejected.cursorResult = some false

/-! ## REINIT -/

/-- The state a REINIT that returned `OK` establishes (R34, R183), on the premise `RESET_PULSE_OK` (R186),
whatever the state before and whatever the transport did; and with a reliable transport and a legal contrast
it does return `OK`. Configuration, flags, inputs and the last returned value are kept. -/
def Obligations.ReinitEstablishesState : Prop :=
  (∀ s t : State, s.cfg.resetPulseOk = true →
    exec .reinit s = .next t → t.statuses = s.statuses ++ [.ok] →
      t.phase = .ready ∧ t.inverse = s.inverse ∧ t.backlightOn = s.backlightOn ∧
      t.panel.rst = .val .high ∧ t.panel.dc = .val .low ∧
      t.panel.bl = .val (if s.backlightOn = s.cfg.activeLow then .low else .high) ∧
      t.panel.cs = (if s.cfg.csSoft then .val .high else s.panel.cs) ∧
      t.busOpen = true ∧ t.panel.ctrlResetDone = true ∧
      t.panel.h = .val .basic ∧
      (∃ v, t.panel.vop = .val v ∧ (v.toNat : Int) = s.cfg.contrast) ∧
      t.panel.bias = .val 0x13#8 ∧ t.panel.dmode = .val .normal ∧
      t.panel.ay = .val 0 ∧ t.panel.ax = .val 0 ∧
      (∀ a, a < 504 → Memory.read t.panel.ddram a = .val (if s.inverse then 0xFF#8 else 0x00#8)) ∧
      t.cfg = s.cfg ∧ t.returned = s.returned ∧ t.inbox = s.inbox) ∧
  (∀ s : State, Reliable s → 0 ≤ s.cfg.contrast → s.cfg.contrast ≤ 127 →
    ∃ t, exec .reinit s = .next t ∧ t.statuses = s.statuses ++ [.ok])

/-- The events of REINIT in the order of its eight steps (R131), and its byte stream (R32). That each command
byte has a frame of its own is the spec's decision D9 (log 17). -/
def Obligations.ReinitTrace : Prop :=
  ∀ s : State, Reliable s → 0 ≤ s.cfg.contrast → s.cfg.contrast ≤ 127 →
    let soft := s.cfg.csSoft
    let z : Byte := if s.inverse then 0xFF#8 else 0x00#8
    let vop : Byte := BitVec.ofInt 8 (0x80 + s.cfg.contrast)
    ∃ t, exec .reinit s = .next t ∧
      t.out = s.out
        ++ (if s.busOpen then [.busClose] else [])
        ++ [.gpioConfigure (if soft then [.rst, .dc, .bl, .cs] else [.rst, .dc, .bl]) .low,
            .busOpen s.cfg.busId s.cfg.deviceId, .busClock 500000,
            .pin .bl (if s.backlightOn = s.cfg.activeLow then .low else .high)]
        ++ (if soft then [.pin .cs .high] else [])
        ++ [.pin .rst .high]
        ++ frameOf soft .low [0x21#8] ++ frameOf soft .low [vop] ++ frameOf soft .low [0x13#8]
        ++ frameOf soft .low [0x20#8] ++ frameOf soft .low [0x40#8] ++ frameOf soft .low [0x80#8]
        ++ frameOf soft .high (List.replicate 504 z)
        ++ frameOf soft .low [0x09#8] ++ frameOf soft .low [0x0C#8] ∧
      stream s.panel.dc (t.out.drop s.out.length) =
        [(.val .low, 0x21#8), (.val .low, vop), (.val .low, 0x13#8), (.val .low, 0x20#8),
          (.val .low, 0x40#8), (.val .low, 0x80#8)]
        ++ List.replicate 504 (.val .high, z)
        ++ [(.val .low, 0x09#8), (.val .low, 0x0C#8)]

/-- REINIT keeps the two mode flags, whatever the transport does (R132). -/
def Obligations.ReinitKeepsModeFlags : Prop :=
  ∀ s t : State, exec .reinit s = .next t → t.inverse = s.inverse ∧ t.backlightOn = s.backlightOn

/-- A second REINIT leaves the same state: only the trace and the statuses grow, and the second trace has
`BusClose` at its head (R133). -/
def Obligations.ReinitTwiceIsReinit : Prop :=
  ∀ s : State, Reliable s → 0 ≤ s.cfg.contrast → s.cfg.contrast ≤ 127 →
    ∃ (t u : State) (es : List Event), exec .reinit s = .next t ∧ exec .reinit t = .next u ∧
      t.out = s.out ++ (if s.busOpen then [.busClose] else []) ++ es ∧
      u = { t with out := t.out ++ .busClose :: es, statuses := t.statuses ++ [.ok] }

/-- An instance with an illegal contrast never leaves `Uninitialized` and never emits anything (R192): what
every step on a host request keeps. That the other operations do nothing before `Ready` is R130, the spec's
decision D11 (log 19). -/
def Obligations.BadContrastIsForever : Prop :=
  ∀ s t : State, FromHost s → NeverReady s → step s = .next t →
    FromHost t ∧ NeverReady t ∧ t.out = s.out ∧ t.panel = s.panel

/-! ## The other operations -/

/-- `CLEAR` (R136): its request word, its acceptance (R130), and once REINIT has ended its result, its trace and
everything it leaves alone. The counter at the first cell is the wrap D15 (R47, log 4), the frames of one
command byte are D9 (log 17), and NOT_READY is D11 (log 19): decisions of the spec. -/
def Obligations.ClearResult : Prop :=
  encode .clear = .request 0x10000#19 0#16 [] ∧
  (∀ s : State, s.phase ≠ .ready →
    exec .clear s = .next { s with statuses := s.statuses ++ [.notReady] }) ∧
  ∀ s : State, s.phase = .ready → Reliable s → s.panel.listening = true → s.panel.h = .val .basic →
    let z : Byte := if s.inverse then 0xFF#8 else 0x00#8
    ∃ m : Memory, (∀ a, a < 504 → Memory.read m a = .val z) ∧
      exec .clear s = .next { s with
        panel := { s.panel with
          cs := if s.cfg.csSoft then .val .high else s.panel.cs
          dc := .val .high, ay := .val 0, ax := .val 0, ddram := m }
        out := s.out ++ frameOf s.cfg.csSoft .low [0x40#8] ++ frameOf s.cfg.csSoft .low [0x80#8]
          ++ frameOf s.cfg.csSoft .high (List.replicate 504 z)
        statuses := s.statuses ++ [.ok] }

/-- `CURSOR` (R138, R162): on the display it sets the counter with SETY then SETX; off it, it is rejected
with no event and no change. -/
def Obligations.CursorResult : Prop :=
  ∀ (bank column : Int) (s : State), s.phase = .ready →
    (1 ≤ bank ∧ bank ≤ 6 ∧ 1 ≤ column ∧ column ≤ 14 →
      Reliable s → s.panel.listening = true → s.panel.h = .val .basic →
        ∃ (y : Fin 6) (x : Fin 84), (y.val : Int) = bank - 1 ∧ (x.val : Int) = (column - 1) * 6 ∧
          exec (.cursor bank column) s = .next { s with
            panel := { s.panel with
              cs := if s.cfg.csSoft then .val .high else s.panel.cs
              dc := .val .low, ay := .val y, ax := .val x }
            out := s.out ++ frameOf s.cfg.csSoft .low [BitVec.ofInt 8 (0x40 + (bank - 1))]
              ++ frameOf s.cfg.csSoft .low [BitVec.ofInt 8 (0x80 + (column - 1) * 6)]
            statuses := s.statuses ++ [.ok] }) ∧
    (¬(1 ≤ bank ∧ bank ≤ 6 ∧ 1 ≤ column ∧ column ≤ 14) →
      exec (.cursor bank column) s = .next { s with statuses := s.statuses ++ [.rejected] })

/-- `BACKLIGHT` (R134): its request word, its acceptance (R130), and the flag, the line and the one event, with
the level of the truth table. That the flag stays written where the one event fails is the spec's decision D13
(R165, log 9), and NOT_READY is its decision D11 (log 19). -/
def Obligations.BacklightResult : Prop :=
  (∀ on : Bool, encode (.backlight on) = .request (3#3 ++ (if on then 1#8 else 0#8) ++ 0#8) 0#16 []) ∧
  (∀ (on : Bool) (s : State), s.phase ≠ .ready →
    exec (.backlight on) s = .next { s with statuses := s.statuses ++ [.notReady] }) ∧
  (∀ (on : Bool) (s : State) (report : Nat) (rest : List CallEnd), s.phase = .ready →
    s.transport = .fails report :: rest →
      exec (.backlight on) s = .next { s with
        backlightOn := on, transport := rest
        statuses := s.statuses ++ [.transportFault report] }) ∧
  ∀ (on : Bool) (s : State), s.phase = .ready → Reliable s →
    let level : Level := match on, s.cfg.activeLow with
      | false, false => .low
      | true, false => .high
      | false, true => .high
      | true, true => .low
    exec (.backlight on) s = .next { s with
      backlightOn := on
      panel := { s.panel with bl := .val level }
      out := s.out ++ [.pin .bl level]
      statuses := s.statuses ++ [.ok] }

/-- `INVERSE` (R135): its request word, its acceptance (R130), and only the flag, with no event whatever the
transport would do, so that the glass stays as it is (R187). NOT_READY is the spec's decision D11 (log 19). -/
def Obligations.InverseResult : Prop :=
  (∀ on : Bool, encode (.inverse on) = .request (4#3 ++ (if on then 1#8 else 0#8) ++ 0#8) 0#16 []) ∧
  (∀ (on : Bool) (s : State), s.phase ≠ .ready →
    exec (.inverse on) s = .next { s with statuses := s.statuses ++ [.notReady] }) ∧
  ∀ (on : Bool) (s : State), s.phase = .ready →
    exec (.inverse on) s = .next { s with inverse := on, statuses := s.statuses ++ [.ok] }

/-- `PRINTSTRING` (R139): one data frame of six bytes for each accepted code, nothing for a rejected one,
status `OK`; nothing changes but `CS`, `DC`, the counter and the RAM. -/
def Obligations.PrintStringResult : Prop :=
  ∀ (text : List Nat) (s : State), s.phase = .ready → Reliable s →
    ∃ p : Panel,
      exec (.printstring text) s = .next { s with
        panel := p
        out := s.out ++ (text.filterMap cell).flatMap
          (fun c => frameOf s.cfg.csSoft .high (if s.inverse then c.map (fun b => ~~~b) else c))
        statuses := s.statuses ++ [.ok] } ∧
      p = { s.panel with cs := p.cs, dc := p.dc, ay := p.ay, ax := p.ax, ddram := p.ddram } ∧
      (text.filterMap cell ≠ [] →
        p.dc = .val .high ∧ p.cs = (if s.cfg.csSoft then .val .high else s.panel.cs)) ∧
      ((∀ ch, ch ∈ text → ch < 0x20 ∨ 0x7F < ch) → p = s.panel)

/-- Where text lands (R141): the n-th accepted character is in cells `(A0 + 6n + k) mod 504`, unless one of
the later characters has come round and overwritten it; every other cell keeps what it holds; and the counter
ends after the last character. That the counter wraps from cell 503 to cell 0 is the spec's decision D15
(log 4). -/
def Obligations.TextLandsFromCounter : Prop :=
  ∀ (text : List Nat) (s : State) (a0 : Nat), s.phase = .ready → Reliable s →
    s.panel.listening = true → s.panel.counterIs a0 →
      let cells := text.filterMap cell
      ∃ t, exec (.printstring text) s = .next t ∧
        (∀ (n k : Nat) (bytes : List Byte) (b : Byte), cells[n]? = some bytes → bytes[k]? = some b →
          cells.length ≤ n + 84 →
            Memory.read t.panel.ddram ((a0 + 6 * n + k) % 504) = .val (if s.inverse then ~~~b else b)) ∧
        (∀ a, (∀ j, j < 6 * cells.length → a ≠ (a0 + j) % 504) →
          Memory.read t.panel.ddram a = Memory.read s.panel.ddram a) ∧
        t.panel.counterIs ((a0 + 6 * cells.length) % 504)

/-- `PRINTIMAGE` (R137, R163): the whole frame from the first cell, or a size error with no event and no
change (D12). The counter at the first cell is the wrap D15 (R47, log 4), and the frames of one command byte
are D9 (log 17): decisions of the spec. -/
def Obligations.PrintImageResult : Prop :=
  ∀ (pixels : List Byte) (s : State), s.phase = .ready →
    (pixels.length = 504 → Reliable s → s.panel.listening = true → s.panel.h = .val .basic →
      let tx := if s.inverse then pixels.map (fun b => ~~~b) else pixels
      ∃ m : Memory, (∀ (a : Nat) (b : Byte), tx[a]? = some b → Memory.read m a = .val b) ∧
        exec (.printimage pixels) s = .next { s with
          panel := { s.panel with
            cs := if s.cfg.csSoft then .val .high else s.panel.cs
            dc := .val .high, ay := .val 0, ax := .val 0, ddram := m }
          out := s.out ++ frameOf s.cfg.csSoft .low [0x40#8] ++ frameOf s.cfg.csSoft .low [0x80#8]
            ++ frameOf s.cfg.csSoft .high tx
          statuses := s.statuses ++ [.ok] }) ∧
    (pixels.length ≠ 504 →
      exec (.printimage pixels) s = .next { s with
        statuses := s.statuses ++ [.sizeError pixels.length] })

/-! ## The transport -/

/-- `TransportFault` of a request (R165): if a call fails after k events, the operation has emitted exactly the
first k of the events it would have emitted, they have had their effect on the lines and the display side, the
status is the capability's report, `phase` is `Uninitialized` for REINIT and unchanged otherwise, BACKLIGHT's
flag is written, and `bus_open` is false from REINIT's `BusClose` on and true from its `BusClock` on (R16, R131
steps 2 and 3). The state after a failure is the spec's decision D13, and where in step 3 `bus_open` becomes
true is read from the pseudocode (log 9). -/
def Obligations.TransportFaultStopsThere : Prop :=
  ∀ (i : Instr) (s t : State) (es : List Event) (k report : Nat) (rest : List CallEnd),
    i.isRequest = true →
    exec i { s with transport := [] } = .next t → t.out = s.out ++ es → k < es.length →
    s.transport = List.replicate k .succeeds ++ .fails report :: rest →
      ∃ (u : State) (p : Panel), exec i s = .next u ∧
        replay s.cfg.resetPulseOk (es.take k) s.panel = .ok p ∧ u.panel = p ∧
        u.out = s.out ++ es.take k ∧
        u.statuses = s.statuses ++ [.transportFault report] ∧
        u.transport = rest ∧
        u.phase = (if i = .reinit then .uninitialized else s.phase) ∧
        u.busOpen = (if .busClock 500000 ∈ es.take k then true
          else if .busClose ∈ es.take k then false else s.busOpen) ∧
        u.inverse = t.inverse ∧ u.backlightOn = t.backlightOn ∧ u.cfg = s.cfg

/-- A capability call that never returns leaves a request without an end (R191), which the model says by
a fault (log 10). -/
def Obligations.HangingCallStops : Prop :=
  ∀ (i : Instr) (s t : State) (es : List Event) (k : Nat) (rest : List CallEnd),
    i.isRequest = true →
    exec i { s with transport := [] } = .next t → t.out = s.out ++ es → k < es.length →
    s.transport = List.replicate k .succeeds ++ .hangs :: rest →
      exec i s = .fault .transportHang

/-! ## The whole machine -/

/-- The display side after any run of host requests is the left fold of R31 over the events the run emitted
(R51). -/
def Obligations.RunIsFoldOfTrace : Prop :=
  ∀ (k : Nat) (s t : State), FromHost s →
    (Host.Core.run Sys2Proof.core k s : Host.Outcome State Fault Refusal) = .next t →
      ∃ es : List Event, t.out = s.out ++ es ∧ replay s.cfg.resetPulseOk es s.panel = .ok t.panel

/-- The display side depends only on the byte stream and the drives of the reset line between its bytes, not
on the grouping into transfers nor on chip-select (R32). -/
def Obligations.ByteStreamDeterminesDisplay : Prop :=
  ∀ (pulseOk : Bool) (es fs : List Event) (p q : Panel),
    displayView p.dc es = displayView p.dc fs → replay pulseOk es p = .ok q →
      ∃ q', replay pulseOk fs p = .ok q' ∧ q'.displaySide = q.displaySide

/-- The command bytes the block can send (R69, R108): the cursor bytes from every operation, and the
initialisation bytes from REINIT alone. -/
def Obligations.CommandBytesSent : Prop :=
  ∀ (i : Instr) (s t : State), i.isRequest = true → exec i s = .next t →
    ∀ (dc : Reg Level) (c : Byte), (dc, c) ∈ stream s.panel.dc (t.out.drop s.out.length) →
      dc ≠ .bot ∧
      (dc = .val .low →
        (0x40 ≤ c.toNat ∧ c.toNat ≤ 0x45) ∨
        (0x80 ≤ c.toNat ∧ c.toNat ≤ 0xCE ∧ (c.toNat - 0x80) % 6 = 0) ∨
        (i = .reinit ∧ (c = 0x21#8 ∨ c = 0x13#8 ∨ c = 0x20#8 ∨ c = 0x09#8 ∨ c = 0x0C#8 ∨
          (c.toNat : Int) = 0x80 + s.cfg.contrast)))

/-- Every frame of a request stands whole between select and deselect (R63, R122, R123), REINIT's too: what a
request appends is an opening without a transfer, which only REINIT and BACKLIGHT have, and then whole frames,
command frames of one byte (D9, log 17) and data frames of 6 or 504. Only a failing call cuts the trace short
(R165). -/
def Obligations.FramesStandWhole : Prop :=
  ∀ (i : Instr) (s t : State), i.isRequest = true → exec i s = .next t →
    ∃ (opening : List Event) (frames : List (Level × List Byte)) (cut : List Event),
      t.out ++ cut = s.out ++ opening ++ frames.flatMap (fun f => frameOf s.cfg.csSoft f.1 f.2) ∧
      (Reliable s → cut = []) ∧
      (i ≠ .reinit → (∀ on, i ≠ .backlight on) → opening = []) ∧
      (∀ e, e ∈ opening → (∀ bytes, e ≠ .xfer bytes) ∧ (∀ l, e ≠ .pin .dc l) ∧
        (∀ l, e = .pin .cs l → l = .high ∧ s.cfg.csSoft = true)) ∧
      ∀ f, f ∈ frames → (f.1 = .low ∧ f.2.length = 1) ∨
        (f.1 = .high ∧ (f.2.length = 6 ∨ f.2.length = 504))

/-- What no step on any input ever breaks: the canonical form of the display RAM and the meaning of the
reset line (R26, R27), and a chip-select line that hardware manages (R15). -/
def Obligations.EveryStepKeepsSound : Prop :=
  ∀ s t : State, Sound s → step s = .next t → Sound t

/-- What host requests keep (R11, R34, R49, R108, R183): in `Ready` the basic instruction set is in force,
contrast, bias and display mode are REINIT's, the address counter stands at a character cell, every cell
holds a byte, and the lines and the bus are held, also after a transport failure. The counter after full frames
and text rests on the wrap D15 (R47, log 4), and the state after a failure on D13 (R165, log 9): decisions of
the spec. -/
def Obligations.HostStepKeepsInvariant : Prop :=
  ∀ s t : State, Sound s → HostInv s → FromHost s → step s = .next t → HostInv t ∧ FromHost t

/-- The block never sends a byte the controller has no meaning for (R69): in a state that host requests
reach, every complete request completes, if the transport does. -/
def Obligations.HostRequestsComplete : Prop :=
  ∀ (s : State) (inp : Input) (rest : List Input) (i : Instr),
    Sound s → HostInv s → FromHost s → Reliable s →
    s.inbox = inp :: rest → decode s.panel.h inp = .ok i →
      ∃ t, step s = .next t

/-- What each operation may write (R142): every element its row leaves empty keeps its value, whatever the
transport does. -/
def Obligations.OperationsWriteTheirRow : Prop :=
  ∀ (i : Instr) (s t : State), Sound s → i.isRequest = true → exec i s = .next t →
    t.cfg = s.cfg ∧ t.inbox = s.inbox ∧ t.returned = s.returned ∧
    (i ≠ .reinit → t.phase = s.phase ∧ t.busOpen = s.busOpen ∧ t.panel.rst = s.panel.rst ∧
      t.panel.h = s.panel.h ∧ t.panel.vop = s.panel.vop ∧ t.panel.bias = s.panel.bias ∧
      t.panel.dmode = s.panel.dmode ∧ t.panel.ctrlResetDone = s.panel.ctrlResetDone) ∧
    ((∀ on, i ≠ .inverse on) → t.inverse = s.inverse) ∧
    ((∀ on, i ≠ .backlight on) → t.backlightOn = s.backlightOn) ∧
    (i ≠ .reinit → (∀ on, i ≠ .backlight on) → t.panel.bl = s.panel.bl) ∧
    ((∃ on, i = .inverse on ∨ i = .backlight on) ∨ i = .opReserved →
      t.panel.dc = s.panel.dc ∧ t.panel.cs = s.panel.cs ∧ t.panel.ay = s.panel.ay ∧
      t.panel.ax = s.panel.ax) ∧
    ((∃ on, i = .inverse on ∨ i = .backlight on) ∨ (∃ bank column, i = .cursor bank column) ∨
        i = .opReserved →
      ∀ a, Memory.read t.panel.ddram a = Memory.read s.panel.ddram a)

/-- Who writes what, over every instruction (R5, R11, R13, R14, R16, R181): the configuration is written by
none, `phase`, `bus_open`, the reset line and `ctrl_reset_done` by REINIT only, `inverse` by INVERSE only,
`backlightOn` by BACKLIGHT only. -/
def Obligations.OnlyTheirWriters : Prop :=
  ∀ (i : Instr) (s t : State), exec i s = .next t →
    t.cfg = s.cfg ∧
    (i ≠ .reinit → t.phase = s.phase ∧ t.busOpen = s.busOpen ∧ t.panel.rst = s.panel.rst ∧
      t.panel.ctrlResetDone = s.panel.ctrlResetDone) ∧
    ((∀ on, i ≠ .inverse on) → t.inverse = s.inverse) ∧
    ((∀ on, i ≠ .backlight on) → t.backlightOn = s.backlightOn)

/-! ## The write primitive on any transport -/

/-- How a stand-alone WRITE ends, whatever the transport does (R120). Where call number k fails, it has done the
first k events of its frame and reports the transport fault (R165, D13, logs 9 and 29). Where that call never
returns, it has no end (R191, log 10). Where every call succeeds, it has done its frame. Where the controller has
no meaning for a byte that it is sent on the way, it is refused (R68, D17, log 11). -/
def Obligations.WriteTransportEnds : Prop :=
  ∀ (mode : Mode) (payload : List Byte) (s : State) (k : Nat) (rest : List CallEnd), payload ≠ [] →
    let dc := match mode with | .command => Level.low | .data => Level.high
    let tx := match mode with
      | .command => payload
      | .data => if s.inverse then payload.map (fun b => ~~~b) else payload
    let es := frameOf s.cfg.csSoft dc tx
    (∀ (report : Nat) (p : Panel), k < es.length →
      s.transport = List.replicate k .succeeds ++ .fails report :: rest →
      replay s.cfg.resetPulseOk (es.take k) s.panel = .ok p →
        exec (.write mode payload) s = .next { s with
          panel := p
          out := s.out ++ es.take k
          statuses := s.statuses ++ [.transportFault report]
          transport := rest }) ∧
    (∀ p : Panel, k < es.length →
      s.transport = List.replicate k .succeeds ++ .hangs :: rest →
      replay s.cfg.resetPulseOk (es.take k) s.panel = .ok p →
        exec (.write mode payload) s = .fault .transportHang) ∧
    (∀ p : Panel,
      s.transport = List.replicate es.length .succeeds ++ rest →
      replay s.cfg.resetPulseOk es s.panel = .ok p →
        exec (.write mode payload) s = .next { s with
          panel := p, out := s.out ++ es, transport := rest }) ∧
    (∀ r : Refusal,
      s.transport = List.replicate k .succeeds ++ rest →
      replay s.cfg.resetPulseOk (es.take k) s.panel = .error r →
        exec (.write mode payload) s = .refused r)
end

