-- ==== Sys2Proof/Laws/Decode.lean ====
section
/-! SUPPORT. The laws of the decoder and the encoder, one per function. -/

namespace Sys2Proof

/-- What a byte read in the basic set stands for. -/
theorem decodeBasic_cases {c : Byte} {k : Command} (h : decodeBasic c = some k) :
    (c = 0x09#8 ∧ k = .dispAllon) ∨ (c = 0x0C#8 ∧ k = .dispNormal) ∨
    (∃ y : Fin 6, c.toNat = 0x40 + y.val ∧ k = .sety y) ∨
    (∃ x : Fin 84, c.toNat = 0x80 + x.val ∧ k = .setx x) := by
  unfold decodeBasic at h
  split at h
  · simp_all
  · split at h
    · simp_all
    · split at h
      · rename_i hr
        injection h with h
        exact .inr (.inr (.inl ⟨_, by simp only; omega, h.symm⟩))
      · split at h
        · rename_i hr
          injection h with h
          exact .inr (.inr (.inr ⟨_, by simp only; omega, h.symm⟩))
        · exact absurd h (by simp)

/-- What a byte read in the extended set stands for. -/
theorem decodeExtended_cases {c : Byte} {k : Command} (h : decodeExtended c = some k) :
    (c = 0x13#8 ∧ k = .setbias) ∨ (0x80 ≤ c.toNat ∧ k = .setvop (c.setWidth 7)) := by
  unfold decodeExtended at h
  split at h
  · simp_all
  · split at h
    · simp_all
    · simp at h

@[simp] theorem decodeCommand_ext (h : Reg InstrSet) :
    decodeCommand h funcsetExtByte = some .funcsetExt := by
  simp [decodeCommand, funcsetExtByte]

@[simp] theorem decodeCommand_basic (h : Reg InstrSet) :
    decodeCommand h funcsetBasicByte = some .funcsetBasic := by
  simp [decodeCommand, funcsetBasicByte]

@[simp] theorem decodeCommand_bias : decodeCommand (.val .extended) setbiasByte = some .setbias := by
  decide

@[simp] theorem decodeCommand_allOn : decodeCommand (.val .basic) dispAllonByte = some .dispAllon := by
  decide

@[simp] theorem decodeCommand_normal : decodeCommand (.val .basic) dispNormalByte = some .dispNormal := by
  decide

theorem setvopByte_toNat (v : BitVec 7) : (setvopByte v).toNat = 0x80 + v.toNat := by
  revert v; decide

theorem setxByte_toNat (x : BitVec 7) : (setxByte x).toNat = 0x80 + x.toNat := by
  revert x; decide

theorem setyByte_toNat (y : BitVec 3) : (setyByte y).toNat = 0x40 + y.toNat := by
  revert y; decide

@[simp] theorem decodeCommand_vop (v : BitVec 7) :
    decodeCommand (.val .extended) (setvopByte v) = some (.setvop v) := by
  revert v; decide

theorem decodeCommand_sety {y : BitVec 3} (h : y.toNat < 6) :
    decodeCommand (.val .basic) (setyByte y) = some (.sety ⟨y.toNat, h⟩) := by
  revert y; decide

theorem decodeCommand_setx {x : BitVec 7} (h : x.toNat < 84) :
    decodeCommand (.val .basic) (setxByte x) = some (.setx ⟨x.toNat, h⟩) := by
  revert x; decide

@[simp] theorem headerOp_request (op : BitVec 3) (a b : Byte) : headerOp (requestHeader op a b) = op := by
  unfold headerOp requestHeader
  ext i hi
  simp only [BitVec.getElem_extractLsb', BitVec.getLsbD_append]
  rw [if_neg (by omega), if_neg (by omega)]
  simp only [show 16 + i - 8 - 8 = i by omega]
  exact BitVec.getLsbD_eq_getElem hi

@[simp] theorem headerA_request (op : BitVec 3) (a b : Byte) : headerA (requestHeader op a b) = a := by
  unfold headerA requestHeader
  ext i hi
  simp only [BitVec.getElem_extractLsb', BitVec.getLsbD_append]
  rw [if_neg (by omega), if_pos (by omega)]
  simp only [show 8 + i - 8 = i by omega]
  exact BitVec.getLsbD_eq_getElem hi

@[simp] theorem headerB_request (op : BitVec 3) (a b : Byte) : headerB (requestHeader op a b) = b := by
  unfold headerB requestHeader
  ext i hi
  simp only [BitVec.getElem_extractLsb', BitVec.getLsbD_append]
  rw [if_pos (by omega)]
  simp only [show 0 + i = i by omega]
  exact BitVec.getLsbD_eq_getElem hi

/-- A payload that is all there is read whole. -/
theorem takePayload_whole {bytes : List Byte} (h : bytes.length < 65536) :
    takePayload (BitVec.ofNat 16 bytes.length) bytes = .ok bytes := by
  have : (BitVec.ofNat 16 bytes.length).toNat = bytes.length := by
    rw [BitVec.toNat_ofNat]; exact Nat.mod_eq_of_lt h
  simp [takePayload, this]

end Sys2Proof
end

