-- ==== Sys2Proof/Laws/Memory.lean ====
section
/-! SUPPORT. The laws of the display RAM: read after write, and the canonical form. -/

namespace Sys2Proof.Machine

@[simp] theorem Memory.read_nil (a : Nat) : Memory.read [] a = .bot := rfl

@[simp] theorem Memory.read_allUnspecified (a : Nat) : Memory.read Memory.allUnspecified a = .bot := rfl

@[simp] theorem Memory.wf_nil : Memory.wf [] = true := rfl

@[simp] theorem Memory.wf_allUnspecified : Memory.wf Memory.allUnspecified = true := rfl

@[simp] theorem Memory.read_write_same (m : Memory) (a : Nat) (d : Byte) :
    Memory.read (Memory.write m a d) a = .val d := by
  induction m with
  | nil => simp [Memory.write, Memory.read]
  | cons c m ih =>
    obtain ⟨k, b⟩ := c
    simp only [Memory.write]
    split
    · have : a ≠ k := by omega
      simp [Memory.read, this, ih]
    · split <;> simp [Memory.read]

theorem Memory.read_write_other (m : Memory) {a b : Nat} (d : Byte) (h : b ≠ a) :
    Memory.read (Memory.write m a d) b = Memory.read m b := by
  induction m with
  | nil => simp [Memory.write, Memory.read, h, Memory.unlisted]
  | cons c m ih =>
    obtain ⟨k, x⟩ := c
    simp only [Memory.write]
    split
    · simp [Memory.read, ih]
    · split
      · subst_vars; simp [Memory.read, h]
      · simp [Memory.read, h]

/-- Where an address of a written memory comes from. -/
theorem Memory.mem_write {m : Memory} {a : Nat} {d : Byte} {c : Host.Cell} (h : c ∈ Memory.write m a d) :
    c.1 = a ∨ c ∈ m := by
  induction m with
  | nil => simp [Memory.write] at h; simp [h]
  | cons x m ih =>
    obtain ⟨k, b⟩ := x
    simp only [Memory.write] at h
    split at h
    · rcases List.mem_cons.1 h with h | h
      · simp [h]
      · rcases ih h with h | h <;> simp [h]
    · split at h <;> rcases List.mem_cons.1 h with h | h <;> simp [h]

/-- A write keeps the canonical form. -/
theorem Memory.wf_write {m : Memory} {a : Nat} (d : Byte) (hm : Memory.wf m = true)
    (ha : a < 504) : Memory.wf (Memory.write m a d) = true := by
  induction m with
  | nil => simpa [Memory.write, Memory.wf] using ha
  | cons c m ih =>
    obtain ⟨k, b⟩ := c
    simp only [Memory.wf, Bool.and_eq_true, decide_eq_true_eq, List.all_eq_true] at hm
    obtain ⟨⟨hk, hall⟩, hw⟩ := hm
    simp only [Memory.write]
    split
    · rename_i hka
      simp only [Memory.wf, Bool.and_eq_true, decide_eq_true_eq, List.all_eq_true]
      refine ⟨⟨hk, fun c hc => ?_⟩, ih hw⟩
      rcases Memory.mem_write hc with h | h
      · omega
      · exact hall c h
    · split
      · subst_vars
        simp only [Memory.wf, Bool.and_eq_true, decide_eq_true_eq, List.all_eq_true]
        exact ⟨⟨hk, hall⟩, hw⟩
      · rename_i h1 h2
        simp only [Memory.wf, Bool.and_eq_true, decide_eq_true_eq, List.all_eq_true, List.mem_cons,
          forall_eq_or_imp]
        exact ⟨⟨ha, by omega, fun c hc => by have := hall c hc; omega⟩, ⟨hk, hall⟩, hw⟩

/-- The cell of an address counter lies inside the frame. -/
theorem ddramIndex_lt (y : Fin 6) (x : Fin 84) : ddramIndex y x < 504 := by
  unfold ddramIndex; omega

/-- The counter is a number, and a data byte adds one to it modulo the frame (R47). -/
theorem ddramIndex_advance (y : Fin 6) (x : Fin 84) :
    ddramIndex (advance y x).1 (advance y x).2 = (ddramIndex y x + 1) % 504 := by
  unfold advance ddramIndex
  split
  · simp; omega
  · split
    · simp; omega
    · simp; omega

/-- The number of a counter determines both fields. -/
theorem ddramIndex_inj {y y' : Fin 6} {x x' : Fin 84} (h : ddramIndex y x = ddramIndex y' x') :
    y = y' ∧ x = x' := by
  unfold ddramIndex at h
  constructor <;> apply Fin.ext <;> omega

end Sys2Proof.Machine
end

