-- ==== Sys2Proof/Laws/Panel.lean ====
section
/-! SUPPORT. What the shared operations on the panel can do, said once: reception of a byte, delivery of a
transfer, driving a line, replaying a trace. -/

namespace Sys2Proof.Machine

/-! ## Losing the display side -/

section
variable (p : Panel)

@[simp] theorem Panel.lost_rst : p.lost.rst = p.rst := rfl
@[simp] theorem Panel.lost_dc : p.lost.dc = p.dc := rfl
@[simp] theorem Panel.lost_bl : p.lost.bl = p.bl := rfl
@[simp] theorem Panel.lost_cs : p.lost.cs = p.cs := rfl
@[simp] theorem Panel.lost_ctrlResetDone : p.lost.ctrlResetDone = p.ctrlResetDone := rfl
@[simp] theorem Panel.lost_h : p.lost.h = .bot := rfl
@[simp] theorem Panel.lost_vop : p.lost.vop = .bot := rfl
@[simp] theorem Panel.lost_bias : p.lost.bias = .bot := rfl
@[simp] theorem Panel.lost_dmode : p.lost.dmode = .bot := rfl
@[simp] theorem Panel.lost_ay : p.lost.ay = .bot := rfl
@[simp] theorem Panel.lost_ax : p.lost.ax = .bot := rfl
@[simp] theorem Panel.lost_ddram : p.lost.ddram = [] := rfl
@[simp] theorem Panel.lost_listening : p.lost.listening = p.listening := rfl
end

/-! ## The controller side of a command -/

section
variable (k : Command) (p : Panel)

@[simp] theorem controllerSide_rst : (controllerSide k p).rst = p.rst := by cases k <;> rfl
@[simp] theorem controllerSide_dc : (controllerSide k p).dc = p.dc := by cases k <;> rfl
@[simp] theorem controllerSide_bl : (controllerSide k p).bl = p.bl := by cases k <;> rfl
@[simp] theorem controllerSide_cs : (controllerSide k p).cs = p.cs := by cases k <;> rfl
@[simp] theorem controllerSide_ddram : (controllerSide k p).ddram = p.ddram := by cases k <;> rfl
@[simp] theorem controllerSide_ctrlResetDone : (controllerSide k p).ctrlResetDone = p.ctrlResetDone := by cases k <;> rfl
@[simp] theorem controllerSide_listening : (controllerSide k p).listening = p.listening := by
  cases k <;> rfl
end

theorem listening_iff {p : Panel} :
    p.listening = true ↔ p.ctrlResetDone = true ∧ p.rst = .val .high := by
  simp [Panel.listening]

/-! ## A command byte (R110) -/

theorem recvCommand_listening {p : Panel} {c : Byte} {k : Command} (hl : p.listening = true)
    (hk : decodeCommand p.h c = some k) : recvCommand c p = .ok (controllerSide k p) := by
  simp [recvCommand, hl, hk]

theorem recvCommand_reserved {p : Panel} {c : Byte} (hl : p.listening = true)
    (hk : decodeCommand p.h c = none) : recvCommand c p = .error (.reservedCommand p.h c) := by
  simp [recvCommand, hl, hk]

theorem recvCommand_deaf {p : Panel} {c : Byte} (hl : p.listening = false) :
    recvCommand c p = .ok p.lost := by
  simp [recvCommand, hl]

/-- Everything a received command byte can do. -/
theorem recvCommand_cases {p q : Panel} {c : Byte} (h : recvCommand c p = .ok q) :
    (p.listening = false ∧ q = p.lost) ∨
    (p.listening = true ∧ ∃ k, decodeCommand p.h c = some k ∧ q = controllerSide k p) := by
  cases hl : p.listening with
  | false => rw [recvCommand_deaf hl] at h; exact .inl ⟨rfl, by simpa using h.symm⟩
  | true =>
    cases hk : decodeCommand p.h c with
    | none => rw [recvCommand_reserved hl hk] at h; exact absurd h (by simp)
    | some k => rw [recvCommand_listening hl hk] at h; exact .inr ⟨rfl, k, rfl, by simpa using h.symm⟩

/-! ## A data byte (R45) -/

theorem recvData_stores {p : Panel} {y : Fin 6} {x : Fin 84} (d : Byte) (hl : p.listening = true)
    (hy : p.ay = .val y) (hx : p.ax = .val x) :
    recvData d p =
      { p with
        ddram := Memory.write p.ddram (ddramIndex y x) d
        ay := .val (advance y x).1, ax := .val (advance y x).2 } := by
  simp [recvData, hl, hy, hx]

theorem recvData_deaf {p : Panel} (d : Byte) (hl : p.listening = false) :
    recvData d p = { p with ddram := [], ay := .bot, ax := .bot } := by
  simp [recvData, hl, Memory.allUnspecified]

theorem recvData_nowhere {p : Panel} (d : Byte) (hl : p.listening = true)
    (hn : p.ay = .bot ∨ p.ax = .bot) : recvData d p = { p with ddram := [] } := by
  cases hy : p.ay <;> cases hx : p.ax <;>
    simp_all [recvData, Memory.allUnspecified]

/-- Everything a received data byte can do. -/
theorem recvData_cases (d : Byte) (p : Panel) :
    (p.listening = false ∧ recvData d p = { p with ddram := [], ay := .bot, ax := .bot }) ∨
    (p.listening = true ∧ (p.ay = .bot ∨ p.ax = .bot) ∧ recvData d p = { p with ddram := [] }) ∨
    (p.listening = true ∧ ∃ y x, p.ay = .val y ∧ p.ax = .val x ∧
      recvData d p =
        { p with
          ddram := Memory.write p.ddram (ddramIndex y x) d
          ay := .val (advance y x).1, ax := .val (advance y x).2 }) := by
  cases hl : p.listening with
  | false => exact .inl ⟨rfl, recvData_deaf d hl⟩
  | true =>
    cases hy : p.ay with
    | bot => exact .inr (.inl ⟨rfl, .inl rfl, by rw [recvData_nowhere d hl (.inl hy), hy]⟩)
    | val y =>
      cases hx : p.ax with
      | bot => exact .inr (.inl ⟨rfl, .inr rfl, by rw [recvData_nowhere d hl (.inr hx), hy, hx]⟩)
      | val x => exact .inr (.inr ⟨rfl, y, x, rfl, rfl, recvData_stores d hl hy hx⟩)

section
variable (d : Byte) (p : Panel)

@[simp] theorem recvData_rst : (recvData d p).rst = p.rst := by
  rcases recvData_cases d p with ⟨_, h⟩ | ⟨_, _, h⟩ | ⟨_, _, _, _, _, h⟩ <;> rw [h]
@[simp] theorem recvData_dc : (recvData d p).dc = p.dc := by
  rcases recvData_cases d p with ⟨_, h⟩ | ⟨_, _, h⟩ | ⟨_, _, _, _, _, h⟩ <;> rw [h]
@[simp] theorem recvData_bl : (recvData d p).bl = p.bl := by
  rcases recvData_cases d p with ⟨_, h⟩ | ⟨_, _, h⟩ | ⟨_, _, _, _, _, h⟩ <;> rw [h]
@[simp] theorem recvData_cs : (recvData d p).cs = p.cs := by
  rcases recvData_cases d p with ⟨_, h⟩ | ⟨_, _, h⟩ | ⟨_, _, _, _, _, h⟩ <;> rw [h]
@[simp] theorem recvData_h : (recvData d p).h = p.h := by
  rcases recvData_cases d p with ⟨_, h⟩ | ⟨_, _, h⟩ | ⟨_, _, _, _, _, h⟩ <;> rw [h]
@[simp] theorem recvData_vop : (recvData d p).vop = p.vop := by
  rcases recvData_cases d p with ⟨_, h⟩ | ⟨_, _, h⟩ | ⟨_, _, _, _, _, h⟩ <;> rw [h]
@[simp] theorem recvData_bias : (recvData d p).bias = p.bias := by
  rcases recvData_cases d p with ⟨_, h⟩ | ⟨_, _, h⟩ | ⟨_, _, _, _, _, h⟩ <;> rw [h]
@[simp] theorem recvData_dmode : (recvData d p).dmode = p.dmode := by
  rcases recvData_cases d p with ⟨_, h⟩ | ⟨_, _, h⟩ | ⟨_, _, _, _, _, h⟩ <;> rw [h]
@[simp] theorem recvData_ctrlResetDone : (recvData d p).ctrlResetDone = p.ctrlResetDone := by
  rcases recvData_cases d p with ⟨_, h⟩ | ⟨_, _, h⟩ | ⟨_, _, _, _, _, h⟩ <;> rw [h]
@[simp] theorem recvData_listening : (recvData d p).listening = p.listening := by
  simp [Panel.listening]
end

/-! ## A transfer (R31) -/

/-- The data bytes of a transfer, one after the other. -/
def recvAll (ds : List Byte) (p : Panel) : Panel := ds.foldl (fun q d => recvData d q) p

@[simp] theorem recvAll_nil (p : Panel) : recvAll [] p = p := rfl

@[simp] theorem recvAll_cons (d : Byte) (ds : List Byte) (p : Panel) :
    recvAll (d :: ds) p = recvAll ds (recvData d p) := rfl

theorem recvAll_append (ds es : List Byte) (p : Panel) :
    recvAll (ds ++ es) p = recvAll es (recvAll ds p) := by
  simp [recvAll]

/-- A data transfer always completes. -/
theorem deliver_data (ds : List Byte) (p : Panel) : deliver (.val .high) ds p = .ok (recvAll ds p) := by
  induction ds generalizing p with
  | nil => rfl
  | cons d ds ih => simp [deliver, recvByte, ih]

/-- A one-byte command transfer is the reception of its byte. -/
@[simp] theorem deliver_command (c : Byte) (p : Panel) : deliver (.val .low) [c] p = recvCommand c p := by
  simp only [deliver, recvByte]
  cases recvCommand c p <;> rfl

section
variable (ds : List Byte) (p : Panel)

@[simp] theorem recvAll_rst : (recvAll ds p).rst = p.rst := by
  induction ds generalizing p with
  | nil => rfl
  | cons d ds ih => simp [ih]
@[simp] theorem recvAll_dc : (recvAll ds p).dc = p.dc := by
  induction ds generalizing p with
  | nil => rfl
  | cons d ds ih => simp [ih]
@[simp] theorem recvAll_bl : (recvAll ds p).bl = p.bl := by
  induction ds generalizing p with
  | nil => rfl
  | cons d ds ih => simp [ih]
@[simp] theorem recvAll_cs : (recvAll ds p).cs = p.cs := by
  induction ds generalizing p with
  | nil => rfl
  | cons d ds ih => simp [ih]
@[simp] theorem recvAll_h : (recvAll ds p).h = p.h := by
  induction ds generalizing p with
  | nil => rfl
  | cons d ds ih => simp [ih]
@[simp] theorem recvAll_vop : (recvAll ds p).vop = p.vop := by
  induction ds generalizing p with
  | nil => rfl
  | cons d ds ih => simp [ih]
@[simp] theorem recvAll_bias : (recvAll ds p).bias = p.bias := by
  induction ds generalizing p with
  | nil => rfl
  | cons d ds ih => simp [ih]
@[simp] theorem recvAll_dmode : (recvAll ds p).dmode = p.dmode := by
  induction ds generalizing p with
  | nil => rfl
  | cons d ds ih => simp [ih]
@[simp] theorem recvAll_ctrlResetDone : (recvAll ds p).ctrlResetDone = p.ctrlResetDone := by
  induction ds generalizing p with
  | nil => rfl
  | cons d ds ih => simp [ih]
@[simp] theorem recvAll_listening : (recvAll ds p).listening = p.listening := by
  induction ds generalizing p with
  | nil => rfl
  | cons d ds ih => simp [ih]
end

/-- A received byte leaves the lines and `ctrl_reset_done` alone. -/
theorem recvByte_lines {dc : Reg Level} {c : Byte} {p q : Panel} (h : recvByte dc c p = .ok q) :
    q.rst = p.rst ∧ q.dc = p.dc ∧ q.bl = p.bl ∧ q.cs = p.cs ∧ q.ctrlResetDone = p.ctrlResetDone := by
  match dc with
  | .val .low =>
    rcases recvCommand_cases h with ⟨_, rfl⟩ | ⟨_, k, _, rfl⟩ <;> simp
  | .val .high => injection h with h; subst h; simp
  | .bot => exact absurd h (by simp [recvByte])

/-- A transfer leaves the lines and `ctrl_reset_done` alone. -/
theorem deliver_lines {dc : Reg Level} {cs : List Byte} {p q : Panel} (h : deliver dc cs p = .ok q) :
    q.rst = p.rst ∧ q.dc = p.dc ∧ q.bl = p.bl ∧ q.cs = p.cs ∧ q.ctrlResetDone = p.ctrlResetDone := by
  induction cs generalizing p with
  | nil => injection h with h; subst h; simp
  | cons c cs ih =>
    simp only [deliver] at h
    split at h
    · rename_i r hr
      have h1 := ih h
      have h2 := recvByte_lines hr
      simp [h1, h2]
    · exact absurd h (by simp)

/-! ## Where data bytes land (R44, R46, R47) -/

/-- The counter after data bytes. -/
theorem recvAll_counter {p : Panel} {y : Fin 6} {x : Fin 84} (ds : List Byte) (hl : p.listening = true)
    (hy : p.ay = .val y) (hx : p.ax = .val x) :
    ∃ y' x', (recvAll ds p).ay = .val y' ∧ (recvAll ds p).ax = .val x' ∧
      ddramIndex y' x' = (ddramIndex y x + ds.length) % 504 := by
  induction ds generalizing p y x with
  | nil =>
    refine ⟨y, x, hy, hx, ?_⟩
    have := ddramIndex_lt y x
    simp [Nat.mod_eq_of_lt this]
  | cons d ds ih =>
    have hs := recvData_stores d hl hy hx
    obtain ⟨y', x', h1, h2, h3⟩ := ih (p := recvData d p) (y := (advance y x).1) (x := (advance y x).2)
      (by simpa using hl) (by rw [hs]) (by rw [hs])
    refine ⟨y', x', by simpa using h1, by simpa using h2, ?_⟩
    rw [h3, ddramIndex_advance]
    simp only [List.length_cons]
    omega

/-- A cell none of the data bytes reaches keeps what it holds. -/
theorem recvAll_read_other {p : Panel} {y : Fin 6} {x : Fin 84} (ds : List Byte) (hl : p.listening = true)
    (hy : p.ay = .val y) (hx : p.ax = .val x) {a : Nat}
    (ha : ∀ j, j < ds.length → a ≠ (ddramIndex y x + j) % 504) :
    Memory.read (recvAll ds p).ddram a = Memory.read p.ddram a := by
  induction ds generalizing p y x with
  | nil => rfl
  | cons d ds ih =>
    have hs := recvData_stores d hl hy hx
    rw [recvAll_cons, ih (p := recvData d p) (y := (advance y x).1) (x := (advance y x).2)
      (by simpa using hl) (by rw [hs]) (by rw [hs])]
    · rw [hs]
      have h0 := ha 0 (by simp)
      have := ddramIndex_lt y x
      rw [Nat.add_zero, Nat.mod_eq_of_lt this] at h0
      exact Memory.read_write_other _ _ h0
    · intro j hj
      have := ha (j + 1) (by simpa using hj)
      rw [ddramIndex_advance]
      omega

/-- A data byte that none of the 503 bytes after it overwrites stands where the counter was. -/
theorem recvAll_read {p : Panel} {y : Fin 6} {x : Fin 84} (ds : List Byte) (hl : p.listening = true)
    (hy : p.ay = .val y) (hx : p.ax = .val x) {j : Nat} (hj : j < ds.length) (hlast : ds.length ≤ j + 504) :
    Memory.read (recvAll ds p).ddram ((ddramIndex y x + j) % 504) = .val ds[j] := by
  induction ds generalizing p y x j with
  | nil => exact absurd hj (by simp)
  | cons d ds ih =>
    have hs := recvData_stores d hl hy hx
    have hl' : (recvData d p).listening = true := by simpa using hl
    have hy' : (recvData d p).ay = .val (advance y x).1 := by rw [hs]
    have hx' : (recvData d p).ax = .val (advance y x).2 := by rw [hs]
    cases j with
    | zero =>
      have := ddramIndex_lt y x
      rw [recvAll_cons, recvAll_read_other ds hl' hy' hx', hs, Nat.add_zero, Nat.mod_eq_of_lt this]
      · simp
      · intro j hj
        simp only [List.length_cons] at hlast
        rw [ddramIndex_advance]
        omega
    | succ j =>
      simp only [List.length_cons] at hj hlast
      have := ih hl' hy' hx' (j := j) (by omega) (by omega)
      rw [ddramIndex_advance] at this
      rw [recvAll_cons, List.getElem_cons_succ, ← this]
      congr 1
      omega

/-! ## Lines and traces -/

/-- Replaying two traces one after the other. -/
theorem replay_append (b : Bool) (es fs : List Event) (p : Panel) :
    replay b (es ++ fs) p = (match replay b es p with
      | .ok q => replay b fs q
      | .error r => .error r) := by
  induction es generalizing p with
  | nil => rfl
  | cons e es ih =>
    simp only [List.cons_append, replay]
    cases applyEvent b e p with
    | ok q => exact ih q
    | error r => rfl

theorem replay_append_ok {b : Bool} {es fs : List Event} {p q : Panel} (h : replay b es p = .ok q) :
    replay b (es ++ fs) p = replay b fs q := by
  rw [replay_append, h]

@[simp] theorem replay_nil (b : Bool) (p : Panel) : replay b [] p = .ok p := rfl

@[simp] theorem replay_pin (b : Bool) (l : Line) (v : Level) (es : List Event) (p : Panel) :
    replay b (.pin l v :: es) p = replay b es (drive b l v p) := rfl

/-- The canonical form survives a byte. -/
theorem recvByte_wf {dc : Reg Level} {c : Byte} {p q : Panel} (h : recvByte dc c p = .ok q)
    (hm : Memory.wf p.ddram = true) : Memory.wf q.ddram = true := by
  match dc with
  | .val .low =>
    rcases recvCommand_cases h with ⟨_, rfl⟩ | ⟨_, k, _, rfl⟩
    · rfl
    · simpa using hm
  | .val .high =>
    injection h with h
    subst h
    rcases recvData_cases c p with ⟨_, h⟩ | ⟨_, _, h⟩ | ⟨_, y, x, _, _, h⟩
    · rw [h]; rfl
    · rw [h]; rfl
    · rw [h]; exact Memory.wf_write _ hm (ddramIndex_lt y x)
  | .bot => exact absurd h (by simp [recvByte])

end Sys2Proof.Machine
end

