-- ==== Sys2Proof/Laws/State.lean ====
section
/-! SUPPORT. One lemma per field per update of the state, so that no proof unfolds a record update. -/

namespace Sys2Proof.Machine

section
variable (s : State) (v : Phase)

@[simp] theorem State.setPhase_cfg : (s.setPhase v).cfg = s.cfg := rfl
@[simp] theorem State.setPhase_phase : (s.setPhase v).phase = v := rfl
@[simp] theorem State.setPhase_inverse : (s.setPhase v).inverse = s.inverse := rfl
@[simp] theorem State.setPhase_backlightOn : (s.setPhase v).backlightOn = s.backlightOn := rfl
@[simp] theorem State.setPhase_busOpen : (s.setPhase v).busOpen = s.busOpen := rfl
@[simp] theorem State.setPhase_panel : (s.setPhase v).panel = s.panel := rfl
@[simp] theorem State.setPhase_out : (s.setPhase v).out = s.out := rfl
@[simp] theorem State.setPhase_statuses : (s.setPhase v).statuses = s.statuses := rfl
@[simp] theorem State.setPhase_returned : (s.setPhase v).returned = s.returned := rfl
@[simp] theorem State.setPhase_inbox : (s.setPhase v).inbox = s.inbox := rfl
@[simp] theorem State.setPhase_transport : (s.setPhase v).transport = s.transport := rfl
end

section
variable (s : State) (v : Bool)

@[simp] theorem State.setInverse_cfg : (s.setInverse v).cfg = s.cfg := rfl
@[simp] theorem State.setInverse_phase : (s.setInverse v).phase = s.phase := rfl
@[simp] theorem State.setInverse_inverse : (s.setInverse v).inverse = v := rfl
@[simp] theorem State.setInverse_backlightOn : (s.setInverse v).backlightOn = s.backlightOn := rfl
@[simp] theorem State.setInverse_busOpen : (s.setInverse v).busOpen = s.busOpen := rfl
@[simp] theorem State.setInverse_panel : (s.setInverse v).panel = s.panel := rfl
@[simp] theorem State.setInverse_out : (s.setInverse v).out = s.out := rfl
@[simp] theorem State.setInverse_statuses : (s.setInverse v).statuses = s.statuses := rfl
@[simp] theorem State.setInverse_returned : (s.setInverse v).returned = s.returned := rfl
@[simp] theorem State.setInverse_inbox : (s.setInverse v).inbox = s.inbox := rfl
@[simp] theorem State.setInverse_transport : (s.setInverse v).transport = s.transport := rfl
end

section
variable (s : State) (v : Bool)

@[simp] theorem State.setBacklightOn_cfg : (s.setBacklightOn v).cfg = s.cfg := rfl
@[simp] theorem State.setBacklightOn_phase : (s.setBacklightOn v).phase = s.phase := rfl
@[simp] theorem State.setBacklightOn_inverse : (s.setBacklightOn v).inverse = s.inverse := rfl
@[simp] theorem State.setBacklightOn_backlightOn : (s.setBacklightOn v).backlightOn = v := rfl
@[simp] theorem State.setBacklightOn_busOpen : (s.setBacklightOn v).busOpen = s.busOpen := rfl
@[simp] theorem State.setBacklightOn_panel : (s.setBacklightOn v).panel = s.panel := rfl
@[simp] theorem State.setBacklightOn_out : (s.setBacklightOn v).out = s.out := rfl
@[simp] theorem State.setBacklightOn_statuses : (s.setBacklightOn v).statuses = s.statuses := rfl
@[simp] theorem State.setBacklightOn_returned : (s.setBacklightOn v).returned = s.returned := rfl
@[simp] theorem State.setBacklightOn_inbox : (s.setBacklightOn v).inbox = s.inbox := rfl
@[simp] theorem State.setBacklightOn_transport : (s.setBacklightOn v).transport = s.transport := rfl
end

section
variable (s : State) (v : Bool)

@[simp] theorem State.setBusOpen_cfg : (s.setBusOpen v).cfg = s.cfg := rfl
@[simp] theorem State.setBusOpen_phase : (s.setBusOpen v).phase = s.phase := rfl
@[simp] theorem State.setBusOpen_inverse : (s.setBusOpen v).inverse = s.inverse := rfl
@[simp] theorem State.setBusOpen_backlightOn : (s.setBusOpen v).backlightOn = s.backlightOn := rfl
@[simp] theorem State.setBusOpen_busOpen : (s.setBusOpen v).busOpen = v := rfl
@[simp] theorem State.setBusOpen_panel : (s.setBusOpen v).panel = s.panel := rfl
@[simp] theorem State.setBusOpen_out : (s.setBusOpen v).out = s.out := rfl
@[simp] theorem State.setBusOpen_statuses : (s.setBusOpen v).statuses = s.statuses := rfl
@[simp] theorem State.setBusOpen_returned : (s.setBusOpen v).returned = s.returned := rfl
@[simp] theorem State.setBusOpen_inbox : (s.setBusOpen v).inbox = s.inbox := rfl
@[simp] theorem State.setBusOpen_transport : (s.setBusOpen v).transport = s.transport := rfl
end

section
variable (s : State) (v : Panel)

@[simp] theorem State.setPanel_cfg : (s.setPanel v).cfg = s.cfg := rfl
@[simp] theorem State.setPanel_phase : (s.setPanel v).phase = s.phase := rfl
@[simp] theorem State.setPanel_inverse : (s.setPanel v).inverse = s.inverse := rfl
@[simp] theorem State.setPanel_backlightOn : (s.setPanel v).backlightOn = s.backlightOn := rfl
@[simp] theorem State.setPanel_busOpen : (s.setPanel v).busOpen = s.busOpen := rfl
@[simp] theorem State.setPanel_panel : (s.setPanel v).panel = v := rfl
@[simp] theorem State.setPanel_out : (s.setPanel v).out = s.out := rfl
@[simp] theorem State.setPanel_statuses : (s.setPanel v).statuses = s.statuses := rfl
@[simp] theorem State.setPanel_returned : (s.setPanel v).returned = s.returned := rfl
@[simp] theorem State.setPanel_inbox : (s.setPanel v).inbox = s.inbox := rfl
@[simp] theorem State.setPanel_transport : (s.setPanel v).transport = s.transport := rfl
end

section
variable (s : State) (v : Returned)

@[simp] theorem State.setReturned_cfg : (s.setReturned v).cfg = s.cfg := rfl
@[simp] theorem State.setReturned_phase : (s.setReturned v).phase = s.phase := rfl
@[simp] theorem State.setReturned_inverse : (s.setReturned v).inverse = s.inverse := rfl
@[simp] theorem State.setReturned_backlightOn : (s.setReturned v).backlightOn = s.backlightOn := rfl
@[simp] theorem State.setReturned_busOpen : (s.setReturned v).busOpen = s.busOpen := rfl
@[simp] theorem State.setReturned_panel : (s.setReturned v).panel = s.panel := rfl
@[simp] theorem State.setReturned_out : (s.setReturned v).out = s.out := rfl
@[simp] theorem State.setReturned_statuses : (s.setReturned v).statuses = s.statuses := rfl
@[simp] theorem State.setReturned_returned : (s.setReturned v).returned = v := rfl
@[simp] theorem State.setReturned_inbox : (s.setReturned v).inbox = s.inbox := rfl
@[simp] theorem State.setReturned_transport : (s.setReturned v).transport = s.transport := rfl
end

section
variable (s : State) (v : List Input)

@[simp] theorem State.setInbox_cfg : (s.setInbox v).cfg = s.cfg := rfl
@[simp] theorem State.setInbox_phase : (s.setInbox v).phase = s.phase := rfl
@[simp] theorem State.setInbox_inverse : (s.setInbox v).inverse = s.inverse := rfl
@[simp] theorem State.setInbox_backlightOn : (s.setInbox v).backlightOn = s.backlightOn := rfl
@[simp] theorem State.setInbox_busOpen : (s.setInbox v).busOpen = s.busOpen := rfl
@[simp] theorem State.setInbox_panel : (s.setInbox v).panel = s.panel := rfl
@[simp] theorem State.setInbox_out : (s.setInbox v).out = s.out := rfl
@[simp] theorem State.setInbox_statuses : (s.setInbox v).statuses = s.statuses := rfl
@[simp] theorem State.setInbox_returned : (s.setInbox v).returned = s.returned := rfl
@[simp] theorem State.setInbox_inbox : (s.setInbox v).inbox = v := rfl
@[simp] theorem State.setInbox_transport : (s.setInbox v).transport = s.transport := rfl
end

section
variable (s : State) (v : List CallEnd)

@[simp] theorem State.setTransport_cfg : (s.setTransport v).cfg = s.cfg := rfl
@[simp] theorem State.setTransport_phase : (s.setTransport v).phase = s.phase := rfl
@[simp] theorem State.setTransport_inverse : (s.setTransport v).inverse = s.inverse := rfl
@[simp] theorem State.setTransport_backlightOn : (s.setTransport v).backlightOn = s.backlightOn := rfl
@[simp] theorem State.setTransport_busOpen : (s.setTransport v).busOpen = s.busOpen := rfl
@[simp] theorem State.setTransport_panel : (s.setTransport v).panel = s.panel := rfl
@[simp] theorem State.setTransport_out : (s.setTransport v).out = s.out := rfl
@[simp] theorem State.setTransport_statuses : (s.setTransport v).statuses = s.statuses := rfl
@[simp] theorem State.setTransport_returned : (s.setTransport v).returned = s.returned := rfl
@[simp] theorem State.setTransport_inbox : (s.setTransport v).inbox = s.inbox := rfl
@[simp] theorem State.setTransport_transport : (s.setTransport v).transport = v := rfl
end

section
variable (s : State) (v : Event)

@[simp] theorem State.record_cfg : (s.record v).cfg = s.cfg := rfl
@[simp] theorem State.record_phase : (s.record v).phase = s.phase := rfl
@[simp] theorem State.record_inverse : (s.record v).inverse = s.inverse := rfl
@[simp] theorem State.record_backlightOn : (s.record v).backlightOn = s.backlightOn := rfl
@[simp] theorem State.record_busOpen : (s.record v).busOpen = s.busOpen := rfl
@[simp] theorem State.record_panel : (s.record v).panel = s.panel := rfl
@[simp] theorem State.record_out : (s.record v).out = s.out ++ [v] := rfl
@[simp] theorem State.record_statuses : (s.record v).statuses = s.statuses := rfl
@[simp] theorem State.record_returned : (s.record v).returned = s.returned := rfl
@[simp] theorem State.record_inbox : (s.record v).inbox = s.inbox := rfl
@[simp] theorem State.record_transport : (s.record v).transport = s.transport := rfl
end

section
variable (s : State) (v : Status)

@[simp] theorem State.report_cfg : (s.report v).cfg = s.cfg := rfl
@[simp] theorem State.report_phase : (s.report v).phase = s.phase := rfl
@[simp] theorem State.report_inverse : (s.report v).inverse = s.inverse := rfl
@[simp] theorem State.report_backlightOn : (s.report v).backlightOn = s.backlightOn := rfl
@[simp] theorem State.report_busOpen : (s.report v).busOpen = s.busOpen := rfl
@[simp] theorem State.report_panel : (s.report v).panel = s.panel := rfl
@[simp] theorem State.report_out : (s.report v).out = s.out := rfl
@[simp] theorem State.report_statuses : (s.report v).statuses = s.statuses ++ [v] := rfl
@[simp] theorem State.report_returned : (s.report v).returned = s.returned := rfl
@[simp] theorem State.report_inbox : (s.report v).inbox = s.inbox := rfl
@[simp] theorem State.report_transport : (s.report v).transport = s.transport := rfl
end

end Sys2Proof.Machine
end

