-- ==== Sys2Proof/Laws/Flow.lean ====
section
/-! SUPPORT. What a sequence of actions can do, said once: if it is done, fails or hangs, then what. Every
operation is such a sequence. -/

namespace Sys2Proof.Machine

/-- The events among actions. -/
def eventsOf : List Action → List Event
  | [] => []
  | .emit e :: as => e :: eventsOf as
  | .setPhase _ :: as => eventsOf as
  | .setInverse _ :: as => eventsOf as
  | .setBacklightOn _ :: as => eventsOf as
  | .setBusOpen _ :: as => eventsOf as

/-- The flag writes among actions. -/
def flagsOf : List Action → State → State
  | [], s => s
  | .emit _ :: as, s => flagsOf as s
  | .setPhase v :: as, s => flagsOf as (s.setPhase v)
  | .setInverse v :: as, s => flagsOf as (s.setInverse v)
  | .setBacklightOn v :: as, s => flagsOf as (s.setBacklightOn v)
  | .setBusOpen v :: as, s => flagsOf as (s.setBusOpen v)

/-- The state after actions whose events all landed: the flag writes, the panel, the longer trace, the
shorter tape. -/
def landed (as : List Action) (s : State) (p : Panel) : State :=
  { flagsOf as s with
    panel := p
    out := s.out ++ eventsOf as
    transport := s.transport.drop (eventsOf as).length }

@[simp] theorem eventsOf_append (as bs : List Action) : eventsOf (as ++ bs) = eventsOf as ++ eventsOf bs := by
  induction as with
  | nil => rfl
  | cons a as ih => cases a <;> simp [eventsOf, ih]

@[simp] theorem eventsOf_emitAll (es : List Event) : eventsOf (emitAll es) = es := by
  induction es with
  | nil => rfl
  | cons e es ih => simpa [emitAll, eventsOf] using ih

@[simp] theorem flagsOf_append (as bs : List Action) (s : State) :
    flagsOf (as ++ bs) s = flagsOf bs (flagsOf as s) := by
  induction as generalizing s with
  | nil => rfl
  | cons a as ih => cases a <;> simp [flagsOf, ih]

@[simp] theorem flagsOf_emitAll (es : List Event) (s : State) : flagsOf (emitAll es) s = s := by
  induction es with
  | nil => rfl
  | cons e es ih => simpa [emitAll, flagsOf] using ih

section
variable (as : List Action) (s : State)

@[simp] theorem flagsOf_cfg : (flagsOf as s).cfg = s.cfg := by
  induction as generalizing s with
  | nil => rfl
  | cons a as ih => cases a <;> simp [flagsOf, ih]

@[simp] theorem flagsOf_panel : (flagsOf as s).panel = s.panel := by
  induction as generalizing s with
  | nil => rfl
  | cons a as ih => cases a <;> simp [flagsOf, ih]

@[simp] theorem flagsOf_out : (flagsOf as s).out = s.out := by
  induction as generalizing s with
  | nil => rfl
  | cons a as ih => cases a <;> simp [flagsOf, ih]

@[simp] theorem flagsOf_statuses : (flagsOf as s).statuses = s.statuses := by
  induction as generalizing s with
  | nil => rfl
  | cons a as ih => cases a <;> simp [flagsOf, ih]

@[simp] theorem flagsOf_returned : (flagsOf as s).returned = s.returned := by
  induction as generalizing s with
  | nil => rfl
  | cons a as ih => cases a <;> simp [flagsOf, ih]

@[simp] theorem flagsOf_inbox : (flagsOf as s).inbox = s.inbox := by
  induction as generalizing s with
  | nil => rfl
  | cons a as ih => cases a <;> simp [flagsOf, ih]

@[simp] theorem flagsOf_transport : (flagsOf as s).transport = s.transport := by
  induction as generalizing s with
  | nil => rfl
  | cons a as ih => cases a <;> simp [flagsOf, ih]

@[simp] theorem landed_cfg (p : Panel) : (landed as s p).cfg = s.cfg := by simp [landed]
@[simp] theorem landed_statuses (p : Panel) : (landed as s p).statuses = s.statuses := by simp [landed]
@[simp] theorem landed_returned (p : Panel) : (landed as s p).returned = s.returned := by simp [landed]
@[simp] theorem landed_inbox (p : Panel) : (landed as s p).inbox = s.inbox := by simp [landed]
@[simp] theorem landed_phase (p : Panel) : (landed as s p).phase = (flagsOf as s).phase := rfl
@[simp] theorem landed_inverse (p : Panel) : (landed as s p).inverse = (flagsOf as s).inverse := rfl
@[simp] theorem landed_backlightOn (p : Panel) : (landed as s p).backlightOn = (flagsOf as s).backlightOn := rfl
@[simp] theorem landed_busOpen (p : Panel) : (landed as s p).busOpen = (flagsOf as s).busOpen := rfl
@[simp] theorem landed_panel (p : Panel) : (landed as s p).panel = p := rfl
@[simp] theorem landed_out (p : Panel) : (landed as s p).out = s.out ++ eventsOf as := rfl
@[simp] theorem landed_transport (p : Panel) :
    (landed as s p).transport = s.transport.drop (eventsOf as).length := rfl
end

/-- The actions before an event do not look at the panel, the trace or the tape. -/
theorem flagsOf_override (as : List Action) (s : State) (p : Panel) (o : List Event) (tr : List CallEnd) :
    flagsOf as { s with panel := p, out := o, transport := tr } =
      { flagsOf as s with panel := p, out := o, transport := tr } := by
  induction as generalizing s with
  | nil => rfl
  | cons a as ih =>
    cases a with
    | emit e => simpa [flagsOf] using ih s
    | setPhase v => simpa [flagsOf, State.setPhase] using ih (s.setPhase v)
    | setInverse v => simpa [flagsOf, State.setInverse] using ih (s.setInverse v)
    | setBacklightOn v => simpa [flagsOf, State.setBacklightOn] using ih (s.setBacklightOn v)
    | setBusOpen v => simpa [flagsOf, State.setBusOpen] using ih (s.setBusOpen v)

/-- The state after one landed event. -/
def afterEmit (e : Event) (s : State) (p : Panel) : State :=
  { s with panel := p, out := s.out ++ [e], transport := s.transport.tail }

theorem landed_emit (e : Event) (as : List Action) (s : State) (p q : Panel) :
    landed as (afterEmit e s p) q = landed (.emit e :: as) s q := by
  simp only [landed, afterEmit, flagsOf_override, eventsOf, flagsOf, List.append_assoc,
    List.singleton_append, List.length_cons]
  congr 1
  cases s.transport <;> simp

/-- Everything one capability call can do. -/
theorem emit_cases (e : Event) (s : State) :
    (∃ p, applyEvent s.cfg.resetPulseOk e s.panel = .ok p ∧ emit e s = .done (afterEmit e s p) ∧
      (s.transport = [] ∨ ∃ rest, s.transport = .succeeds :: rest)) ∨
    (∃ r, applyEvent s.cfg.resetPulseOk e s.panel = .error r ∧ emit e s = .refused r ∧
      (s.transport = [] ∨ ∃ rest, s.transport = .succeeds :: rest)) ∨
    (∃ n rest, s.transport = .fails n :: rest ∧ emit e s = .failed (s.setTransport rest) n) ∨
    (∃ rest, s.transport = .hangs :: rest ∧ emit e s = .hung) := by
  match ht : s.transport with
  | [] =>
    cases ha : applyEvent s.cfg.resetPulseOk e s.panel with
    | ok p =>
      refine .inl ⟨p, rfl, ?_, .inl rfl⟩
      simp [emit, ht, land, ha, afterEmit, State.setPanel, State.record]
    | error r => exact .inr (.inl ⟨r, rfl, by simp [emit, ht, land, ha], .inl rfl⟩)
  | .succeeds :: rest =>
    cases ha : applyEvent s.cfg.resetPulseOk e s.panel with
    | ok p =>
      refine .inl ⟨p, rfl, ?_, .inr ⟨rest, rfl⟩⟩
      simp [emit, ht, land, ha, afterEmit, State.setPanel, State.record, State.setTransport]
    | error r => exact .inr (.inl ⟨r, rfl, by simp [emit, ht, land, ha], .inr ⟨rest, rfl⟩⟩)
  | .fails n :: rest => exact .inr (.inr (.inl ⟨n, rest, rfl, by simp [emit, ht]⟩))
  | .hangs :: rest => exact .inr (.inr (.inr ⟨rest, rfl, by simp [emit, ht]⟩))

/-- A flag write is done, and the rest goes on from the written state. -/
theorem runActions_flag {a : Action} (as : List Action) (s : State) (h : eventsOf [a] = []) :
    runActions (a :: as) s = runActions as (flagsOf [a] s) := by
  cases a <;> first | rfl | (simp [eventsOf] at h)

theorem landed_flag {a : Action} (as : List Action) (s : State) (p : Panel) (h : eventsOf [a] = []) :
    landed as (flagsOf [a] s) p = landed (a :: as) s p := by
  cases a <;> first | rfl | (simp [eventsOf] at h)

/-- If actions are done, their events were replayed on the panel and nothing else happened but the flag
writes. -/
theorem runActions_done {as : List Action} {s t : State} (h : runActions as s = .done t) :
    ∃ p, replay s.cfg.resetPulseOk (eventsOf as) s.panel = .ok p ∧ t = landed as s p := by
  induction as generalizing s with
  | nil =>
    injection h with h
    exact ⟨s.panel, rfl, by simp [landed, eventsOf, flagsOf, h]⟩
  | cons a as ih =>
    cases a with
    | emit e =>
      simp only [runActions, perform] at h
      rcases emit_cases e s with ⟨p, ha, he, _⟩ | ⟨r, _, he, _⟩ | ⟨n, rest, _, he⟩ | ⟨rest, _, he⟩ <;>
        rw [he] at h
      · obtain ⟨q, hq, ht⟩ := ih h
        refine ⟨q, ?_, by rw [ht, landed_emit]⟩
        simpa [eventsOf, replay, ha, afterEmit] using hq
      all_goals exact absurd h (by simp)
    | setPhase v => rw [runActions_flag _ _ rfl] at h; obtain ⟨q, hq, ht⟩ := ih h; exact ⟨q, hq, ht⟩
    | setInverse v => rw [runActions_flag _ _ rfl] at h; obtain ⟨q, hq, ht⟩ := ih h; exact ⟨q, hq, ht⟩
    | setBacklightOn v => rw [runActions_flag _ _ rfl] at h; obtain ⟨q, hq, ht⟩ := ih h; exact ⟨q, hq, ht⟩
    | setBusOpen v => rw [runActions_flag _ _ rfl] at h; obtain ⟨q, hq, ht⟩ := ih h; exact ⟨q, hq, ht⟩

/-- If actions fail, a call failed and exactly the actions before it happened (R165). -/
theorem runActions_failed {as : List Action} {s t : State} {n : Nat} (h : runActions as s = .failed t n) :
    ∃ as₁ e as₂ rest p, as = as₁ ++ .emit e :: as₂ ∧
      s.transport.drop (eventsOf as₁).length = .fails n :: rest ∧
      replay s.cfg.resetPulseOk (eventsOf as₁) s.panel = .ok p ∧
      t = (landed as₁ s p).setTransport rest := by
  induction as generalizing s with
  | nil => exact absurd h (by simp [runActions])
  | cons a as ih =>
    have flag : eventsOf [a] = [] → ∃ as₁ e as₂ rest p, a :: as = as₁ ++ .emit e :: as₂ ∧
        s.transport.drop (eventsOf as₁).length = .fails n :: rest ∧
        replay s.cfg.resetPulseOk (eventsOf as₁) s.panel = .ok p ∧
        t = (landed as₁ s p).setTransport rest := by
      intro ha
      rw [runActions_flag _ _ ha] at h
      obtain ⟨as₁, e, as₂, rest, p, h1, h2, h3, h4⟩ := ih h
      refine ⟨a :: as₁, e, as₂, rest, p, by simp [h1], ?_, ?_, ?_⟩
      · cases a <;> first | (simp [eventsOf] at ha; done) | exact h2
      · cases a <;> first | (simp [eventsOf] at ha; done) | exact h3
      · rw [h4, landed_flag _ _ _ ha]
    cases a with
    | emit e =>
      simp only [runActions, perform] at h
      rcases emit_cases e s with ⟨p, ha, he, ht⟩ | ⟨r, _, he, _⟩ | ⟨m, rest, ht, he⟩ | ⟨rest, _, he⟩ <;>
        rw [he] at h
      · obtain ⟨as₁, e', as₂, rest, q, h1, h2, h3, h4⟩ := ih h
        refine ⟨.emit e :: as₁, e', as₂, rest, q, by simp [h1], ?_, ?_, ?_⟩
        · simp only [afterEmit] at h2
          simp only [eventsOf, List.length_cons]
          rcases ht with ht | ⟨r, ht⟩
          · simp [ht] at h2
          · simpa [ht] using h2
        · simpa [eventsOf, replay, ha, afterEmit] using h3
        · rw [h4, landed_emit]
      · exact absurd h (by simp)
      · injection h with h1 h2
        subst h1 h2
        refine ⟨[], e, as, rest, s.panel, rfl, by simpa [eventsOf] using ht, rfl, ?_⟩
        simp [landed, eventsOf, flagsOf, State.setTransport]
      · exact absurd h (by simp)
    | setPhase v => exact flag rfl
    | setInverse v => exact flag rfl
    | setBacklightOn v => exact flag rfl
    | setBusOpen v => exact flag rfl

/-- Where the calls that actions make succeed and their events have a meaning, the actions are done. -/
theorem runActions_succeed {as : List Action} {s : State} {p : Panel}
    (ht : (s.transport.take (eventsOf as).length).all (fun c => decide (c = .succeeds)) = true)
    (hp : replay s.cfg.resetPulseOk (eventsOf as) s.panel = .ok p) :
    runActions as s = .done (landed as s p) := by
  induction as generalizing s with
  | nil =>
    injection hp with hp
    subst hp
    simp [runActions, landed, eventsOf, flagsOf]
  | cons a as ih =>
    cases a with
    | emit e =>
      simp only [eventsOf, replay] at hp
      rcases emit_cases e s with ⟨q, ha, he, hd⟩ | ⟨r, ha, _, _⟩ | ⟨m, rest, hf, _⟩ | ⟨rest, hf, _⟩
      · rw [ha] at hp
        simp only [runActions, perform, he]
        rw [ih (s := afterEmit e s q) ?_ hp, landed_emit]
        simp only [eventsOf, List.length_cons] at ht
        rcases hd with hd | ⟨r, hd⟩
        · simp [afterEmit, hd]
        · rw [hd] at ht; simpa [afterEmit, hd] using ht
      · rw [ha] at hp; exact absurd hp (by simp)
      · rw [hf] at ht; simp [eventsOf] at ht
      · rw [hf] at ht; simp [eventsOf] at ht
    | setPhase v => rw [runActions_flag _ _ rfl]; exact ih ht hp
    | setInverse v => rw [runActions_flag _ _ rfl]; exact ih ht hp
    | setBacklightOn v => rw [runActions_flag _ _ rfl]; exact ih ht hp
    | setBusOpen v => rw [runActions_flag _ _ rfl]; exact ih ht hp

/-- `runActions_succeed` where the transport is reliable. -/
theorem runActions_reliable {as : List Action} {s : State} {p : Panel} (ht : s.transport = [])
    (hp : replay s.cfg.resetPulseOk (eventsOf as) s.panel = .ok p) :
    runActions as s = .done (landed as s p) :=
  runActions_succeed (by simp [ht]) hp

/-- A failing call ends the actions at its event: what came before it happened (R165). -/
theorem runActions_fails_at {as₁ as₂ : List Action} {e : Event} {s : State} {p : Panel} {n : Nat}
    {rest : List CallEnd}
    (ht : s.transport = List.replicate (eventsOf as₁).length .succeeds ++ .fails n :: rest)
    (hp : replay s.cfg.resetPulseOk (eventsOf as₁) s.panel = .ok p) :
    runActions (as₁ ++ .emit e :: as₂) s = .failed ((landed as₁ s p).setTransport rest) n := by
  induction as₁ generalizing s with
  | nil =>
    injection hp with hp
    subst hp
    simp only [eventsOf, List.length_nil, List.replicate_zero, List.nil_append] at ht
    simp [runActions, perform, emit, ht, landed, eventsOf, flagsOf, State.setTransport]
  | cons a as₁ ih =>
    cases a with
    | emit e' =>
      simp only [eventsOf, List.length_cons, List.replicate_succ, List.cons_append] at ht
      simp only [eventsOf, replay] at hp
      rcases emit_cases e' s with ⟨q, ha, he, _⟩ | ⟨r, ha, _, _⟩ | ⟨m, r, hf, _⟩ | ⟨r, hf, _⟩
      · rw [ha] at hp
        simp only [List.cons_append, runActions, perform, he]
        rw [ih (s := afterEmit e' s q) (by simp [afterEmit, ht]) hp, landed_emit]
      · rw [ha] at hp; exact absurd hp (by simp)
      · rw [hf] at ht; exact absurd ht (by simp)
      · rw [hf] at ht; exact absurd ht (by simp)
    | setPhase v => rw [List.cons_append, runActions_flag _ _ rfl]; exact ih ht hp
    | setInverse v => rw [List.cons_append, runActions_flag _ _ rfl]; exact ih ht hp
    | setBacklightOn v => rw [List.cons_append, runActions_flag _ _ rfl]; exact ih ht hp
    | setBusOpen v => rw [List.cons_append, runActions_flag _ _ rfl]; exact ih ht hp

/-- A call that never returns leaves the actions without an end (R191). -/
theorem runActions_hangs_at {as₁ as₂ : List Action} {e : Event} {s : State} {p : Panel}
    {rest : List CallEnd}
    (ht : s.transport = List.replicate (eventsOf as₁).length .succeeds ++ .hangs :: rest)
    (hp : replay s.cfg.resetPulseOk (eventsOf as₁) s.panel = .ok p) :
    runActions (as₁ ++ .emit e :: as₂) s = .hung := by
  induction as₁ generalizing s with
  | nil =>
    simp only [eventsOf, List.length_nil, List.replicate_zero, List.nil_append] at ht
    simp [runActions, perform, emit, ht]
  | cons a as₁ ih =>
    cases a with
    | emit e' =>
      simp only [eventsOf, List.length_cons, List.replicate_succ, List.cons_append] at ht
      simp only [eventsOf, replay] at hp
      rcases emit_cases e' s with ⟨q, ha, he, _⟩ | ⟨r, ha, _, _⟩ | ⟨m, r, hf, _⟩ | ⟨r, hf, _⟩
      · rw [ha] at hp
        simp only [List.cons_append, runActions, perform, he]
        rw [ih (s := afterEmit e' s q) (by simp [afterEmit, ht]) hp]
      · rw [ha] at hp; exact absurd hp (by simp)
      · rw [hf] at ht; exact absurd ht (by simp)
      · rw [hf] at ht; exact absurd ht (by simp)
    | setPhase v => rw [List.cons_append, runActions_flag _ _ rfl]; exact ih ht hp
    | setInverse v => rw [List.cons_append, runActions_flag _ _ rfl]; exact ih ht hp
    | setBacklightOn v => rw [List.cons_append, runActions_flag _ _ rfl]; exact ih ht hp
    | setBusOpen v => rw [List.cons_append, runActions_flag _ _ rfl]; exact ih ht hp

/-- Events that have no meaning at the controller refuse the run, where the calls up to there succeed (R68). -/
theorem runActions_refused_at {as : List Action} {s : State} {k : Nat} {rest : List CallEnd} {r : Refusal}
    (ht : s.transport = List.replicate k .succeeds ++ rest)
    (hp : replay s.cfg.resetPulseOk ((eventsOf as).take k) s.panel = .error r) :
    runActions as s = .refused r := by
  induction as generalizing s k with
  | nil => exact absurd hp (by simp [eventsOf])
  | cons a as ih =>
    cases a with
    | emit e =>
      cases k with
      | zero => exact absurd hp (by simp)
      | succ k =>
        simp only [List.replicate_succ, List.cons_append] at ht
        simp only [eventsOf, List.take_succ_cons, replay] at hp
        rcases emit_cases e s with ⟨q, ha, he, _⟩ | ⟨r', ha, he, _⟩ | ⟨m, rest', hf, _⟩ | ⟨rest', hf, _⟩
        · rw [ha] at hp
          simp only [runActions, perform, he]
          exact ih (s := afterEmit e s q) (k := k) (by simp [afterEmit, ht]) hp
        · rw [ha] at hp
          injection hp with hp
          simp only [runActions, perform, he, hp]
        · rw [hf] at ht; exact absurd ht (by simp)
        · rw [hf] at ht; exact absurd ht (by simp)
    | setPhase v => rw [runActions_flag _ _ rfl]; exact ih ht hp
    | setInverse v => rw [runActions_flag _ _ rfl]; exact ih ht hp
    | setBacklightOn v => rw [runActions_flag _ _ rfl]; exact ih ht hp
    | setBusOpen v => rw [runActions_flag _ _ rfl]; exact ih ht hp

/-- Where actions make a k-th call, they split there: before it stand the first k events. -/
theorem split_at_event {as : List Action} {k : Nat} (hk : k < (eventsOf as).length) :
    ∃ as₁ e as₂, as = as₁ ++ .emit e :: as₂ ∧ eventsOf as₁ = (eventsOf as).take k := by
  induction as generalizing k with
  | nil => exact absurd hk (by simp [eventsOf])
  | cons a as ih =>
    have flag : k < (eventsOf as).length → (∀ x, eventsOf (a :: x) = eventsOf x) →
        ∃ as₁ e as₂, a :: as = as₁ ++ .emit e :: as₂ ∧ eventsOf as₁ = (eventsOf (a :: as)).take k := by
      intro h h2
      obtain ⟨as₁, e, as₂, h3, h4⟩ := ih h
      exact ⟨a :: as₁, e, as₂, by rw [h3]; rfl, by rw [h2, h2, h4]⟩
    cases a with
    | emit e =>
      cases k with
      | zero => exact ⟨[], e, as, rfl, rfl⟩
      | succ k =>
        obtain ⟨as₁, e', as₂, h3, h4⟩ := ih (k := k) (by simpa [eventsOf] using hk)
        exact ⟨.emit e :: as₁, e', as₂, by rw [h3]; rfl, by simp [eventsOf, h4]⟩
    | setPhase v => exact flag hk (fun _ => rfl)
    | setInverse v => exact flag hk (fun _ => rfl)
    | setBacklightOn v => exact flag hk (fun _ => rfl)
    | setBusOpen v => exact flag hk (fun _ => rfl)

/-! ## How the endings read -/

/-- An accepted operation runs its body (R130). -/
theorem accept_ready {s : State} (b : Host.Outcome State Fault Refusal) (h : s.phase = .ready) :
    accept s b = b := by
  simp [accept, h]

/-- Before `Ready` every body is turned away (R130). -/
theorem accept_notReady {s : State} (b : Host.Outcome State Fault Refusal) (h : s.phase ≠ .ready) :
    accept s b = .next (s.report .notReady) := by
  simp [accept, h, endWith]

/-- What a concluded flow that answers a next state was. -/
theorem conclude_next {f : Flow} {t : State} (h : conclude f = .next t) :
    (∃ u, f = .done u ∧ t = u.report .ok) ∨ (∃ u n, f = .failed u n ∧ t = u.report (.transportFault n)) := by
  cases f with
  | done u => injection h with h; exact .inl ⟨u, rfl, h.symm⟩
  | failed u n => injection h with h; exact .inr ⟨u, n, rfl, h.symm⟩
  | hung => exact absurd h (by simp [conclude])
  | refused r => exact absurd h (by simp [conclude])

/-- What a concluded REINIT that answers a next state was. -/
theorem concludeReinit_next {f : Flow} {t : State} (h : concludeReinit f = .next t) :
    (∃ u, f = .done u ∧ t = u.report .ok) ∨
    (∃ u n, f = .failed u n ∧ t = (u.setPhase .uninitialized).report (.transportFault n)) := by
  cases f with
  | done u => injection h with h; exact .inl ⟨u, rfl, h.symm⟩
  | failed u n => injection h with h; exact .inr ⟨u, n, rfl, h.symm⟩
  | hung => exact absurd h (by simp [concludeReinit])
  | refused r => exact absurd h (by simp [concludeReinit])

/-- What a concluded stand-alone WRITE that answers a next state was. -/
theorem concludeWrite_next {f : Flow} {t : State} (h : concludeWrite f = .next t) :
    f = .done t ∨ (∃ u n, f = .failed u n ∧ t = u.report (.transportFault n)) := by
  cases f with
  | done u => injection h with h; exact .inl (by rw [h])
  | failed u n => injection h with h; exact .inr ⟨u, n, rfl, h.symm⟩
  | hung => exact absurd h (by simp [concludeWrite])
  | refused r => exact absurd h (by simp [concludeWrite])

end Sys2Proof.Machine
end

