-- ==== Sys2Proof/Laws/Frames.lean ====
section
/-! SUPPORT. What a frame of the write primitive does to the panel, and the frames each operation is made
of. -/

namespace Sys2Proof.Machine

/-- The panel with the line selected and the mode set, before the transfer of a frame. -/
def selected (soft : Bool) (dc : Level) (p : Panel) : Panel :=
  { p with cs := if soft then .val .low else p.cs, dc := .val dc }

/-- The panel with the line released, after the transfer of a frame. -/
def deselected (soft : Bool) (p : Panel) : Panel := { p with cs := if soft then .val .high else p.cs }

theorem writeEvents_eq (soft inverse : Bool) (mode : Mode) (payload : List Byte) :
    writeEvents soft inverse mode payload = frameOf soft mode.level (txBytes inverse mode payload) := by
  cases soft <;> rfl

theorem sendCmdEvents_eq (soft inverse : Bool) (c : Byte) :
    sendCmdEvents soft inverse c = frameOf soft .low [c] := by
  cases soft <;> rfl

theorem commandEvents_eq (soft inverse : Bool) (cs : List Byte) :
    commandEvents soft inverse cs = cs.flatMap (fun c => frameOf soft .low [c]) := by
  unfold commandEvents
  congr 1
  funext c
  exact sendCmdEvents_eq soft inverse c

/-- A frame on the panel: select, transfer, deselect. -/
theorem replay_frame (b soft : Bool) (dc : Level) (tx : List Byte) (p : Panel) :
    replay b (frameOf soft dc tx) p =
      (match deliver (.val dc) tx (selected soft dc p) with
        | .ok q => .ok (deselected soft q)
        | .error r => .error r) := by
  cases soft <;> simp only [frameOf, replay, applyEvent, drive, selected, deselected, if_true, if_false,
      Bool.false_eq_true] <;>
    split <;> simp_all

/-- A data frame always completes. -/
theorem replay_dataFrame (b soft : Bool) (tx : List Byte) (p : Panel) :
    replay b (frameOf soft .high tx) p =
      .ok (deselected soft (recvAll tx (selected soft .high p))) := by
  rw [replay_frame, deliver_data]

/-- A one-byte command frame is the reception of its byte. -/
theorem replay_commandFrame (b soft : Bool) (c : Byte) (p : Panel) :
    replay b (frameOf soft .low [c]) p =
      (match recvCommand c (selected soft .low p) with
        | .ok q => .ok (deselected soft q)
        | .error r => .error r) := by
  rw [replay_frame, deliver_command]

section
variable (soft : Bool) (dc : Level) (p : Panel)

@[simp] theorem selected_listening : (selected soft dc p).listening = p.listening := rfl
@[simp] theorem selected_h : (selected soft dc p).h = p.h := rfl
@[simp] theorem selected_ay : (selected soft dc p).ay = p.ay := rfl
@[simp] theorem selected_ax : (selected soft dc p).ax = p.ax := rfl
@[simp] theorem selected_ddram : (selected soft dc p).ddram = p.ddram := rfl
@[simp] theorem selected_dc : (selected soft dc p).dc = .val dc := rfl
@[simp] theorem deselected_listening : (deselected soft p).listening = p.listening := rfl
@[simp] theorem deselected_h : (deselected soft p).h = p.h := rfl
@[simp] theorem deselected_ay : (deselected soft p).ay = p.ay := rfl
@[simp] theorem deselected_ax : (deselected soft p).ax = p.ax := rfl
@[simp] theorem deselected_ddram : (deselected soft p).ddram = p.ddram := rfl
@[simp] theorem deselected_dc : (deselected soft p).dc = p.dc := rfl
end

/-- A command frame to a listening controller that has a meaning for it. -/
theorem replay_command {soft : Bool} (b : Bool) {c : Byte} {k : Command} {p : Panel}
    (hl : p.listening = true) (hk : decodeCommand p.h c = some k) :
    replay b (frameOf soft .low [c]) p =
      .ok (deselected soft (controllerSide k (selected soft .low p))) := by
  rw [replay_commandFrame, recvCommand_listening (p := selected soft .low p) hl hk]

/-- A command frame to a controller that does not listen. -/
theorem replay_command_deaf {soft : Bool} (b : Bool) {c : Byte} {p : Panel} (hl : p.listening = false) :
    replay b (frameOf soft .low [c]) p = .ok (deselected soft (selected soft .low p).lost) := by
  rw [replay_commandFrame, recvCommand_deaf (p := selected soft .low p) hl]

theorem textCells_eq (text : List Nat) : textCells text = text.filterMap cell := by
  induction text with
  | nil => rfl
  | cons ch text ih =>
    simp only [textCells, List.filterMap_cons]
    cases cell ch <;> simp [ih]

/-- Every cell is six bytes (R84). -/
theorem cell_length {ch : Nat} {c : List Byte} (h : cell ch = some c) : c.length = 6 := by
  unfold cell glyph at h
  split at h
  · exact absurd h (by simp)
  · rename_i hg
    injection h with h
    split at hg
    · exact absurd hg (by simp)
    · injection hg with hg; subst hg; subst h; rfl

theorem cursorInRange_iff (bank column : Int) :
    cursorInRange bank column = true ↔ 1 ≤ bank ∧ bank ≤ 6 ∧ 1 ≤ column ∧ column ≤ 14 := by
  simp only [cursorInRange, Bool.and_eq_true, decide_eq_true_eq]
  omega

theorem contrastLegal_iff (contrast : Int) :
    contrastLegal contrast = true ↔ 0 ≤ contrast ∧ contrast ≤ 127 := by
  simp [contrastLegal]

/-- The encoder's SETY byte is read as its bank (R106). -/
theorem decode_encSety {bank : Int} (h0 : 1 ≤ bank) (h1 : bank ≤ 6) :
    ∃ y : Fin 6, (y.val : Int) = bank - 1 ∧ decodeCommand (.val .basic) (encSety bank) = some (.sety y) := by
  refine ⟨⟨(bank - 1).toNat, by omega⟩, by simp only; omega, ?_⟩
  interval_cases bank <;> rfl

/-- The encoder's SETX byte is read as its pixel column (R107). -/
theorem decode_encSetx {column : Int} (h0 : 1 ≤ column) (h1 : column ≤ 14) :
    ∃ x : Fin 84, (x.val : Int) = (column - 1) * 6 ∧
      decodeCommand (.val .basic) (encSetx column) = some (.setx x) := by
  refine ⟨⟨((column - 1) * 6).toNat, by omega⟩, by simp only; omega, ?_⟩
  interval_cases column <;> rfl

/-- The encoder's SETVOP byte is read as its contrast (R101). -/
theorem decode_encSetvop {contrast : Int} (h0 : 0 ≤ contrast) (h1 : contrast ≤ 127) :
    decodeCommand (.val .extended) (encSetvop contrast) = some (.setvop (BitVec.ofInt 7 contrast)) := by
  interval_cases contrast <;> decide

/-- Data bytes change the counter and the RAM only. -/
theorem recvAll_eq (ds : List Byte) (p : Panel) :
    recvAll ds p =
      { p with ay := (recvAll ds p).ay, ax := (recvAll ds p).ax, ddram := (recvAll ds p).ddram } := by
  have h : ∀ q : Panel, q.rst = p.rst → q.dc = p.dc → q.bl = p.bl → q.cs = p.cs → q.h = p.h →
      q.vop = p.vop → q.bias = p.bias → q.dmode = p.dmode → q.ctrlResetDone = p.ctrlResetDone →
      q = { p with ay := q.ay, ax := q.ax, ddram := q.ddram } := by
    intro q; cases q; simp_all
  exact h _ (by simp) (by simp) (by simp) (by simp) (by simp) (by simp) (by simp) (by simp) (by simp)

/-- A full frame of data bytes from the first cell fills the RAM in order and brings the counter back to the
first cell (R44, R47). -/
theorem recvAll_fullFrame {p : Panel} {ds : List Byte} (hl : p.listening = true) (hy : p.ay = .val 0)
    (hx : p.ax = .val 0) (hn : ds.length = 504) :
    (recvAll ds p).ay = .val 0 ∧ (recvAll ds p).ax = .val 0 ∧
      ∀ (a : Nat) (b : Byte), ds[a]? = some b → Memory.read (recvAll ds p).ddram a = .val b := by
  obtain ⟨y, x, h1, h2, h3⟩ := recvAll_counter ds hl hy hx
  have h0 : ddramIndex (0 : Fin 6) (0 : Fin 84) = 0 := rfl
  have h4 : ddramIndex y x = ddramIndex 0 0 := by rw [h3, h0, hn]
  obtain ⟨rfl, rfl⟩ := ddramIndex_inj h4
  refine ⟨h1, h2, fun a b hab => ?_⟩
  obtain ⟨ha, rfl⟩ := List.getElem?_eq_some_iff.1 hab
  have := recvAll_read ds hl hy hx ha (by omega)
  rw [h0, Nat.zero_add, Nat.mod_eq_of_lt (by omega)] at this
  exact this

/-- Data bytes do not look at the mode line or the chip-select. -/
theorem recvAll_override (ds : List Byte) (p : Panel) (dc cs : Reg Level) :
    recvAll ds { p with dc := dc, cs := cs } = { recvAll ds p with dc := dc, cs := cs } := by
  induction ds generalizing p with
  | nil => rfl
  | cons d ds ih =>
    have h : recvData d { p with dc := dc, cs := cs } = { recvData d p with dc := dc, cs := cs } := by
      obtain ⟨rst, dc', bl, cs', h, vop, bias, dmode, ay, ax, m, done⟩ := p
      rcases done with _ | _ <;> rcases rst with _ | (_ | _) <;> cases ay <;> cases ax <;> rfl
    rw [recvAll_cons, h, ih, recvAll_cons]

/-- Data frames, one after the other: their bytes in order, and the lines as the last frame leaves them. -/
theorem replay_dataFrames (b soft : Bool) (frames : List (List Byte)) (p : Panel) :
    replay b (frames.flatMap (frameOf soft .high)) p =
      .ok (if frames = [] then p else
        { recvAll frames.flatten p with
          dc := .val .high
          cs := if soft then .val .high else p.cs }) := by
  induction frames generalizing p with
  | nil => rfl
  | cons f frames ih =>
    rw [List.flatMap_cons, replay_append_ok (replay_dataFrame b soft f p), ih]
    have h : deselected soft (recvAll f (selected soft .high p)) =
        { recvAll f p with dc := .val .high, cs := if soft then .val .high else p.cs } := by
      rw [show selected soft .high p =
        { p with dc := .val .high, cs := if soft then .val .low else p.cs } from rfl, recvAll_override]
      cases soft <;> rfl
    rw [h]
    by_cases hf : frames = []
    · subst hf; simp
    · rw [if_neg hf, if_neg (List.cons_ne_nil f frames), recvAll_override, List.flatten_cons, recvAll_append]
      cases soft <;> rfl

/-- The cursor commands of (1,1) and a data frame, to a listening controller in the basic set. -/
theorem replay_frameFromHome (b soft inverse : Bool) (payload : List Byte) {p : Panel}
    (hl : p.listening = true) (hh : p.h = .val .basic) :
    replay b (frameFromHome soft inverse payload) p =
      .ok (deselected soft (recvAll (txBytes inverse .data payload)
        { p with
          cs := if soft then .val .low else p.cs
          dc := .val .high, ay := .val 0, ax := .val 0 })) := by
  have hy : decodeCommand p.h (encSety 1) = some (.sety 0) := by rw [hh]; rfl
  have hx : decodeCommand p.h (encSetx 1) = some (.setx 0) := by rw [hh]; rfl
  simp only [frameFromHome, commandEvents_eq, writeEvents_eq, homeCommands, List.flatMap_cons,
    List.flatMap_nil, List.append_nil, List.append_assoc, Mode.level]
  rw [replay_append_ok (replay_command b hl hy),
    replay_append_ok (replay_command b (k := .setx 0) (by simpa using hl) (by simpa [controllerSide] using hx)),
    replay_dataFrame]
  cases soft <;> rfl

/-- The same to a controller that does not listen. -/
theorem replay_frameFromHome_deaf (b soft inverse : Bool) (payload : List Byte) {p : Panel}
    (hl : p.listening = false) (hu : p.lost = p) :
    replay b (frameFromHome soft inverse payload) p =
      .ok { p with cs := if soft then .val .high else p.cs, dc := .val .high } := by
  have deaf : ∀ (ds : List Byte) (q : Panel), q.listening = false → q.lost = q → recvAll ds q = q := by
    intro ds
    induction ds with
    | nil => intro q _ _; rfl
    | cons d ds ih =>
      intro q hq hqu
      have : recvData d q = q := by
        rw [recvData_deaf d hq]
        conv => rhs; rw [← hqu]
        rw [← hqu]; rfl
      rw [recvAll_cons, this, ih q hq hqu]
  have lost_sel : ∀ (dc : Level) (q : Panel), q.lost = q → (selected soft dc q).lost = selected soft dc q := by
    intro dc q h; conv => rhs; rw [← h]
    rfl
  have lost_des : ∀ (q : Panel), q.lost = q → (deselected soft q).lost = deselected soft q := by
    intro q h; conv => rhs; rw [← h]
    rfl
  simp only [frameFromHome, commandEvents_eq, writeEvents_eq, homeCommands, List.flatMap_cons,
    List.flatMap_nil, List.append_nil, List.append_assoc, Mode.level]
  rw [replay_append_ok (replay_command_deaf b hl),
    replay_append_ok (replay_command_deaf b (by simpa using hl)), replay_dataFrame,
    lost_sel _ _ hu, lost_sel _ _ (lost_des _ (lost_sel _ _ hu)),
    deaf _ _ (by simpa using hl) (lost_sel _ _ (lost_des _ (lost_sel _ _ (lost_des _ (lost_sel _ _ hu)))))]
  cases soft <;> rfl

end Sys2Proof.Machine
end

