-- ==== Sys2Proof/Laws/PerInstr.lean ====
section
/-! SUPPORT. Laws of every instruction as syntax, one lemma per constructor. -/

namespace Sys2Proof.Laws

/-- The three highest bits of a header word. -/
theorem header_mask (w : BitVec 19) : w &&& 0x70000#19 = (w >>> 16) <<< 16 := by
  ext i hi
  interval_cases i <;> simp

theorem requestHeader_toNat (op : BitVec 3) (a b : Byte) :
    (requestHeader op a b).toNat = op.toNat * 65536 + a.toNat * 256 + b.toNat := by
  unfold requestHeader
  have ha := a.isLt
  have hb := b.isLt
  rw [BitVec.toNat_append, ← Nat.shiftLeft_add_eq_or_of_lt hb, BitVec.toNat_append,
    ← Nat.shiftLeft_add_eq_or_of_lt ha]
  simp only [Nat.shiftLeft_eq]
  omega

/-- The header of a request lies in its row of the opcode table. -/
theorem request_row (op : BitVec 3) (a b : Byte) :
    (requestHeader op a b).toNat &&& 0x70000 = op.toNat * 65536 ∧ (requestHeader op a b).toNat < 2 ^ 19 := by
  refine ⟨?_, (requestHeader op a b).isLt⟩
  have h := congrArg BitVec.toNat (header_mask (requestHeader op a b))
  have ho := op.isLt
  have ha := a.isLt
  have hb := b.isLt
  simp only [BitVec.toNat_and, BitVec.toNat_ofNat, BitVec.toNat_shiftLeft, BitVec.toNat_ushiftRight,
    Nat.shiftLeft_eq, Nat.shiftRight_eq_div_pow, requestHeader_toNat, Nat.reducePow, Nat.reduceMod] at h ⊢
  omega

/-- The encoder's word of an instruction lies in the instruction's row of the opcode table: masked, it is
the row's pattern, and it is no wider than the row. -/
def TableRow.Statement (i : Instr) : Prop :=
  i.wellFormed = true →
    (encode i).tableBits &&& (tableRow i).1 = (tableRow i).2 ∧ (encode i).tableBits < 2 ^ tableWidth i

theorem TableRow.funcsetExt : TableRow.Statement .funcsetExt :=
  fun _ => by decide

theorem TableRow.setvop (v : BitVec 7) : TableRow.Statement (.setvop v) :=
  fun _ => by revert v; decide

theorem TableRow.setbias : TableRow.Statement .setbias :=
  fun _ => by decide

theorem TableRow.funcsetBasic : TableRow.Statement .funcsetBasic :=
  fun _ => by decide

theorem TableRow.dispAllon : TableRow.Statement .dispAllon :=
  fun _ => by decide

theorem TableRow.dispNormal : TableRow.Statement .dispNormal :=
  fun _ => by decide

theorem TableRow.sety (y : BitVec 3) : TableRow.Statement (.sety y) :=
  fun _ => by revert y; decide

theorem TableRow.setx (x : BitVec 7) : TableRow.Statement (.setx x) :=
  fun _ => by revert x; decide

theorem TableRow.datawr (d : Byte) : TableRow.Statement (.datawr d) :=
  fun _ => ⟨Nat.and_zero _, d.isLt⟩

theorem TableRow.reinit : TableRow.Statement .reinit :=
  fun _ => request_row 0#3 _ _

theorem TableRow.clear : TableRow.Statement .clear :=
  fun _ => request_row 1#3 _ _

theorem TableRow.cursor (bank column : Int) : TableRow.Statement (.cursor bank column) :=
  fun _ => request_row 2#3 _ _

theorem TableRow.backlight (on : Bool) : TableRow.Statement (.backlight on) :=
  fun _ => request_row 3#3 _ _

theorem TableRow.inverse (on : Bool) : TableRow.Statement (.inverse on) :=
  fun _ => request_row 4#3 _ _

theorem TableRow.printstring (text : List Nat) : TableRow.Statement (.printstring text) :=
  fun _ => request_row 5#3 _ _

theorem TableRow.printimage (pixels : List Byte) : TableRow.Statement (.printimage pixels) :=
  fun _ => request_row 6#3 _ _

theorem TableRow.opReserved : TableRow.Statement .opReserved :=
  fun _ => request_row 7#3 _ _

theorem TableRow.glyph (charCode : Nat) : TableRow.Statement (.glyph charCode) :=
  fun _ => ⟨Nat.and_zero _, Nat.one_pos⟩

theorem TableRow.cursorcmds (bank column : Int) : TableRow.Statement (.cursorcmds bank column) :=
  fun _ => ⟨Nat.and_zero _, Nat.one_pos⟩

theorem TableRow.write (mode : Mode) (payload : List Byte) : TableRow.Statement (.write mode payload) :=
  fun _ => ⟨Nat.and_zero _, Nat.one_pos⟩

end Sys2Proof.Laws
end

