-- ==== Sys2Proof/Laws/Requests.lean ====
section
/-! SUPPORT. What a request can do, said once: it is turned away with a status and no change, or it runs its
actions and concludes. -/

namespace Sys2Proof.Machine

/-- The check that turns a request away before its first action, in the order of R171. -/
def turnedAway (i : Instr) (s : State) : Option Status :=
  match i with
  | .reinit => if contrastLegal s.cfg.contrast then none else some (.configError s.cfg.contrast)
  | .opReserved => some .illegalOp
  | .cursor bank column =>
    if s.phase = .ready then (if cursorInRange bank column then none else some .rejected)
    else some .notReady
  | .printimage pixels =>
    if s.phase = .ready then
      (if pixels.length = Config.frameBytes then none else some (.sizeError pixels.length))
    else some .notReady
  | .clear => if s.phase = .ready then none else some .notReady
  | .backlight _ => if s.phase = .ready then none else some .notReady
  | .inverse _ => if s.phase = .ready then none else some .notReady
  | .printstring _ => if s.phase = .ready then none else some .notReady
  | .funcsetExt => none
  | .setvop _ => none
  | .setbias => none
  | .funcsetBasic => none
  | .dispAllon => none
  | .dispNormal => none
  | .sety _ => none
  | .setx _ => none
  | .datawr _ => none
  | .glyph _ => none
  | .cursorcmds _ _ => none
  | .write _ _ => none

/-- The events of an accepted request other than REINIT and BACKLIGHT. -/
def transferEvents (i : Instr) (soft inverse : Bool) : List Event :=
  match i with
  | .clear => clearEvents soft inverse
  | .cursor bank column => commandEvents soft inverse [encSety bank, encSetx column]
  | .printstring text => printStringEvents soft inverse text
  | .printimage pixels => frameFromHome soft inverse pixels
  | .reinit => []
  | .opReserved => []
  | .backlight _ => []
  | .inverse _ => []
  | .funcsetExt => []
  | .setvop _ => []
  | .setbias => []
  | .funcsetBasic => []
  | .dispAllon => []
  | .dispNormal => []
  | .sety _ => []
  | .setx _ => []
  | .datawr _ => []
  | .glyph _ => []
  | .cursorcmds _ _ => []
  | .write _ _ => []

/-- The actions of an accepted request. -/
def requestActions (i : Instr) (s : State) : List Action :=
  match i with
  | .reinit => reinitActions s
  | .backlight on => [.setBacklightOn on, .emit (.pin .bl (backlightLevel on s.cfg.activeLow))]
  | .inverse on => [.setInverse on]
  | .clear => emitAll (transferEvents .clear s.cfg.csSoft s.inverse)
  | .cursor bank column => emitAll (transferEvents (.cursor bank column) s.cfg.csSoft s.inverse)
  | .printstring text => emitAll (transferEvents (.printstring text) s.cfg.csSoft s.inverse)
  | .printimage pixels => emitAll (transferEvents (.printimage pixels) s.cfg.csSoft s.inverse)
  | .opReserved => []
  | .funcsetExt => []
  | .setvop _ => []
  | .setbias => []
  | .funcsetBasic => []
  | .dispAllon => []
  | .dispNormal => []
  | .sety _ => []
  | .setx _ => []
  | .datawr _ => []
  | .glyph _ => []
  | .cursorcmds _ _ => []
  | .write _ _ => []

/-- A request is turned away, or REINIT runs its actions, or another request runs its own. -/
theorem exec_request {i : Instr} (s : State) (hi : i.isRequest = true) :
    (∃ st, turnedAway i s = some st ∧ st.isPrecise = true ∧ exec i s = .next (s.report st)) ∨
    (turnedAway i s = none ∧ i = .reinit ∧ exec i s = concludeReinit (runActions (requestActions i s) s)) ∨
    (turnedAway i s = none ∧ i ≠ .reinit ∧ s.phase = .ready ∧
      exec i s = conclude (runActions (requestActions i s) s)) := by
  cases i <;> first | (simp [Instr.isRequest] at hi; done) | skip
  case reinit =>
    cases hc : contrastLegal s.cfg.contrast with
    | true => exact .inr (.inl ⟨by simp [turnedAway, hc], rfl, by simp [exec, execReinit, hc, requestActions]⟩)
    | false => exact .inl ⟨_, by simp [turnedAway, hc]; rfl, rfl, by simp [exec, execReinit, hc, endWith]⟩
  case opReserved => exact .inl ⟨_, rfl, rfl, rfl⟩
  case cursor bank column =>
    by_cases hp : s.phase = .ready
    · cases hc : cursorInRange bank column with
      | true =>
        exact .inr (.inr ⟨by simp [turnedAway, hp, hc], by simp, hp, by
          simp [exec, execCursor, accept, hp, cursorCmds, hc, requestActions, transferEvents]⟩)
      | false =>
        exact .inl ⟨.rejected, by simp [turnedAway, hp, hc], rfl, by
          simp [exec, execCursor, accept, hp, cursorCmds, hc, endWith]⟩
    · exact .inl ⟨.notReady, by simp [turnedAway, hp], rfl, by simp [exec, execCursor, accept, hp, endWith]⟩
  case printimage pixels =>
    by_cases hp : s.phase = .ready
    · by_cases hc : pixels.length = Config.frameBytes
      · exact .inr (.inr ⟨by simp only [turnedAway, hp, hc, if_true], by simp, hp, by
          simp only [exec, execPrintimage, accept, hp, hc, if_true]; rfl⟩)
      · exact .inl ⟨.sizeError pixels.length, by simp only [turnedAway, hp, hc, if_true, if_false], rfl, by
          simp only [exec, execPrintimage, accept, hp, hc, if_true, if_false]; rfl⟩
    · exact .inl ⟨.notReady, by simp [turnedAway, hp], rfl, by simp [exec, execPrintimage, accept, hp, endWith]⟩
  all_goals
    by_cases hp : s.phase = .ready
    · exact .inr (.inr ⟨by simp [turnedAway, hp], by simp, hp, by
        simp [exec, execClear, execBacklight, execInverse, execPrintstring, accept, hp, requestActions,
          transferEvents]⟩)
    · exact .inl ⟨.notReady, by simp [turnedAway, hp], rfl, by
        simp [exec, execClear, execBacklight, execInverse, execPrintstring, accept, hp, endWith]⟩

/-! ## The flag writes of a request -/

/-- The action writes neither mode flag. -/
def Action.keepsModes : Action → Bool
  | .emit _ => true
  | .setPhase _ => true
  | .setInverse _ => false
  | .setBacklightOn _ => false
  | .setBusOpen _ => true

/-- The action is an event. -/
def Action.isEvent : Action → Bool
  | .emit _ => true
  | .setPhase _ => false
  | .setInverse _ => false
  | .setBacklightOn _ => false
  | .setBusOpen _ => false

theorem flagsOf_keepsModes {as : List Action} (s : State) (h : as.all Action.keepsModes = true) :
    (flagsOf as s).inverse = s.inverse ∧ (flagsOf as s).backlightOn = s.backlightOn := by
  induction as generalizing s with
  | nil => exact ⟨rfl, rfl⟩
  | cons a as ih =>
    simp only [List.all_cons, Bool.and_eq_true] at h
    cases a with
    | emit e => exact ih s h.2
    | setPhase v => exact ih (s.setPhase v) h.2
    | setBusOpen v => exact ih (s.setBusOpen v) h.2
    | setInverse v => exact absurd h.1 (by simp [Action.keepsModes])
    | setBacklightOn v => exact absurd h.1 (by simp [Action.keepsModes])

theorem flagsOf_events {as : List Action} (s : State) (h : as.all Action.isEvent = true) :
    flagsOf as s = s := by
  induction as with
  | nil => rfl
  | cons a as ih =>
    simp only [List.all_cons, Bool.and_eq_true] at h
    cases a with
    | emit e => exact ih h.2
    | setPhase v => exact absurd h.1 (by simp [Action.isEvent])
    | setInverse v => exact absurd h.1 (by simp [Action.isEvent])
    | setBacklightOn v => exact absurd h.1 (by simp [Action.isEvent])
    | setBusOpen v => exact absurd h.1 (by simp [Action.isEvent])

/-- The action does not write `bus_open`. -/
def Action.keepsBus : Action → Bool
  | .emit _ => true
  | .setPhase _ => true
  | .setInverse _ => true
  | .setBacklightOn _ => true
  | .setBusOpen _ => false

theorem flagsOf_keepsBus {as : List Action} (s : State) (h : as.all Action.keepsBus = true) :
    (flagsOf as s).busOpen = s.busOpen := by
  induction as generalizing s with
  | nil => rfl
  | cons a as ih =>
    simp only [List.all_cons, Bool.and_eq_true] at h
    cases a with
    | emit e => exact ih s h.2
    | setPhase v => exact ih (s.setPhase v) h.2
    | setInverse v => exact ih (s.setInverse v) h.2
    | setBacklightOn v => exact ih (s.setBacklightOn v) h.2
    | setBusOpen v => exact absurd h.1 (by simp [Action.keepsBus])

theorem emitAll_isEvent (es : List Event) : (emitAll es).all Action.isEvent = true := by
  simp [emitAll, Action.isEvent]

theorem emitAll_keepsModes (es : List Event) : (emitAll es).all Action.keepsModes = true := by
  simp [emitAll, Action.keepsModes]

theorem emitAll_keepsBus (es : List Event) : (emitAll es).all Action.keepsBus = true := by
  simp [emitAll, Action.keepsBus]

theorem reinitActions_keepsModes (s : State) : (reinitActions s).all Action.keepsModes = true := by
  cases hb : s.busOpen <;> cases hc : s.cfg.csSoft <;>
    simp [reinitActions, hb, hc, emitAll_keepsModes, Action.keepsModes]

/-- What a request other than REINIT has written to the flags when it reaches one of its events. -/
theorem flagsOf_request_at {i : Instr} {s : State} {as₁ as₂ : List Action} {e : Event}
    (hr : i ≠ .reinit) (h : requestActions i s = as₁ ++ .emit e :: as₂) :
    flagsOf as₁ s = (match i with
      | .backlight on => s.setBacklightOn on
      | _ => s) := by
  have events : ∀ es : List Event, emitAll es = as₁ ++ .emit e :: as₂ → flagsOf as₁ s = s := by
    intro es h
    have := emitAll_isEvent es
    rw [h, List.all_append, Bool.and_eq_true] at this
    exact flagsOf_events s this.1
  cases i with
  | reinit => exact absurd rfl hr
  | backlight on =>
    match as₁, h with
    | [a], h => simp [requestActions] at h; simp [← h.1, flagsOf]
    | _ :: _ :: _, h => exact absurd (congrArg List.length h) (by simp [requestActions])
    | [], h => simp [requestActions] at h
  | inverse on =>
    match as₁, h with
    | [], h => simp [requestActions] at h
    | _ :: _, h => exact absurd (congrArg List.length h) (by simp [requestActions])
  | clear => exact events _ h
  | cursor bank column => exact events _ h
  | printstring text => exact events _ h
  | printimage pixels => exact events _ h
  | _ => simp [requestActions] at h

/-- Everything a request that answers a next state has done: it was turned away, or all its actions
happened, or a call failed and the actions before that event happened (R130, R165, R172). -/
theorem request_next {i : Instr} {s t : State} (hi : i.isRequest = true) (h : exec i s = .next t) :
    (∃ st, turnedAway i s = some st ∧ st.isPrecise = true ∧ t = s.report st) ∨
    (turnedAway i s = none ∧ ∃ p, replay s.cfg.resetPulseOk (eventsOf (requestActions i s)) s.panel = .ok p ∧
      t = (landed (requestActions i s) s p).report .ok) ∨
    (turnedAway i s = none ∧ ∃ as₁ e as₂ rest p n, requestActions i s = as₁ ++ .emit e :: as₂ ∧
      s.transport.drop (eventsOf as₁).length = .fails n :: rest ∧
      replay s.cfg.resetPulseOk (eventsOf as₁) s.panel = .ok p ∧
      t = (if i = .reinit then ((landed as₁ s p).setTransport rest).setPhase .uninitialized
        else (landed as₁ s p).setTransport rest).report (.transportFault n)) := by
  rcases exec_request s hi with ⟨st, h1, h2, h3⟩ | ⟨h1, rfl, h3⟩ | ⟨h1, hne, _, h3⟩ <;> rw [h3] at h
  · injection h with h
    exact .inl ⟨st, h1, h2, h.symm⟩
  · rcases concludeReinit_next h with ⟨u, hu, ht⟩ | ⟨u, n, hu, ht⟩
    · obtain ⟨p, hp, hu⟩ := runActions_done hu
      exact .inr (.inl ⟨h1, p, hp, by rw [ht, hu]⟩)
    · obtain ⟨as₁, e, as₂, rest, p, hsplit, hf, hp, hu⟩ := runActions_failed hu
      exact .inr (.inr ⟨h1, as₁, e, as₂, rest, p, n, hsplit, hf, hp, by rw [ht, hu, if_pos rfl]⟩)
  · rcases conclude_next h with ⟨u, hu, ht⟩ | ⟨u, n, hu, ht⟩
    · obtain ⟨p, hp, hu⟩ := runActions_done hu
      exact .inr (.inl ⟨h1, p, hp, by rw [ht, hu]⟩)
    · obtain ⟨as₁, e, as₂, rest, p, hsplit, hf, hp, hu⟩ := runActions_failed hu
      exact .inr (.inr ⟨h1, as₁, e, as₂, rest, p, n, hsplit, hf, hp, by rw [ht, hu, if_neg hne]⟩)

/-- What a request has done to the panel and the trace: it replayed the events it emitted. -/
theorem request_trace {i : Instr} {s t : State} (hi : i.isRequest = true) (h : exec i s = .next t) :
    t.cfg = s.cfg ∧ t.inbox = s.inbox ∧ t.returned = s.returned ∧
      ∃ es, t.out = s.out ++ es ∧ replay s.cfg.resetPulseOk es s.panel = .ok t.panel := by
  rcases request_next hi h with ⟨st, _, _, rfl⟩ | ⟨_, p, hp, rfl⟩ | ⟨_, as₁, e, as₂, rest, p, n, _, _, hp, rfl⟩
  · exact ⟨rfl, rfl, rfl, [], by simp, rfl⟩
  · exact ⟨by simp, by simp, by simp, _, rfl, hp⟩
  · split
    · exact ⟨by simp, by simp, by simp, eventsOf as₁, rfl, hp⟩
    · exact ⟨by simp, by simp, by simp, eventsOf as₁, rfl, hp⟩

/-- The number of statuses an ending adds: exactly one. -/
theorem report_statuses_inj {s : State} {st st' : Status}
    (h : (s.report st).statuses = s.statuses ++ [st']) : st = st' := by
  simpa using h

end Sys2Proof.Machine
end

