-- ==== Sys2Proof/Laws/Reinit.lean ====
section
/-! SUPPORT. What the events of REINIT do to the panel, said once: with the premise `RESET_PULSE_OK` the whole
display side is written (R133), without it the display side stays unspecified. And what `bus_open` is while it
runs. -/

namespace Sys2Proof.Machine

/-- The events of REINIT up to the release of the reset line (R131, steps 2 to 6). -/
def openingEvents (s : State) : List Event :=
  (if s.busOpen then [Event.busClose] else [])
    ++ ([.gpioConfigure (acquiredLines s.cfg.csSoft) .low, .busOpen s.cfg.busId s.cfg.deviceId,
        .busClock Config.busHz, .pin .bl (backlightLevel s.backlightOn s.cfg.activeLow)]
      ++ ((if s.cfg.csSoft then [Event.pin .cs .high] else []) ++ [.pin .rst .high]))

/-- The events of REINIT: the opening, the head bytes, the clear and the tail bytes. -/
theorem eventsOf_reinit (s : State) :
    eventsOf (reinitActions s) =
      openingEvents s ++ (commandEvents s.cfg.csSoft s.inverse (initHead s.cfg.contrast)
        ++ (clearEvents s.cfg.csSoft s.inverse ++ commandEvents s.cfg.csSoft s.inverse initTail)) := by
  cases hb : s.busOpen <;> cases hc : s.cfg.csSoft <;>
    simp [reinitActions, openingEvents, eventsOf, hb, hc]

/-- The flag writes of REINIT. -/
theorem flagsOf_reinit (s : State) :
    flagsOf (reinitActions s) s = { s with phase := .ready, busOpen := true } := by
  cases hb : s.busOpen <;> cases hc : s.cfg.csSoft <;>
    simp [reinitActions, flagsOf, hb, hc, State.setPhase, State.setBusOpen]

/-- The actions of REINIT from step 4 on (R131). -/
def reinitTail (s : State) : List Action :=
  [.emit (.pin .bl (backlightLevel s.backlightOn s.cfg.activeLow))]
    ++ ((if s.cfg.csSoft then [Action.emit (.pin .cs .high)] else [])
    ++ (.emit (.pin .rst .high)
    :: (emitAll (commandEvents s.cfg.csSoft s.inverse (initHead s.cfg.contrast))
    ++ (emitAll (clearEvents s.cfg.csSoft s.inverse)
    ++ (emitAll (commandEvents s.cfg.csSoft s.inverse initTail)
    ++ [.setPhase .ready])))))

theorem reinitTail_keepsBus (s : State) : (reinitTail s).all Action.keepsBus = true := by
  cases hc : s.cfg.csSoft <;> simp [reinitTail, hc, emitAll_keepsBus, Action.keepsBus]

/-- `bus_open` when REINIT reaches one of its events (R16, R131 steps 2 and 3): released after `BusClose`, held
after `BusClock`, and before both what it was. -/
theorem reinit_busOpen_at {s : State} {as₁ as₂ : List Action} {e : Event}
    (h : reinitActions s = as₁ ++ .emit e :: as₂) :
    (flagsOf as₁ s).busOpen =
      if .busClock 500000 ∈ eventsOf as₁ then true
      else if .busClose ∈ eventsOf as₁ then false else s.busOpen := by
  have tail : ∀ {as : List Action} (u : State), reinitTail s = as ++ .emit e :: as₂ →
      (flagsOf as u).busOpen = u.busOpen := by
    intro as u h
    have := reinitTail_keepsBus s
    rw [h, List.all_append, Bool.and_eq_true] at this
    exact flagsOf_keepsBus u this.1
  cases hb : s.busOpen with
  | true =>
    have hr : reinitActions s = .setPhase .initializing :: .emit .busClose :: .setBusOpen false
        :: .emit (.gpioConfigure (acquiredLines s.cfg.csSoft) .low)
        :: .emit (.busOpen s.cfg.busId s.cfg.deviceId) :: .emit (.busClock 500000) :: .setBusOpen true
        :: reinitTail s := by simp [reinitActions, reinitTail, hb, Config.busHz]
    rw [hr] at h
    rcases as₁ with _ | ⟨a1, _ | ⟨a2, _ | ⟨a3, _ | ⟨a4, _ | ⟨a5, _ | ⟨a6, _ | ⟨a7, as⟩⟩⟩⟩⟩⟩⟩ <;>
      simp only [List.nil_append, List.cons_append, List.cons.injEq, reduceCtorEq, false_and, and_false] at h
    · obtain ⟨rfl, -⟩ := h; simp [flagsOf, eventsOf, hb]
    · obtain ⟨rfl, rfl, rfl, -⟩ := h; simp [flagsOf, eventsOf]
    · obtain ⟨rfl, rfl, rfl, rfl, -⟩ := h; simp [flagsOf, eventsOf]
    · obtain ⟨rfl, rfl, rfl, rfl, rfl, -⟩ := h; simp [flagsOf, eventsOf]
    · obtain ⟨rfl, rfl, rfl, rfl, rfl, rfl, rfl, h⟩ := h; simp [flagsOf, eventsOf, tail _ h]
  | false =>
    have hr : reinitActions s = .setPhase .initializing
        :: .emit (.gpioConfigure (acquiredLines s.cfg.csSoft) .low)
        :: .emit (.busOpen s.cfg.busId s.cfg.deviceId) :: .emit (.busClock 500000) :: .setBusOpen true
        :: reinitTail s := by simp [reinitActions, reinitTail, hb, Config.busHz]
    rw [hr] at h
    rcases as₁ with _ | ⟨a1, _ | ⟨a2, _ | ⟨a3, _ | ⟨a4, _ | ⟨a5, as⟩⟩⟩⟩⟩ <;>
      simp only [List.nil_append, List.cons_append, List.cons.injEq, reduceCtorEq, false_and, and_false] at h
    · obtain ⟨rfl, -⟩ := h; simp [flagsOf, eventsOf, hb]
    · obtain ⟨rfl, rfl, -⟩ := h; simp [flagsOf, eventsOf, hb]
    · obtain ⟨rfl, rfl, rfl, -⟩ := h; simp [flagsOf, eventsOf, hb]
    · obtain ⟨rfl, rfl, rfl, rfl, rfl, h⟩ := h; simp [flagsOf, eventsOf, tail _ h]

/-- The panel once REINIT has released the reset line: the lines are held, and the display side is `⊥`. -/
def opened (s : State) : Panel :=
  { Panel.powerOn with
    rst := .val .high, dc := .val .low
    bl := .val (backlightLevel s.backlightOn s.cfg.activeLow)
    cs := if s.cfg.csSoft then .val .high else s.panel.cs
    ctrlResetDone := s.cfg.resetPulseOk }

theorem replay_opening (s : State) :
    replay s.cfg.resetPulseOk (openingEvents s) s.panel = .ok (opened s) := by
  cases hb : s.busOpen <;> cases hc : s.cfg.csSoft <;>
    simp [openingEvents, hb, hc, acquiredLines, replay, applyEvent, driveAll, drive, opened, Panel.lost,
      Panel.powerOn, Memory.allUnspecified]

theorem commandEvents_cons (soft inverse : Bool) (c : Byte) (cs : List Byte) :
    commandEvents soft inverse (c :: cs) = frameOf soft .low [c] ++ commandEvents soft inverse cs := by
  rw [commandEvents_eq, commandEvents_eq, List.flatMap_cons]

theorem commandEvents_nil (soft inverse : Bool) : commandEvents soft inverse [] = [] := rfl

/-- The panel after the head bytes (R108). -/
def headed (s : State) : Panel :=
  { opened s with
    h := .val .basic, vop := .val (BitVec.ofInt 7 s.cfg.contrast), bias := .val 0x13#8 }

theorem opened_listening {s : State} (hp : s.cfg.resetPulseOk = true) : (opened s).listening = true := by
  simp [Panel.listening, opened, hp]

theorem replay_head {s : State} (hp : s.cfg.resetPulseOk = true) (h0 : 0 ≤ s.cfg.contrast)
    (h1 : s.cfg.contrast ≤ 127) :
    replay s.cfg.resetPulseOk (commandEvents s.cfg.csSoft s.inverse (initHead s.cfg.contrast)) (opened s) =
      .ok (headed s) := by
  have hl := opened_listening hp
  simp only [initHead, commandEvents_cons, commandEvents_nil, List.append_nil]
  rw [replay_append_ok (replay_command _ (k := .funcsetExt) hl (by simp)),
    replay_append_ok (replay_command _ (k := .setvop (BitVec.ofInt 7 s.cfg.contrast)) (by simpa using hl)
      (by simpa [controllerSide] using decode_encSetvop h0 h1)),
    replay_append_ok (replay_command _ (k := .setbias) (by simpa using hl) (by simp [controllerSide])),
    replay_command _ (k := .funcsetBasic) (by simpa using hl) (by simp)]
  cases hc : s.cfg.csSoft <;> simp [deselected, selected, controllerSide, headed, opened, hc, setbiasByte]

/-- A full frame of one byte. -/
def fillFrame (z : Byte) : List Byte := List.replicate 504 z

theorem fillFrame_length (z : Byte) : (fillFrame z).length = 504 := List.length_replicate

theorem fillFrame_get {z : Byte} {a : Nat} (ha : a < 504) : (fillFrame z)[a]? = some z := by
  rw [fillFrame, List.getElem?_replicate_of_lt ha]

theorem txBytes_zeros (inverse : Bool) :
    txBytes inverse .data (List.replicate Config.frameBytes 0x00#8) = fillFrame (clearByte inverse) := by
  cases inverse
  · rfl
  · exact List.map_replicate

/-- The panel after the head bytes and the clear: the frame of `z` bytes (R133). -/
def cleared (s : State) : Panel :=
  deselected s.cfg.csSoft (recvAll (fillFrame (clearByte s.inverse))
    { headed s with
      cs := if s.cfg.csSoft then .val .low else (headed s).cs
      dc := .val .high, ay := .val 0, ax := .val 0 })

theorem headed_listening {s : State} (hp : s.cfg.resetPulseOk = true) : (headed s).listening = true := by
  simp [Panel.listening, headed, opened, hp]

theorem replay_clear {s : State} (hp : s.cfg.resetPulseOk = true) :
    replay s.cfg.resetPulseOk (clearEvents s.cfg.csSoft s.inverse) (headed s) = .ok (cleared s) := by
  rw [clearEvents, replay_frameFromHome _ _ _ _ (headed_listening hp) rfl, txBytes_zeros]
  rfl

/-- A full frame of one byte fills every cell. -/
theorem recvAll_fill {p : Panel} (z : Byte) (hl : p.listening = true) (hy : p.ay = .val 0)
    (hx : p.ax = .val 0) :
    (recvAll (fillFrame z) p).ay = .val 0 ∧ (recvAll (fillFrame z) p).ax = .val 0 ∧
      ∀ a, a < 504 → Memory.read (recvAll (fillFrame z) p).ddram a = .val z := by
  obtain ⟨h1, h2, h3⟩ := recvAll_fullFrame hl hy hx (fillFrame_length z)
  exact ⟨h1, h2, fun a ha => h3 a z (fillFrame_get ha)⟩

/-- The panel a completed REINIT leaves (R34), with the premise `RESET_PULSE_OK`. -/
def reinitialised (s : State) (m : Memory) : Panel :=
  { rst := .val .high, dc := .val .low
    bl := .val (backlightLevel s.backlightOn s.cfg.activeLow)
    cs := if s.cfg.csSoft then .val .high else s.panel.cs
    h := .val .basic, vop := .val (BitVec.ofInt 7 s.cfg.contrast), bias := .val 0x13#8
    dmode := .val .normal, ay := .val 0, ax := .val 0, ddram := m, ctrlResetDone := true }

/-- The RAM a completed REINIT leaves: it does not depend on the state before. -/
def clearedMemory (inverse : Bool) : Memory :=
  (recvAll (fillFrame (clearByte inverse))
    { Panel.powerOn with rst := .val .high, ay := .val 0, ax := .val 0, ctrlResetDone := true }).ddram

/-- The RAM after data bytes depends on the RAM, the counter and whether the controller listens. -/
theorem recvAll_ddram_congr {p q : Panel} (ds : List Byte) (hl : p.listening = q.listening)
    (hy : p.ay = q.ay) (hx : p.ax = q.ax) (hm : p.ddram = q.ddram) :
    (recvAll ds p).ddram = (recvAll ds q).ddram := by
  induction ds generalizing p q with
  | nil => exact hm
  | cons d ds ih =>
    rw [recvAll_cons, recvAll_cons]
    refine ih (by simpa using hl) ?_ ?_ ?_ <;>
      · unfold recvData
        rw [hl, hy, hx, hm]
        split
        · split <;> simp_all
        · rfl

theorem read_clearedMemory (inverse : Bool) {a : Nat} (ha : a < 504) :
    Memory.read (clearedMemory inverse) a = .val (clearByte inverse) :=
  (recvAll_fill (clearByte inverse) rfl rfl rfl).2.2 a ha

/-- The whole of REINIT's events on the panel, with the premise `RESET_PULSE_OK` (R133). -/
theorem replay_reinit {s : State} (hp : s.cfg.resetPulseOk = true) (h0 : 0 ≤ s.cfg.contrast)
    (h1 : s.cfg.contrast ≤ 127) :
    replay s.cfg.resetPulseOk (eventsOf (reinitActions s)) s.panel =
      .ok (reinitialised s (clearedMemory s.inverse)) := by
  have hl : (cleared s).listening = true := by
    rw [cleared, deselected_listening, recvAll_listening]
    exact headed_listening hp
  have hh : (cleared s).h = .val .basic := by simp [cleared, headed]
  rw [eventsOf_reinit, replay_append_ok (replay_opening s), replay_append_ok (replay_head hp h0 h1),
    replay_append_ok (replay_clear hp)]
  simp only [initTail, commandEvents_cons, commandEvents_nil, List.append_nil]
  rw [replay_append_ok (replay_command _ (k := .dispAllon) hl (by rw [hh]; simp)),
    replay_command _ (k := .dispNormal) (by simpa using hl) (by simp [controllerSide, hh])]
  have key := recvAll_fill (clearByte s.inverse) (p :=
    { headed s with
      cs := if s.cfg.csSoft then .val .low else (headed s).cs
      dc := .val .high, ay := .val 0, ax := .val 0 }) (headed_listening hp) rfl rfl
  have hm := recvAll_ddram_congr (fillFrame (clearByte s.inverse)) (p :=
    { headed s with
      cs := if s.cfg.csSoft then .val .low else (headed s).cs
      dc := .val .high, ay := .val 0, ax := .val 0 })
    (q := { Panel.powerOn with rst := .val .high, ay := .val 0, ax := .val 0, ctrlResetDone := true })
    (headed_listening hp) rfl rfl rfl
  simp only [cleared]
  rw [recvAll_eq, key.1, key.2.1, hm]
  cases hc : s.cfg.csSoft <;>
    simp [deselected, selected, controllerSide, headed, opened, hc, hp, reinitialised, clearedMemory]

/-- The same without the premise: the controller takes nothing, and its side stays `⊥`. -/
theorem replay_reinit_deaf {s : State} (hp : s.cfg.resetPulseOk = false) :
    replay s.cfg.resetPulseOk (eventsOf (reinitActions s)) s.panel = .ok (opened s) := by
  have command : ∀ (c : Byte) (d : Level), replay s.cfg.resetPulseOk (frameOf s.cfg.csSoft .low [c])
      { opened s with dc := .val d } = .ok (opened s) := by
    intro c d
    rw [replay_command_deaf _ (by simp [Panel.listening, opened, hp])]
    cases hc : s.cfg.csSoft <;>
      simp [deselected, selected, opened, Panel.lost, Panel.powerOn, Memory.allUnspecified, hc]
  have commands : ∀ (cs : List Byte), replay s.cfg.resetPulseOk
      (commandEvents s.cfg.csSoft s.inverse cs) (opened s) = .ok (opened s) := by
    intro cs
    induction cs with
    | nil => rfl
    | cons c cs ih => rw [commandEvents_cons, replay_append_ok (show replay _ _ (opened s) = _ from command c .low), ih]
  rw [eventsOf_reinit, replay_append_ok (replay_opening s), replay_append_ok (commands _),
    replay_append_ok (show replay _ (clearEvents _ _) _ = _ from
      replay_frameFromHome_deaf _ _ _ _ (by simp [Panel.listening, opened, hp]) rfl)]
  have hd : { opened s with cs := if s.cfg.csSoft then .val .high else (opened s).cs, dc := .val .high } =
      { opened s with dc := .val .high } := by
    cases hc : s.cfg.csSoft <;> simp [opened, hc]
  rw [hd]
  simp only [initTail, commandEvents_cons]
  rw [replay_append_ok (command _ .high),
    replay_append_ok (show replay _ _ (opened s) = _ from command _ .low)]
  rfl

/-- REINIT's events always have a meaning, if the contrast is legal (R69). -/
theorem replay_reinit_ok {s : State} (hc : contrastLegal s.cfg.contrast = true) :
    ∃ p, replay s.cfg.resetPulseOk (eventsOf (reinitActions s)) s.panel = .ok p := by
  obtain ⟨h0, h1⟩ := (contrastLegal_iff _).1 hc
  cases hp : s.cfg.resetPulseOk with
  | true => rw [← hp]; exact ⟨_, replay_reinit hp h0 h1⟩
  | false => rw [← hp]; exact ⟨_, replay_reinit_deaf hp⟩

end Sys2Proof.Machine
end

