-- ==== Sys2Proof/Laws/Step.lean ====
section
/-! SUPPORT. What a step on a host request can do, and how a run goes on after a step. -/

namespace Sys2Proof.Machine

/-- A request that decodes is one of the rows of the `OP` format. -/
theorem decode_request_isRequest {h : Reg InstrSet} {w : BitVec 19} {len : BitVec 16} {body : List Byte}
    {i : Instr} (hd : decode h (.request w len body) = .ok i) : i.isRequest = true := by
  simp only [decode, decodeRequest] at hd
  split at hd <;> (try (split at hd)) <;> first | (cases hd; done) | (injection hd with hd; subst hd; rfl)

/-- A request that does not decode lacks a part of its payload. -/
theorem decode_request_error {h : Reg InstrSet} {w : BitVec 19} {len : BitVec 16} {body : List Byte}
    {e : DecodeError} (hd : decode h (.request w len body) = .error e) :
    ∃ l a, e = .incompletePayload l a := by
  have take : ∀ {e}, takePayload len body = .error e → ∃ l a, e = .incompletePayload l a := by
    intro e he
    unfold takePayload at he
    split at he
    · exact absurd he (by simp)
    · injection he with he; exact ⟨_, _, he.symm⟩
  simp only [decode, decodeRequest] at hd
  split at hd
  case h_6 => split at hd; · cases hd
              · rename_i he; injection hd with hd; subst hd; exact take he
  case h_7 => split at hd; · cases hd
              · rename_i he; injection hd with hd; subst hd; exact take he
  all_goals cases hd

/-- A step on what a host presents: nothing left, or one request is run. -/
theorem hostStep_next {s t : State} (hf : FromHost s) (h : step s = .next t) :
    (t = s ∧ s.inbox = []) ∨
    ∃ i rest, i.isRequest = true ∧ FromHost (s.setInbox rest) ∧ exec i (s.setInbox rest) = .next t := by
  unfold step at h
  cases hi : s.inbox with
  | nil => rw [hi] at h; injection h with h; exact .inl ⟨h.symm, rfl⟩
  | cons inp rest =>
    rw [hi] at h
    have hfr : inp.fromHost = true ∧ rest.all Input.fromHost = true := by
      have := hf
      unfold FromHost at this
      rw [hi] at this
      simpa using this
    match inp, hfr.1 with
    | .request w l b, _ =>
      simp only at h
      split at h
      · rename_i i hd
        exact .inr ⟨i, rest, decode_request_isRequest hd, hfr.2, h⟩
      · rename_i e hd
        obtain ⟨l, a, rfl⟩ := decode_request_error hd
        exact absurd h (by simp [undecoded])

/-- A run goes on from the next state. -/
theorem run_next {k : Nat} {s t : State} (h : step s = .next t) :
    Host.Core.run Sys2Proof.core (k + 1) s = Host.Core.run Sys2Proof.core k t := by
  have h : core.step s = .next t := h
  simp only [Host.Core.run, h]

/-- A run that answers a next state took a first step that did. -/
theorem run_first {k : Nat} {s t : State}
    (h : (Host.Core.run Sys2Proof.core (k + 1) s : Host.Outcome State Fault Refusal) = .next t) :
    ∃ u, step s = .next u := by
  cases hs : step s with
  | next u => exact ⟨u, rfl⟩
  | fault r =>
    have hs : core.step s = .fault r := hs
    simp only [Host.Core.run, hs] at h
    exact absurd h (by simp)
  | refused r =>
    have hs : core.step s = .refused r := hs
    simp only [Host.Core.run, hs] at h
    exact absurd h (by simp)

end Sys2Proof.Machine
end

