-- ==== Sys2Proof/Tests/Slice0.lean ====
section
/-! SUPPORT. Our own tests: the WellFormed checks, words written out from the spec's encodings, one-step tests
from `95_test_vectors.md`, and a witness for the hypotheses of every obligation. -/

namespace Sys2Proof.Tests

open Sys2Proof Sys2Proof.Machine

/-! ## WellFormed: an ill-formed term for each check (R61, R64, R125) -/

theorem test_wf_sety : (Instr.sety 5#3).wellFormed = true ∧ (Instr.sety 6#3).wellFormed = false := by decide
theorem test_wf_setx : (Instr.setx 83#7).wellFormed = true ∧ (Instr.setx 84#7).wellFormed = false := by decide
theorem test_wf_cursor_bank :
    (Instr.cursor 255 0).wellFormed = true ∧ (Instr.cursor 256 1).wellFormed = false ∧
    (Instr.cursor (-1) 1).wellFormed = false := by decide
theorem test_wf_cursor_column :
    (Instr.cursor 0 255).wellFormed = true ∧ (Instr.cursor 1 256).wellFormed = false ∧
    (Instr.cursor 1 (-1)).wellFormed = false := by decide
theorem test_wf_text_code :
    (Instr.printstring [255]).wellFormed = true ∧ (Instr.printstring [256]).wellFormed = false := by decide
theorem test_wf_text_length : (Instr.printstring (List.replicate 65536 0x41)).wellFormed = false := by
  simp [Instr.wellFormed, fitsLen, -List.reduceReplicate]
theorem test_wf_image_length : (Instr.printimage (List.replicate 65536 0#8)).wellFormed = false := by
  simp [Instr.wellFormed, fitsLen, -List.reduceReplicate]
theorem test_wf_write :
    (Instr.write .data [0#8]).wellFormed = true ∧ (Instr.write .data []).wellFormed = false := by decide

/-! ## Decoding: words written out bit by bit (R61, R62, R64, and Part 2.6 and Part 3 of the vectors) -/

theorem test_decode_funcset :
    decode .bot (.busUnit .command 0b00100001#8) = .ok .funcsetExt ∧
    decode .bot (.busUnit .command 0b00100000#8) = .ok .funcsetBasic := by decide
theorem test_decode_extended :
    decode (.val .extended) (.busUnit .command 0b10111100#8) = .ok (.setvop 60#7) ∧
    decode (.val .extended) (.busUnit .command 0b00010011#8) = .ok .setbias := by decide
theorem test_decode_display :
    decode (.val .basic) (.busUnit .command 0b00001001#8) = .ok .dispAllon ∧
    decode (.val .basic) (.busUnit .command 0b00001100#8) = .ok .dispNormal := by decide
theorem test_decode_address :
    decode (.val .basic) (.busUnit .command 0b01000001#8) = .ok (.sety 1#3) ∧
    decode (.val .basic) (.busUnit .command 0b10001100#8) = .ok (.setx 12#7) := by decide
theorem test_decode_data : decode .bot (.busUnit .data 0b01111110#8) = .ok (.datawr 0x7E#8) := by decide
theorem test_decode_reserved :
    decode (.val .basic) (.busUnit .command 0xD4#8) = .error (.reservedCommand (.val .basic) 0xD4#8) ∧
    decode (.val .basic) (.busUnit .command 0x46#8) = .error (.reservedCommand (.val .basic) 0x46#8) ∧
    decode (.val .extended) (.busUnit .command 0x09#8) =
      .error (.reservedCommand (.val .extended) 0x09#8) ∧
    decode .bot (.busUnit .command 0x80#8) = .error (.reservedCommand .bot 0x80#8) := by decide
theorem test_decode_requests :
    decode .bot (.request 0b000_00000000_00000000#19 0#16 []) = .ok .reinit ∧
    decode .bot (.request 0b001_00000000_00000000#19 0#16 []) = .ok .clear ∧
    decode .bot (.request 0b010_00000110_00001110#19 0#16 []) = .ok (.cursor 6 14) ∧
    decode .bot (.request 0b011_00000001_00000000#19 0#16 []) = .ok (.backlight true) ∧
    decode .bot (.request 0b100_11111110_00000000#19 0#16 []) = .ok (.inverse false) ∧
    decode .bot (.request 0b111_00000000_00000000#19 0#16 []) = .ok .opReserved := by decide
theorem test_decode_payloads :
    decode .bot (.request 0b101_00000000_00000000#19 2#16 [0x41#8, 0x0A#8, 0x42#8]) =
      .ok (.printstring [0x41, 0x0A]) ∧
    decode .bot (.request 0b110_00000000_00000000#19 1#16 [0xAA#8]) = .ok (.printimage [0xAA#8]) ∧
    decode .bot (.request 0b110_00000000_00000000#19 2#16 [0xAA#8]) = .error (.incompletePayload 2 1) := by
  decide
theorem test_decode_calls :
    decode .bot (.call (.glyph 0x141)) = .ok (.glyph 0x141) ∧
    decode .bot (.call (.cursorcmds 2 3)) = .ok (.cursorcmds 2 3) ∧
    decode .bot (.call (.write .command [0x21#8])) = .ok (.write .command [0x21#8]) := by decide

/-- A word of every row of the opcode table that has bits, read as the table numbers them. -/
theorem test_table_words :
    decodeTableWord 8 0x21 = some .funcsetExt ∧ decodeTableWord 8 0xFF = some (.setvop 127#7) ∧
    decodeTableWord 8 0x13 = some .setbias ∧ decodeTableWord 8 0x20 = some .funcsetBasic ∧
    decodeTableWord 8 0x09 = some .dispAllon ∧ decodeTableWord 8 0x0C = some .dispNormal ∧
    decodeTableWord 8 0x45 = some (.sety 5#3) ∧ decodeTableWord 8 0xCE = some (.setx 78#7) ∧
    decodeTableWord 8 0x00 = some (.datawr 0#8) ∧
    decodeTableWord 24 0x00000 = some .reinit ∧ decodeTableWord 24 0x10000 = some .clear ∧
    decodeTableWord 24 0x20203 = some (.cursor 2 3) ∧ decodeTableWord 24 0x30100 = some (.backlight true) ∧
    decodeTableWord 24 0x40000 = some (.inverse false) ∧ decodeTableWord 24 0x50000 = some (.printstring []) ∧
    decodeTableWord 24 0x60000 = some (.printimage []) ∧ decodeTableWord 24 0x70000 = some .opReserved := by
  decide

/-! ## The states of the tests -/

/-- A listening controller in the normal mode. -/
def panelOf (soft : Bool) (h : Reg InstrSet) (y : Fin 6) (x : Fin 84) (m : Memory) : Panel :=
  { rst := .val .high, dc := .val .low, bl := .val .low, cs := if soft then .val .high else .bot
    h := h, vop := .val 60#7, bias := .val 0x13#8, dmode := .val .normal, ay := .val y, ax := .val x
    ddram := m, ctrlResetDone := true }

/-- A state after REINIT, but for the panel (R34). -/
def working (soft inverse : Bool) (p : Panel) : State :=
  { State.reset with
    cfg := { Cfg.atReset with csSoft := soft }, phase := .ready, inverse := inverse, busOpen := true, panel := p }

/-- A state in the basic set, without chip-select, with the counter at (y, x) and an empty RAM. -/
def at' (y : Fin 6) (x : Fin 84) : State := working false false (panelOf false (.val .basic) y x [])

/-- The same in another instruction set. -/
def inSet (h : Reg InstrSet) : State := working false false (panelOf false h 0 0 [])

/-- `s` with one input. -/
def given (s : State) (inp : Input) : State := s.setInbox [inp]

/-- The outcome is a next state with a property. -/
def answers (o : Host.Outcome State Fault Refusal) (p : State → Bool) : Bool :=
  match o with
  | .next t => p t
  | .fault _ => false
  | .refused _ => false

theorem answers_next {o : Host.Outcome State Fault Refusal} {p : State → Bool} (h : answers o p = true) :
    ∃ t, o = .next t ∧ p t = true := by
  cases o with
  | next t => exact ⟨t, rfl, h⟩
  | fault r => exact absurd h (by simp [answers])
  | refused r => exact absurd h (by simp [answers])

/-! ## One step: command and data bytes (Part 2.3 and Part 2.5 of the vectors) -/

theorem test_funcsetExt : answers (step (given (inSet .bot) (.busUnit .command 0x21#8)))
    (fun t => decide (t.panel.h = .val .extended)) = true := by decide
theorem test_setvop : answers (step (given (inSet (.val .extended)) (.busUnit .command 0xFF#8)))
    (fun t => decide (t.panel.vop = .val 127#7 ∧ t.panel.ax = .val 0)) = true := by decide
theorem test_setvop_hazard : answers (step (given (inSet (.val .basic)) (.busUnit .command 0xBC#8)))
    (fun t => decide (t.panel.ax = .val 60 ∧ t.panel.vop = .val 60#7)) = true := by decide
theorem test_setbias : answers (step (given (inSet (.val .extended)) (.busUnit .command 0x13#8)))
    (fun t => decide (t.panel.bias = .val 0x13#8)) = true := by decide
theorem test_setbias_basic :
    step (given (inSet (.val .basic)) (.busUnit .command 0x13#8)) =
      .refused (.reservedCommand (.val .basic) 0x13#8) := by rfl
theorem test_funcsetBasic : answers (step (given (inSet (.val .extended)) (.busUnit .command 0x20#8)))
    (fun t => decide (t.panel.h = .val .basic ∧ t.panel.vop = .val 60#7)) = true := by decide
theorem test_dispAllon : answers (step (given (inSet (.val .basic)) (.busUnit .command 0x09#8)))
    (fun t => decide (t.panel.dmode = .val .allOn ∧ pixel t.panel 0 0 = .val true)) = true := by decide
theorem test_dispNormal : answers (step (given (inSet (.val .basic)) (.busUnit .command 0x0C#8)))
    (fun t => decide (t.panel.dmode = .val .normal ∧ pixel t.panel 0 0 = .bot)) = true := by decide
theorem test_sety : answers (step (given (inSet (.val .basic)) (.busUnit .command 0x45#8)))
    (fun t => decide (t.panel.ay = .val 5 ∧ t.panel.ax = .val 0)) = true := by decide
theorem test_sety_extended :
    step (given (inSet (.val .extended)) (.busUnit .command 0x40#8)) =
      .refused (.reservedCommand (.val .extended) 0x40#8) := by rfl
theorem test_setx : answers (step (given (inSet (.val .basic)) (.busUnit .command 0xD3#8)))
    (fun t => decide (t.panel.ax = .val 83 ∧ t.panel.ay = .val 0)) = true := by decide
theorem test_setx_reserved :
    step (given (inSet (.val .basic)) (.busUnit .command 0xD4#8)) =
      .refused (.reservedCommand (.val .basic) 0xD4#8) := by rfl
theorem test_datawr_bank : answers (step (given (at' 0 83) (.busUnit .data 0x02#8)))
    (fun t => decide (t.panel.ddram = [(83, 0x02#8)] ∧ t.panel.ay = .val 1 ∧ t.panel.ax = .val 0)) = true := by
  decide
theorem test_datawr_wrap : answers (step (given (at' 5 83) (.busUnit .data 0x05#8)))
    (fun t => decide (t.panel.ddram = [(503, 0x05#8)] ∧ t.panel.ay = .val 0 ∧ t.panel.ax = .val 0)) = true := by
  decide

/-! ## One step: requests (Part 2.6, Part 2.7 and Part 3 of the vectors) -/

/-- P1: REINIT from power-on appends 42 events and ends as Part 3 says. -/
theorem test_reinit : answers (step (given State.reset (.request 0#19 0#16 [])))
    (fun t => decide (t.statuses = [.ok] ∧ t.out.length = 42 ∧ t.panel.h = .val .basic ∧
      t.panel.vop = .val 60#7 ∧ t.panel.dc = .val .low ∧ t.panel.cs = .val .high)) = true := by
  decide +kernel
theorem test_reinit_contrast :
    step (given { State.reset with cfg := { Cfg.atReset with contrast := 200 } } (.request 0#19 0#16 [])) =
      .next { State.reset with
        cfg := { Cfg.atReset with contrast := 200 }, statuses := [.configError 200] } := by rfl
theorem test_clear_notReady :
    step (given State.reset (.request 0x10000#19 0#16 [])) =
      .next { State.reset with statuses := [.notReady] } := by rfl
theorem test_clear : answers (step (given (at' 3 6) (.request 0x10000#19 0#16 [])))
    (fun t => decide (t.statuses = [.ok] ∧ t.out.take 5 = [.pin .dc .low, .xfer [0x40#8], .pin .dc .low,
      .xfer [0x80#8], .pin .dc .high] ∧ t.out.length = 6 ∧ t.panel.dc = .val .high)) = true := by
  decide +kernel
theorem test_cursor : answers (step (given (at' 0 0) (.request 0x20203#19 0#16 [])))
    (fun t => decide (t.statuses = [.ok] ∧ t.panel.ay = .val 1 ∧ t.panel.ax = .val 12 ∧
      t.out = [.pin .dc .low, .xfer [0x41#8], .pin .dc .low, .xfer [0x8C#8]])) = true := by decide
theorem test_cursor_rejected :
    step (given (at' 3 6) (.request 0x2010F#19 0#16 [])) =
      .next { at' 3 6 with statuses := [.rejected] } := by rfl
theorem test_backlight : answers (step (given (at' 0 0) (.request 0x30100#19 0#16 [])))
    (fun t => decide (t.backlightOn = true ∧ t.out = [.pin .bl .high] ∧ t.panel.bl = .val .high)) = true := by
  decide
theorem test_backlight_activeLow :
    answers (exec (.backlight true) { at' 0 0 with cfg := { Cfg.atReset with activeLow := true } })
      (fun t => decide (t.backlightOn = true ∧ t.out = [.pin .bl .low] ∧ t.statuses = [.ok])) = true := by
  decide
theorem test_inverse :
    step (given (at' 0 0) (.request 0x40100#19 0#16 [])) =
      .next { at' 0 0 with inverse := true, statuses := [.ok] } := by rfl
/-- The cells of "AA" from bank 6, column 14 (Part 2.7). -/
theorem test_printstring_wrap :
    answers (step (given (at' 5 78) (.request 0x50000#19 2#16 [0x41#8, 0x41#8])))
      (fun t => decide (t.panel.ay = .val 0 ∧ t.panel.ax = .val 6 ∧
        Memory.read t.panel.ddram 498 = .val 0x7E#8 ∧ Memory.read t.panel.ddram 503 = .val 0x00#8 ∧
        Memory.read t.panel.ddram 1 = .val 0x11#8 ∧ Memory.read t.panel.ddram 6 = .bot)) = true := by
  decide +kernel
theorem test_printstring_inverse :
    answers (exec (.printstring [0x1F, 0x41, 0x80]) (working false true (panelOf false (.val .basic) 0 0 [])))
      (fun t => decide (t.statuses = [.ok] ∧
        t.out = [.pin .dc .high, .xfer [0x81#8, 0xEE#8, 0xEE#8, 0xEE#8, 0x81#8, 0xFF#8]])) = true := by
  decide +kernel
theorem test_printimage_size :
    exec (.printimage []) (at' 2 0) = .next { at' 2 0 with statuses := [.sizeError 0] } := by rfl
theorem test_printimage : answers (exec (.printimage (List.replicate 504 0xAA#8)) (at' 2 0))
    (fun t => decide (t.statuses = [.ok] ∧ t.out.length = 6 ∧ t.panel.dc = .val .high)) = true := by
  decide +kernel
theorem test_opReserved :
    step (given State.reset (.request 0x70000#19 0#16 [])) =
      .next { State.reset with statuses := [.illegalOp] } := by rfl

/-! ## One step: the internal functions (Part 2.1, Part 2.2 and Part 2.4 of the vectors) -/

theorem test_glyph : answers (exec (.glyph 0x41) State.reset)
    (fun t => decide (t.returned = .glyph (some [0x7E#8, 0x11#8, 0x11#8, 0x11#8, 0x7E#8]))) = true := by decide
theorem test_glyph_rejected : answers (exec (.glyph 0x141) State.reset)
    (fun t => decide (t.returned = .glyph none)) = true := by decide
theorem test_cursorcmds : answers (exec (.cursorcmds 6 14) State.reset)
    (fun t => decide (t.returned = .cursorcmds (some (0x45#8, 0xCE#8)))) = true := by decide
theorem test_cursorcmds_rejected : answers (exec (.cursorcmds (-1) 1) State.reset)
    (fun t => decide (t.returned = .cursorcmds none)) = true := by decide
theorem test_write_inverse :
    answers (exec (.write .data [0x00#8, 0x7E#8]) (working true true (panelOf true (.val .basic) 0 0 [])))
      (fun t => decide (t.out = [.pin .cs .low, .pin .dc .high, .xfer [0xFF#8, 0x81#8], .pin .cs .high] ∧
        t.panel.ddram = [(0, 0xFF#8), (1, 0x81#8)])) = true := by decide
theorem test_write_command :
    answers (exec (.write .command [0x21#8]) (working false true (panelOf false (.val .basic) 0 0 [])))
      (fun t => decide (t.out = [.pin .dc .low, .xfer [0x21#8]] ∧ t.panel.h = .val .extended)) = true := by
  decide

/-! ## The host's probe: a table word as the first instruction after reset -/

theorem test_probe_request : step (State.reset.withFetchWord 24 0x70000) =
    .next { State.reset with statuses := [.illegalOp] } := by rfl
theorem test_probe_reinit : answers (step (State.reset.withFetchWord 24 0x00000))
    (fun t => decide (t.phase = .ready ∧ t.statuses = [.ok])) = true := by decide +kernel
theorem test_probe_command : answers (step (State.reset.withFetchWord 8 0x45))
    (fun t => decide (t.panel = Panel.powerOn)) = true := by decide

/-! ## Other readings of the spec: the pixel map (Part 2.5) -/

theorem test_pixel_cells :
    (pixelCell 0 0 = 0 ∧ pixelBit 0 0x01#8 = true) ∧ (pixelCell 83 47 = 503 ∧ pixelBit 47 0x80#8 = true) ∧
    (pixelCell 12 8 = 96 ∧ pixelBit 8 0x01#8 = true) ∧ (pixelCell 5 20 = 173 ∧ pixelBit 20 0x10#8 = true) := by
  decide

/-! ## Witnesses: a state and operands that meet the hypotheses of each obligation

Where an obligation has several clauses, there is a witness for each at the ends of its range. -/

theorem answers_with {o : Host.Outcome State Fault Refusal} {P : State → Prop} [DecidablePred P]
    (h : answers o (fun t => decide (P t)) = true) : ∃ t, o = .next t ∧ P t := by
  obtain ⟨t, ht, hp⟩ := answers_next h
  exact ⟨t, ht, of_decide_eq_true hp⟩

/-- A controller at power-on, which takes nothing. -/
def deaf : State := State.reset

/-- The state after REINIT (R34), with some contents of the RAM. -/
def holding (m : Memory) : State := working false false (panelOf false (.val .basic) 0 0 m)

theorem holding_sound {m : Memory} (hm : Memory.wf m = true) (requests : List Input) :
    Sound ((holding m).setInbox requests) :=
  ⟨hm, fun _ => ⟨rfl, rfl⟩, fun h => Bool.noConfusion h, fun _ => rfl⟩

theorem holding_inv {m : Memory} (hm : ∀ a, a < 504 → (Memory.read m a).known = true)
    (requests : List Input) : HostInv ((holding m).setInbox requests) where
  settled h := Phase.noConfusion h
  legal _ := rfl
  bus _ := rfl
  lines _ := ⟨rfl, rfl, rfl, rfl⟩
  display _ _ :=
    { listening := rfl, basic := rfl, contrast := rfl, bias := rfl, normal := rfl
      counter := ⟨0, 0, rfl, rfl, rfl⟩
      filled := hm }

/-- A RAM whose `n` cells from `k` on hold 0. -/
def zerosFrom (k : Nat) : Nat → Memory
  | 0 => []
  | n + 1 => (k, 0#8) :: zerosFrom (k + 1) n

theorem zerosFrom_read (n : Nat) (k a : Nat) (h0 : k ≤ a) (h1 : a < k + n) :
    Memory.read (zerosFrom k n) a = .val 0#8 := by
  induction n generalizing k with
  | zero => omega
  | succ n ih =>
    by_cases h : a = k
    · simp [zerosFrom, Memory.read, h]
    · simpa [zerosFrom, Memory.read, h] using ih (k + 1) (by omega) (by omega)

theorem zerosFrom_mem (n : Nat) (k : Nat) {c : Host.Cell} (h : c ∈ zerosFrom k n) : k ≤ c.1 := by
  induction n generalizing k with
  | zero => exact absurd h (by simp [zerosFrom])
  | succ n ih =>
    rcases List.mem_cons.mp h with rfl | h
    · exact Nat.le_refl k
    · exact Nat.le_of_succ_le (ih (k + 1) h)

theorem zerosFrom_wf (n : Nat) (k : Nat) (h : k + n ≤ 504) : Memory.wf (zerosFrom k n) = true := by
  induction n generalizing k with
  | zero => rfl
  | succ n ih =>
    simp only [zerosFrom, Memory.wf, Bool.and_eq_true, List.all_eq_true, decide_eq_true_eq]
    exact ⟨⟨Nat.lt_of_lt_of_le (by omega) h, fun c hc => zerosFrom_mem n (k + 1) hc⟩, ih (k + 1) (by omega)⟩

/-- A RAM in canonical form in which every cell holds a byte. -/
theorem filled_memory : ∃ m : Memory,
    Memory.wf m = true ∧ ∀ a, a < 504 → (Memory.read m a).known = true :=
  ⟨zerosFrom 0 504, zerosFrom_wf 504 0 (by omega), fun a ha => by
    rw [zerosFrom_read 504 0 a (by omega) (by omega)]; rfl⟩

theorem powerOn_sound (requests : List Input) : Sound (State.reset.setInbox requests) :=
  ⟨rfl, fun h => Bool.noConfusion h, fun _ => ⟨rfl, rfl, rfl, rfl, rfl, rfl, rfl⟩,
    fun h => Bool.noConfusion h⟩

theorem powerOn_inv (requests : List Input) : HostInv (State.reset.setInbox requests) where
  settled h := Phase.noConfusion h
  legal h := Phase.noConfusion h
  bus h := Phase.noConfusion h
  lines h := Phase.noConfusion h
  display h _ := Phase.noConfusion h

theorem witness_StepRunsDecodedInput :
    ((given (inSet (.val .basic)) (.busUnit .command 0x45#8)).inbox = [.busUnit .command 0x45#8] ∧
      decode (.val .basic) (.busUnit .command 0x45#8) = .ok (.sety 5#3)) ∧
    (at' 0 0).inbox = [] ∧
    decode .bot (.request 0x60000#19 1#16 []) = .error (.incompletePayload 1 0) := by decide

theorem witness_DecodeEncodeAgree :
    ((Instr.sety 5#3).wellFormed = true ∧ readUnder (.val .basic) (.sety 5#3) = true) ∧
    ((Instr.setx 83#7).wellFormed = true ∧ readUnder (.val .basic) (.setx 83#7) = true) ∧
    ((Instr.setvop 127#7).wellFormed = true ∧ readUnder (.val .extended) (.setvop 127#7) = true) ∧
    ((Instr.cursor 255 255).wellFormed = true ∧ readUnder .bot (.cursor 255 255) = true) ∧
    ((Instr.printstring [0, 255]).wellFormed = true ∧ readUnder .bot (.printstring [0, 255]) = true) := by
  decide

theorem witness_CommandBytesReencode :
    decode (.val .basic) (.busUnit .command 0x45#8) = .ok (.sety 5#3) ∧
    decode (.val .basic) (.busUnit .command 0xD3#8) = .ok (.setx 83#7) ∧
    decode (.val .extended) (.busUnit .command 0xFF#8) = .ok (.setvop 127#7) ∧
    decode .bot (.busUnit .command 0x21#8) = .ok .funcsetExt := by decide

theorem witness_UnusedRequestBitsIgnored :
    (0#16).toNat ≤ ([] : List Byte).length ∧ (2#16).toNat ≤ [0x41#8, 0x42#8].length := by decide

theorem witness_FunctionSetCommands : (inSet .bot).panel.listening = true := by decide

theorem witness_ContrastAndBiasCommands :
    ((inSet (.val .extended)).panel.listening = true ∧ (inSet (.val .extended)).panel.h = .val .extended) ∧
    ((inSet (.val .basic)).panel.listening = true ∧ (inSet (.val .basic)).panel.h = .val .basic) ∧
    ((inSet .bot).panel.listening = true ∧ (inSet .bot).panel.h = .bot) ∧
    ((0 : Int) ≤ 0 ∧ (0 : Int) ≤ 127) ∧ ((0 : Int) ≤ 127 ∧ (127 : Int) ≤ 127) := by decide

theorem witness_DisplayModeCommands :
    ((inSet (.val .basic)).panel.listening = true ∧ (inSet (.val .basic)).panel.h = .val .basic) ∧
    ((inSet (.val .extended)).panel.listening = true ∧ (inSet (.val .extended)).panel.h ≠ .val .basic) ∧
    ((inSet .bot).panel.listening = true ∧ (inSet .bot).panel.h ≠ .val .basic) ∧
    { (at' 0 0).panel with dmode := .val .allOn }.dmode = .val .allOn ∧
    ((panelOf false (.val .basic) 0 0 [(503, 0x80#8)]).dmode = .val .normal ∧
      Memory.read [(503, 0x80#8)] (47 / 8 * 84 + 83) = .val 0x80#8) := by decide

theorem witness_AddressCommands :
    ((inSet (.val .basic)).panel.listening = true ∧ (inSet (.val .basic)).panel.h = .val .basic) ∧
    (5#3).toNat < 6 ∧ 6 ≤ (6#3).toNat ∧ (83#7).toNat < 84 ∧ 84 ≤ (84#7).toNat ∧
    ((inSet (.val .extended)).panel.listening = true ∧ (inSet (.val .extended)).panel.h = .val .extended) ∧
    ((inSet .bot).panel.listening = true ∧ (inSet .bot).panel.h = .bot) ∧
    ((1 : Int) ≤ 1 ∧ (1 : Int) ≤ 6) ∧ ((1 : Int) ≤ 6 ∧ (6 : Int) ≤ 6) ∧
    ((1 : Int) ≤ 1 ∧ (1 : Int) ≤ 14) ∧ ((1 : Int) ≤ 14 ∧ (14 : Int) ≤ 14) := by decide

theorem witness_CommandByteReception :
    ((given deaf (.busUnit .command 0x45#8)).inbox = [.busUnit .command 0x45#8] ∧
      (given deaf (.busUnit .command 0x45#8)).panel.listening = false) ∧
    ((given (at' 0 0) (.busUnit .command 0x45#8)).panel.listening = true ∧
      decodeCommand (at' 0 0).panel.h 0x45#8 = some (.sety 5)) ∧
    decodeCommand (at' 0 0).panel.h 0x46#8 = none := by decide

theorem witness_CommandByteReception_moves :
    ∃ t, step (given (at' 0 0) (.busUnit .command 0x45#8)) = .next t ∧ t.panel.ay ≠ (at' 0 0).panel.ay :=
  answers_with (by decide)

theorem witness_CommandFrame :
    (Instr.setx 83#7).isCommand = true ∧ (at' 0 0).panel.listening = true ∧ deaf.panel.listening = false ∧
    ∃ t, exec (.setx 83#7) (at' 0 0) = .next t ∧ t.panel.ax = .val 83 :=
  ⟨rfl, rfl, rfl, answers_with (by decide)⟩

theorem witness_DataByteStores :
    ((at' 0 82).panel.listening = true ∧ (at' 0 82).panel.ay = .val 0 ∧ (at' 0 82).panel.ax = .val 82) ∧
    ((at' 0 83).panel.listening = true ∧ (at' 0 83).panel.ay = .val 0 ∧ (at' 0 83).panel.ax = .val 83) ∧
    ((at' 5 83).panel.listening = true ∧ (at' 5 83).panel.ay = .val 5 ∧ (at' 5 83).panel.ax = .val 83) ∧
    ({ (at' 0 0).panel with ay := .bot }.listening = true ∧ { (at' 0 0).panel with ay := .bot }.ay = .bot) ∧
    ({ (at' 0 0).panel with ax := .bot }.listening = true ∧ { (at' 0 0).panel with ax := .bot }.ax = .bot) ∧
    deaf.panel.listening = false := by decide

theorem witness_WrittenBitsShow :
    ((at' 5 83).panel.listening = true ∧ (at' 5 83).panel.ay = .val 5 ∧ (at' 5 83).panel.ax = .val 83 ∧
      (at' 5 83).panel.dmode = .val .normal ∧ 7 < 8 ∧ (47 : Fin 48).val = 8 * (5 : Fin 6).val + 7) ∧
    deaf.panel.dmode = .bot ∧
    Memory.read (at' 5 83).panel.ddram (47 / 8 * 84 + 83) = .bot := by decide

theorem witness_GlyphLookup :
    (0x20 ≤ 0x20 ∧ 0x20 ≤ 0x7F) ∧ (0x20 ≤ 0x7F ∧ 0x7F ≤ 0x7F) ∧
    (0x1F < 0x20 ∨ 0x7F < 0x1F) ∧ (0x80 < 0x20 ∨ 0x7F < 0x80) := by decide

theorem witness_CellIsGlyphAndSpacer :
    glyph 0x41 = some [0x7E#8, 0x11#8, 0x11#8, 0x11#8, 0x7E#8] ∧ glyph 0x1F = none ∧ glyph 0x80 = none := by
  decide

theorem witness_CursorCommandBytes :
    ((1 : Int) ≤ 1 ∧ (1 : Int) ≤ 6 ∧ (1 : Int) ≤ 1 ∧ (1 : Int) ≤ 14) ∧
    ((1 : Int) ≤ 6 ∧ (6 : Int) ≤ 6 ∧ (1 : Int) ≤ 14 ∧ (14 : Int) ≤ 14) ∧
    ¬((1 : Int) ≤ 0 ∧ (0 : Int) ≤ 6 ∧ (1 : Int) ≤ 14 ∧ (14 : Int) ≤ 14) ∧
    ¬((1 : Int) ≤ 6 ∧ (6 : Int) ≤ 6 ∧ (1 : Int) ≤ 15 ∧ (15 : Int) ≤ 14) := by decide

theorem witness_CursorSetsOffset :
    ((1 : Int) ≤ 6 ∧ (6 : Int) ≤ 6 ∧ (1 : Int) ≤ 14 ∧ (14 : Int) ≤ 14) ∧
    (at' 0 0).phase = .ready ∧ Reliable (at' 0 0) ∧ (at' 0 0).panel.listening = true ∧
    (at' 0 0).panel.h = .val .basic :=
  ⟨by decide, rfl, rfl, rfl, rfl⟩

theorem witness_WriteFrame :
    ([0x00#8] : List Byte) ≠ [] ∧ Reliable (at' 0 0) ∧ Reliable deaf ∧
    (∃ q, deliver (.val .high) [0x00#8] (at' 0 0).panel = .ok q) ∧
    deliver (.val .low) [0x46#8] (at' 0 0).panel = .error (.reservedCommand (.val .basic) 0x46#8) ∧
    Mode.data = .data ∧ deaf.panel.listening = false ∧
    decodeCommand (at' 0 0).panel.h 0x21#8 = some .funcsetExt :=
  ⟨by decide, rfl, rfl, ⟨_, rfl⟩, rfl, rfl, rfl, rfl⟩

theorem witness_ComplementLaw :
    (working false true (at' 0 0).panel).inverse = true ∧
    ∃ t, exec (.write .data [0x55#8]) (working false true (at' 0 0).panel) = .next t ∧ t.inverse = true :=
  ⟨rfl, answers_with (by decide)⟩

theorem witness_AcceptanceByPhase :
    ((Instr.cursor 0 0).needsReady = true ∧ deaf.phase ≠ .ready) ∧
    (∃ t, exec .reinit deaf = .next t ∧ t.phase = .ready) ∧
    Reliable { deaf with cfg := { deaf.cfg with contrast := 0 } } ∧
    ((0 : Int) ≤ 0 ∧ (0 : Int) ≤ 127) ∧ ((0 : Int) ≤ 127 ∧ (127 : Int) ≤ 127) :=
  ⟨by decide, answers_with (by decide +kernel), rfl, by decide⟩

theorem witness_IllegalContrastIsConfigError :
    ((-1 : Int) < 0 ∨ (127 : Int) < -1) ∧ ((128 : Int) < 0 ∨ (127 : Int) < 128) ∧
    ∃ t, exec .reinit { deaf with cfg := { deaf.cfg with contrast := 128 } } = .next t ∧
      t.statuses = deaf.statuses ++ [.configError 128] :=
  ⟨by decide, by decide, answers_with (by decide)⟩

theorem witness_ErrorsArePrecise :
    (∃ t, exec (.cursor 0 1) (at' 0 0) = .next t ∧ t.statuses = [.rejected]) ∧
    (∃ t, exec .reinit { deaf with cfg := { deaf.cfg with contrast := -1 } } = .next t ∧
      t.statuses = [.configError (-1)]) ∧
    (∃ t, exec (.printimage []) (at' 0 0) = .next t ∧ t.statuses = [.sizeError 0]) ∧
    (∃ t, exec .clear deaf = .next t ∧ t.statuses = [.notReady]) ∧
    (∃ t, exec .opReserved deaf = .next t ∧ t.statuses = [.illegalOp]) ∧
    Status.rejected.isPrecise = true ∧ (Status.configError (-1)).isPrecise = true ∧
    (Status.sizeError 0).isPrecise = true ∧ Status.notReady.isPrecise = true ∧
    Status.illegalOp.isPrecise = true :=
  ⟨answers_with (by decide), answers_with (by decide), answers_with (by decide), answers_with (by decide),
    answers_with (by decide), rfl, rfl, rfl, rfl, rfl⟩

theorem witness_ReinitEstablishesState :
    deaf.cfg.resetPulseOk = true ∧ Reliable deaf ∧ 0 ≤ deaf.cfg.contrast ∧ deaf.cfg.contrast ≤ 127 ∧
    ∃ t, exec .reinit deaf = .next t ∧ t.statuses = deaf.statuses ++ [.ok] :=
  ⟨rfl, rfl, by decide, by decide, answers_with (by decide +kernel)⟩

theorem witness_ReinitTrace :
    Reliable (at' 3 6) ∧ 0 ≤ (at' 3 6).cfg.contrast ∧ (at' 3 6).cfg.contrast ≤ 127 ∧
    Reliable { deaf with cfg := { deaf.cfg with contrast := 127 } } ∧ ((0 : Int) ≤ 127 ∧ (127 : Int) ≤ 127) :=
  ⟨rfl, by decide, by decide, rfl, by decide⟩

theorem witness_ReinitKeepsModeFlags :
    ∃ t, exec .reinit { deaf with inverse := true, transport := [.succeeds, .fails 3] } = .next t ∧
      t.statuses = [.transportFault 3] :=
  answers_with (by decide)

theorem witness_ReinitTwiceIsReinit :
    Reliable deaf ∧ 0 ≤ deaf.cfg.contrast ∧ deaf.cfg.contrast ≤ 127 := ⟨rfl, by decide, by decide⟩

theorem witness_BadContrastIsForever :
    let s := given { deaf with cfg := { deaf.cfg with contrast := 128 } } (.request 0#19 0#16 [])
    FromHost s ∧ NeverReady s ∧ ∃ t, step s = .next t ∧ t.statuses = [.configError 128] :=
  ⟨rfl, ⟨rfl, rfl⟩, answers_with (by decide)⟩

theorem witness_ClearResult :
    deaf.phase ≠ .ready ∧ (at' 3 6).phase = .ready ∧ Reliable (at' 3 6) ∧
    (at' 3 6).panel.listening = true ∧ (at' 3 6).panel.h = .val .basic := ⟨by decide, rfl, rfl, rfl, rfl⟩

theorem witness_CursorResult :
    (at' 3 6).phase = .ready ∧ ((1 : Int) ≤ 6 ∧ (6 : Int) ≤ 6 ∧ (1 : Int) ≤ 14 ∧ (14 : Int) ≤ 14) ∧
    ((1 : Int) ≤ 1 ∧ (1 : Int) ≤ 6 ∧ (1 : Int) ≤ 1 ∧ (1 : Int) ≤ 14) ∧
    Reliable (at' 3 6) ∧ (at' 3 6).panel.listening = true ∧ (at' 3 6).panel.h = .val .basic ∧
    ¬((1 : Int) ≤ 7 ∧ (7 : Int) ≤ 6 ∧ (1 : Int) ≤ 14 ∧ (14 : Int) ≤ 14) ∧
    ¬((1 : Int) ≤ 1 ∧ (1 : Int) ≤ 6 ∧ (1 : Int) ≤ 0 ∧ (0 : Int) ≤ 14) :=
  ⟨rfl, by decide, by decide, rfl, rfl, rfl, by decide, by decide⟩

theorem witness_BacklightResult :
    deaf.phase ≠ .ready ∧ (at' 0 0).phase = .ready ∧ Reliable (at' 0 0) ∧
    { at' 0 0 with transport := [.fails 9] }.transport = .fails 9 :: [] := ⟨by decide, rfl, rfl, rfl⟩

theorem witness_InverseResult : deaf.phase ≠ .ready ∧ (at' 0 0).phase = .ready := by decide

theorem witness_PrintStringResult :
    (at' 5 78).phase = .ready ∧ Reliable (at' 5 78) ∧ ([0x41].filterMap cell ≠ []) ∧
    (∀ ch, ch ∈ [0x1F, 0x80] → ch < 0x20 ∨ 0x7F < ch) := ⟨rfl, rfl, by decide, by decide⟩

theorem witness_TextLandsFromCounter :
    (at' 5 78).phase = .ready ∧ Reliable (at' 5 78) ∧ (at' 5 78).panel.listening = true ∧
    (at' 5 78).panel.counterIs 498 ∧
    [0x41].filterMap cell = [[0x7E#8, 0x11#8, 0x11#8, 0x11#8, 0x7E#8, 0x00#8]] ∧
    ([0x41].filterMap cell).length ≤ 0 + 84 ∧ (∀ j, j < 6 → 0 ≠ (498 + j) % 504) :=
  ⟨rfl, rfl, rfl, ⟨5, 78, rfl, rfl, rfl⟩, by decide, by decide, by decide⟩

theorem witness_PrintImageResult :
    (at' 2 0).phase = .ready ∧ (List.replicate 504 0xAA#8).length = 504 ∧ Reliable (at' 2 0) ∧
    (at' 2 0).panel.listening = true ∧ (at' 2 0).panel.h = .val .basic ∧
    (List.replicate 503 0xAA#8).length ≠ 504 ∧ (List.replicate 505 0xAA#8).length ≠ 504 :=
  ⟨rfl, List.length_replicate, rfl, rfl, rfl, by rw [List.length_replicate]; decide, by rw [List.length_replicate]; decide⟩

/-- The four events of `CURSOR 2 3`. -/
def cursorEvents : List Event :=
  [.pin .dc .low, .xfer [0x41#8], .pin .dc .low, .xfer [0x8C#8]]

theorem witness_TransportFaultStopsThere :
    (Instr.cursor 2 3).isRequest = true ∧
    (∃ t, exec (.cursor 2 3) { at' 0 0 with transport := [] } = .next t ∧
      t.out = (at' 0 0).out ++ cursorEvents) ∧
    0 < cursorEvents.length ∧ 3 < cursorEvents.length ∧
    { at' 0 0 with transport := [.fails 7] }.transport = List.replicate 0 .succeeds ++ .fails 7 :: [] ∧
    { at' 0 0 with transport := [.succeeds, .succeeds, .succeeds, .fails 7, .hangs] }.transport =
      List.replicate 3 .succeeds ++ .fails 7 :: [.hangs] :=
  ⟨rfl, answers_with (by decide), by decide, by decide, rfl, rfl⟩

/-- REINIT with a handle held, where `BusClose`, `GpioConfigure`, `BusClock` or the next call fails: `bus_open`
after it (R131 steps 2 and 3, R165). -/
theorem witness_TransportFaultStopsThere_bus :
    Instr.reinit.isRequest = true ∧
    (∃ t, exec .reinit { at' 0 0 with transport := [] } = .next t ∧ 4 < t.out.length ∧
      t.out.take 4 = [.busClose, .gpioConfigure [.rst, .dc, .bl] .low, .busOpen 0 0, .busClock 500000]) ∧
    (∃ u, exec .reinit { at' 0 0 with transport := [.fails 7] } = .next u ∧ u.busOpen = true) ∧
    (∃ u, exec .reinit { at' 0 0 with transport := [.succeeds, .fails 7] } = .next u ∧
      u.busOpen = false) ∧
    (∃ u, exec .reinit { at' 0 0 with transport := List.replicate 3 .succeeds ++ [.fails 7] } = .next u ∧
      u.busOpen = false) ∧
    (∃ u, exec .reinit { at' 0 0 with transport := List.replicate 4 .succeeds ++ [.fails 7] } = .next u ∧
      u.busOpen = true) :=
  ⟨rfl, answers_with (by decide +kernel), answers_with (by decide), answers_with (by decide),
    answers_with (by decide), answers_with (by decide)⟩

theorem witness_HangingCallStops :
    (Instr.cursor 2 3).isRequest = true ∧
    (∃ t, exec (.cursor 2 3) { at' 0 0 with transport := [] } = .next t ∧
      t.out = (at' 0 0).out ++ cursorEvents) ∧
    3 < cursorEvents.length ∧
    { at' 0 0 with transport := [.succeeds, .succeeds, .succeeds, .hangs] }.transport =
      List.replicate 3 .succeeds ++ .hangs :: [] :=
  ⟨rfl, answers_with (by decide), by decide, rfl⟩

theorem witness_RunIsFoldOfTrace :
    let s := (at' 0 0).setInbox [.request 0x20203#19 0#16 [], .request 0x70000#19 0#16 []]
    FromHost s ∧ ∃ t, (Host.Core.run Sys2Proof.core 2 s : Host.Outcome State Fault Refusal) = .next t ∧
      t.statuses = [.ok, .illegalOp] :=
  ⟨rfl, answers_with (by decide)⟩

theorem witness_ByteStreamDeterminesDisplay :
    displayView (at' 0 0).panel.dc [.pin .dc .high, .xfer [1#8, 2#8]] =
      displayView (at' 0 0).panel.dc
        [.pin .cs .low, .pin .dc .high, .xfer [1#8], .pin .dc .high, .xfer [2#8], .pin .cs .high] ∧
    ∃ q, replay true [.pin .dc .high, .xfer [1#8, 2#8]] (at' 0 0).panel = .ok q :=
  ⟨by decide, ⟨_, rfl⟩⟩

theorem witness_CommandBytesSent :
    (Instr.cursor 6 14).isRequest = true ∧
    ∃ t, exec (.cursor 6 14) (at' 0 0) = .next t ∧
      (.val .low, 0xCE#8) ∈ stream (at' 0 0).panel.dc (t.out.drop (at' 0 0).out.length) :=
  ⟨rfl, answers_with (by decide)⟩

theorem witness_FramesStandWhole :
    (Instr.printstring [0x41]).isRequest = true ∧ Instr.printstring [0x41] ≠ .reinit ∧
    (∀ on, Instr.printstring [0x41] ≠ .backlight on) ∧ Reliable (at' 0 0) ∧
    (∃ t, exec (.printstring [0x41]) (at' 0 0) = .next t ∧ t.out.length = 2) ∧
    Instr.reinit.isRequest = true ∧ Reliable deaf ∧
    (∃ t, exec .reinit deaf = .next t ∧ t.out.length = 42) ∧
    ∃ t, exec .reinit { deaf with transport := List.replicate 7 .succeeds ++ [.fails 5] } = .next t ∧
      t.out.length = 7 :=
  ⟨rfl, by simp, by simp, rfl, answers_with (by decide), rfl, rfl, answers_with (by decide +kernel),
    answers_with (by decide +kernel)⟩

theorem witness_EveryStepKeepsSound :
    let s := (holding []).setInbox [.busUnit .data 0x7E#8]
    Sound s ∧ ∃ t, step s = .next t ∧ t.panel.ddram = [(0, 0x7E#8)] :=
  ⟨holding_sound rfl _, answers_with (by decide)⟩

theorem witness_HostStepKeepsInvariant :
    (∃ m : Memory, let s := (holding m).setInbox [.request 0x40100#19 0#16 []]
      Sound s ∧ HostInv s ∧ FromHost s ∧ ∃ t, step s = .next t) ∧
    let u := State.reset.setInbox [.request 0x70000#19 0#16 []]
    Sound u ∧ HostInv u ∧ FromHost u ∧ ∃ t, step u = .next t :=
  ⟨filled_memory.imp fun _ h => ⟨holding_sound h.1 _, holding_inv h.2 _, rfl, ⟨_, rfl⟩⟩,
    powerOn_sound _, powerOn_inv _, rfl, ⟨_, rfl⟩⟩

theorem witness_HostRequestsComplete :
    (∃ m : Memory, let s := (holding m).setInbox [.request 0x10000#19 0#16 []]
      Sound s ∧ HostInv s ∧ FromHost s ∧ Reliable s ∧ s.inbox = [.request 0x10000#19 0#16 []] ∧
        decode s.panel.h (.request 0x10000#19 0#16 []) = .ok .clear) ∧
    let u := State.reset.setInbox [.request 0x00000#19 0#16 []]
    Sound u ∧ HostInv u ∧ FromHost u ∧ Reliable u ∧ u.inbox = [.request 0x00000#19 0#16 []] ∧
      decode u.panel.h (.request 0x00000#19 0#16 []) = .ok .reinit :=
  ⟨filled_memory.imp fun _ h => ⟨holding_sound h.1 _, holding_inv h.2 _, rfl, rfl, rfl, rfl⟩,
    powerOn_sound _, powerOn_inv _, rfl, rfl, rfl, rfl⟩

theorem witness_OperationsWriteTheirRow :
    Sound (at' 0 0) ∧ (Instr.inverse true).isRequest = true ∧ (Instr.cursor 6 14).isRequest = true ∧
    (∃ t, exec (.inverse true) (at' 0 0) = .next t) ∧ (∃ t, exec (.cursor 6 14) (at' 0 0) = .next t) :=
  ⟨holding_sound rfl [], rfl, rfl, ⟨_, rfl⟩, ⟨_, rfl⟩⟩

theorem witness_OnlyTheirWriters :
    (∃ t, exec .setbias (inSet (.val .extended)) = .next t) ∧ (∃ t, exec (.backlight true) (at' 0 0) = .next t) :=
  ⟨⟨_, rfl⟩, ⟨_, rfl⟩⟩

/-- A frame with a software-managed chip-select, at its first and its last call. -/
theorem witness_WriteTransportEnds :
    let es := frameOf true .high [0x00#8]
    let s := working true false (panelOf true (.val .basic) 0 0 [])
    ([0x00#8] : List Byte) ≠ [] ∧ s.cfg.csSoft = true ∧ 0 < es.length ∧ 3 < es.length ∧
    ({ s with transport := [.fails 7] }.transport = List.replicate 0 .succeeds ++ .fails 7 :: [] ∧
      ∃ p, replay true (es.take 0) s.panel = .ok p) ∧
    ({ s with transport := [.succeeds, .succeeds, .succeeds, .fails 7] }.transport =
        List.replicate 3 .succeeds ++ .fails 7 :: [] ∧
      ∃ p, replay true (es.take 3) s.panel = .ok p) ∧
    ({ s with transport := [.succeeds, .succeeds, .succeeds, .hangs] }.transport =
        List.replicate 3 .succeeds ++ .hangs :: []) ∧
    ({ s with transport := List.replicate 4 .succeeds }.transport =
        List.replicate es.length .succeeds ++ [] ∧
      ∃ p, replay true es s.panel = .ok p) ∧
    replay true ((frameOf true .low [0x46#8]).take 3) s.panel =
      .error (.reservedCommand (.val .basic) 0x46#8) :=
  ⟨by decide, rfl, by decide, by decide, ⟨rfl, _, rfl⟩, ⟨rfl, _, rfl⟩, rfl, ⟨rfl, _, rfl⟩, rfl⟩

end Sys2Proof.Tests
end

section
/-! One equation for each thing a step can find at its input (`00_scope.md` R7), and O3 from them. -/

namespace Sys2Proof.Machine

/-- With no input left the block is quiescent (R197). -/
theorem step_of_inbox_nil {s : State} (hin : s.inbox = []) : step s = .next s := by
  simp only [step, hin]

theorem step_of_decode_ok {s : State} {inp : Input} {rest : List Input} {i : Instr}
    (hin : s.inbox = inp :: rest) (hdec : decode s.panel.h inp = .ok i) :
    step s = exec i (s.setInbox rest) := by
  simp only [step, hin, hdec]

theorem step_of_decode_error {s : State} {inp : Input} {rest : List Input} {e : DecodeError}
    (hin : s.inbox = inp :: rest) (hdec : decode s.panel.h inp = .error e) :
    step s = undecoded e (s.setInbox rest) := by
  simp only [step, hin, hdec]

@[simp] theorem undecoded_incompletePayload (len available : Nat) (s : State) :
    undecoded (.incompletePayload len available) s = .refused (.incompleteRequest len available) :=
  rfl

/-- Settles O3: the three parts are the three things a step can find, an input that decodes, none, and a
request cut short. -/
theorem stepRunsDecodedInput : Obligations.StepRunsDecodedInput := by
  refine ⟨fun s inp rest i hin hdec => ?decodes, fun s hin => ?quiescent,
    fun s inp rest len available hin hdec => ?incomplete⟩
  case decodes => exact step_of_decode_ok hin hdec
  case quiescent => exact step_of_inbox_nil hin
  case incomplete => rw [step_of_decode_error hin hdec, undecoded_incompletePayload]

end Sys2Proof.Machine
end

section
/-! Which lines an event drives, and the one induction over a trace: what every drive of those lines and
every received byte keeps, the trace keeps (`10_state.md` R31). -/

namespace Sys2Proof.Machine

/-- The event drives the line (R31). -/
def Event.drives (line : Line) : Event → Bool
  | .gpioConfigure lines _ => decide (line ∈ lines)
  | .pin l _ => decide (l = line)
  | .busClose => false
  | .busOpen _ _ => false
  | .busClock _ => false
  | .xfer _ => false

section
variable {P : Panel → Prop} {b : Bool}

theorem driveAll_keeps {lines : List Line} {level : Level} {p : Panel}
    (hdrive : ∀ line ∈ lines, ∀ p, P p → P (drive b line level p)) (hp : P p) :
    P (driveAll b level lines p) := by
  induction lines generalizing p with
  | nil => exact hp
  | cons line lines ih =>
    obtain ⟨hline, hlines⟩ := List.forall_mem_cons.1 hdrive
    exact ih hlines (hline p hp)

theorem deliver_keeps {dc : Reg Level} {bytes : List Byte} {p q : Panel}
    (hbyte : ∀ dc c p q, P p → recvByte dc c p = .ok q → P q) (hp : P p)
    (h : deliver dc bytes p = .ok q) : P q := by
  induction bytes generalizing p with
  | nil => injection h with h; exact h ▸ hp
  | cons c bytes ih =>
    simp only [deliver] at h
    split at h
    · next r hr => exact ih (hbyte dc c p r hp hr) h
    · cases h

theorem applyEvent_keeps {e : Event} {p q : Panel}
    (hdrive : ∀ line level p, e.drives line = true → P p → P (drive b line level p))
    (hbyte : ∀ dc c p q, P p → recvByte dc c p = .ok q → P q) (hp : P p)
    (h : applyEvent b e p = .ok q) : P q := by
  cases e with
  | busClose => injection h with h; exact h ▸ hp
  | busOpen _ _ => injection h with h; exact h ▸ hp
  | busClock _ => injection h with h; exact h ▸ hp
  | gpioConfigure lines level =>
    injection h with h
    exact h ▸ driveAll_keeps (fun line hline p => hdrive line level p (decide_eq_true hline)) hp
  | pin line level =>
    injection h with h
    exact h ▸ hdrive line level p (decide_eq_true rfl) hp
  | xfer bytes => exact deliver_keeps hbyte hp h

/-- What every drive of a line that the trace drives keeps, and every received byte, the trace keeps. -/
theorem replay_keeps {es : List Event} {p q : Panel}
    (hdrive : ∀ e ∈ es, ∀ line level p, e.drives line = true → P p → P (drive b line level p))
    (hbyte : ∀ dc c p q, P p → recvByte dc c p = .ok q → P q) (hp : P p)
    (h : replay b es p = .ok q) : P q := by
  induction es generalizing p with
  | nil => injection h with h; exact h ▸ hp
  | cons e es ih =>
    obtain ⟨he, hes⟩ := List.forall_mem_cons.1 hdrive
    simp only [replay] at h
    split at h
    · next r hr => exact ih hes (applyEvent_keeps he hbyte hp hr) h
    · cases h
end

/-- Only a drive of the reset line writes it and `ctrl_reset_done` (R27). -/
theorem drive_keeps_reset {line : Line} (b : Bool) (level : Level) (p : Panel) (hl : line ≠ .rst) :
    (drive b line level p).rst = p.rst ∧ (drive b line level p).ctrlResetDone = p.ctrlResetDone := by
  cases line with
  | rst => exact absurd rfl hl
  | dc => exact ⟨rfl, rfl⟩
  | bl => exact ⟨rfl, rfl⟩
  | cs => exact ⟨rfl, rfl⟩

/-- A trace that does not drive the reset line keeps it and `ctrl_reset_done` (R27). -/
theorem replay_keeps_reset {b : Bool} {es : List Event} {p q : Panel}
    (hes : ∀ e ∈ es, e.drives .rst = false) (h : replay b es p = .ok q) :
    q.rst = p.rst ∧ q.ctrlResetDone = p.ctrlResetDone := by
  refine replay_keeps (P := fun r => r.rst = p.rst ∧ r.ctrlResetDone = p.ctrlResetDone) ?drive ?byte
    ⟨rfl, rfl⟩ h
  case drive =>
    intro e he line level r hd hr
    have hl : line ≠ .rst := by rintro rfl; simp [hes e he] at hd
    obtain ⟨h1, h2⟩ := drive_keeps_reset b level r hl
    exact ⟨h1.trans hr.1, h2.trans hr.2⟩
  case byte =>
    intro dc c r r' hr h
    obtain ⟨h1, -, -, -, h2⟩ := recvByte_lines h
    exact ⟨h1.trans hr.1, h2.trans hr.2⟩

end Sys2Proof.Machine
end

section
/-! The frames of the operations as lists of levels and bytes, and the lines the events of a request drive
(`43_write_framing.md` R120, R122). -/

namespace Sys2Proof.Machine

/-- Frames, one after the other, each a level of the mode line and its bytes. -/
def framed (soft : Bool) (frames : List (Level × List Byte)) : List Event :=
  frames.flatMap (fun f => frameOf soft f.1 f.2)

@[simp] theorem framed_nil (soft : Bool) : framed soft [] = [] := rfl

@[simp] theorem framed_cons (soft : Bool) (f : Level × List Byte) (frames : List (Level × List Byte)) :
    framed soft (f :: frames) = frameOf soft f.1 f.2 ++ framed soft frames := rfl

theorem commandEvents_framed (soft inverse : Bool) (cs : List Byte) :
    commandEvents soft inverse cs = framed soft (cs.map fun c => (.low, [c])) := by
  rw [commandEvents_eq, framed, List.flatMap_map]

theorem frameFromHome_framed (soft inverse : Bool) (payload : List Byte) :
    frameFromHome soft inverse payload =
      framed soft [(.low, [encSety 1]), (.low, [encSetx 1]), (.high, txBytes inverse .data payload)] := by
  simp [frameFromHome, commandEvents_framed, writeEvents_eq, homeCommands, Mode.level]

theorem printStringEvents_framed (soft inverse : Bool) (text : List Nat) :
    printStringEvents soft inverse text =
      framed soft ((textCells text).map fun c => (.high, txBytes inverse .data c)) := by
  rw [framed, List.flatMap_map, printStringEvents]
  exact congrArg (List.flatMap · (textCells text)) (funext fun c => writeEvents_eq soft inverse .data c)

/-- A frame drives no reset line, and the chip-select only where software manages it (R120). -/
theorem frameOf_drives {soft : Bool} {dc : Level} {bytes : List Byte} {e : Event} {line : Line}
    (he : e ∈ frameOf soft dc bytes) (hd : e.drives line = true) :
    line ≠ .rst ∧ (line = .cs → soft = true) := by
  cases soft with
  | false =>
    simp only [frameOf, Bool.false_eq_true, if_false, List.mem_cons, List.not_mem_nil, or_false] at he
    rcases he with rfl | rfl <;> cases line <;> simp [Event.drives] at hd ⊢
  | true =>
    simp only [frameOf, if_true, List.mem_cons, List.not_mem_nil, or_false] at he
    rcases he with rfl | rfl | rfl | rfl <;> cases line <;> simp [Event.drives] at hd ⊢

theorem framed_drives {soft : Bool} {frames : List (Level × List Byte)} {e : Event} {line : Line}
    (he : e ∈ framed soft frames) (hd : e.drives line = true) :
    line ≠ .rst ∧ (line = .cs → soft = true) := by
  obtain ⟨f, -, hf⟩ := List.mem_flatMap.1 he
  exact frameOf_drives hf hd

/-- A frame that leaves the address counter at a character cell: one SETY or SETX byte of `CURSORCMDS` (R90),
or whole cells of data bytes (R84). -/
def CellFrame (f : Level × List Byte) : Prop :=
  match f.1 with
  | .low => ∃ c, f.2 = [c] ∧
      ((∃ y, decodeCommand (.val .basic) c = some (.sety y)) ∨
        ∃ x, decodeCommand (.val .basic) c = some (.setx x) ∧ x.val % 6 = 0)
  | .high => f.2.length % 6 = 0

theorem cellFrame_encSety {bank : Int} (h0 : 1 ≤ bank) (h1 : bank ≤ 6) : CellFrame (.low, [encSety bank]) := by
  obtain ⟨y, -, hy⟩ := decode_encSety h0 h1
  exact ⟨_, rfl, .inl ⟨y, hy⟩⟩

theorem cellFrame_encSetx {column : Int} (h0 : 1 ≤ column) (h1 : column ≤ 14) :
    CellFrame (.low, [encSetx column]) := by
  obtain ⟨x, hx, hdec⟩ := decode_encSetx h0 h1
  exact ⟨_, rfl, .inr ⟨x, hdec, by omega⟩⟩

theorem txBytes_data_length (inverse : Bool) (payload : List Byte) :
    (txBytes inverse .data payload).length = payload.length := by
  cases inverse
  · rfl
  · exact List.length_map _

theorem cellFrame_data {inverse : Bool} {payload : List Byte} (h : payload.length % 6 = 0) :
    CellFrame (.high, txBytes inverse .data payload) := by
  simpa only [CellFrame, txBytes_data_length] using h

/-- The cursor commands of (1,1) and a whole frame of data are cell frames (R136, R137). -/
theorem cellFrames_fromHome {inverse : Bool} {payload : List Byte} (h : payload.length = 504) :
    ∀ f ∈ [(Level.low, [encSety 1]), (.low, [encSetx 1]), (.high, txBytes inverse .data payload)],
      CellFrame f := by
  simp only [List.forall_mem_cons]
  exact ⟨cellFrame_encSety (by decide) (by decide), cellFrame_encSetx (by decide) (by decide),
    cellFrame_data (by omega), by simp⟩

/-- The transfers of a request are frames, and of an accepted one they are cell frames. -/
theorem transferEvents_framed (i : Instr) (s : State) :
    ∃ frames, transferEvents i s.cfg.csSoft s.inverse = framed s.cfg.csSoft frames ∧
      (turnedAway i s = none → ∀ f ∈ frames, CellFrame f) := by
  cases i with
  | clear =>
    exact ⟨_, frameFromHome_framed _ _ _, fun _ => cellFrames_fromHome List.length_replicate⟩
  | cursor bank column =>
    refine ⟨_, commandEvents_framed _ _ _, fun ha => ?_⟩
    have hr : cursorInRange bank column = true := by
      simp only [turnedAway] at ha
      split at ha
      · split at ha
        · assumption
        · cases ha
      · cases ha
    obtain ⟨h1, h2, h3, h4⟩ := (cursorInRange_iff bank column).1 hr
    simp only [List.map_cons, List.map_nil, List.forall_mem_cons]
    exact ⟨cellFrame_encSety h1 h2, cellFrame_encSetx h3 h4, by simp⟩
  | printstring text =>
    refine ⟨_, printStringEvents_framed _ _ _, fun _ f hf => ?_⟩
    obtain ⟨c, hc, rfl⟩ := List.mem_map.1 hf
    obtain ⟨ch, -, hch⟩ := List.mem_filterMap.1 (textCells_eq text ▸ hc)
    exact cellFrame_data (by rw [cell_length hch])
  | printimage pixels =>
    refine ⟨_, frameFromHome_framed _ _ _, fun ha => cellFrames_fromHome ?_⟩
    simp only [turnedAway] at ha
    split at ha
    · split at ha
      · assumption
      · cases ha
    · cases ha
  | _ => exact ⟨[], rfl, by simp⟩

/-- The events of a request other than REINIT: its transfers, or BACKLIGHT's one drive. -/
theorem eventsOf_request {i : Instr} (s : State) (hr : i ≠ .reinit) :
    eventsOf (requestActions i s) = transferEvents i s.cfg.csSoft s.inverse ∨
      ∃ level, eventsOf (requestActions i s) = [.pin .bl level] := by
  cases i with
  | reinit => exact absurd rfl hr
  | backlight on => exact .inr ⟨_, rfl⟩
  | clear => exact .inl (eventsOf_emitAll _)
  | cursor bank column => exact .inl (eventsOf_emitAll _)
  | printstring text => exact .inl (eventsOf_emitAll _)
  | printimage pixels => exact .inl (eventsOf_emitAll _)
  | _ => exact .inl rfl

/-- A request other than REINIT drives no reset line, and the chip-select only where software manages it. -/
theorem request_drives {i : Instr} {s : State} {e : Event} {line : Line} (hr : i ≠ .reinit)
    (he : e ∈ eventsOf (requestActions i s)) (hd : e.drives line = true) :
    line ≠ .rst ∧ (line = .cs → s.cfg.csSoft = true) := by
  rcases eventsOf_request s hr with h | ⟨level, h⟩ <;> rw [h] at he
  · obtain ⟨frames, hf, -⟩ := transferEvents_framed i s
    exact framed_drives (hf ▸ he) hd
  · obtain rfl := List.mem_singleton.1 he
    obtain rfl := of_decide_eq_true hd
    simp

/-- The opening of REINIT drives the chip-select only where software manages it (R131 steps 2 and 5). -/
theorem openingEvents_drives_cs {s : State} {e : Event} (he : e ∈ openingEvents s)
    (hd : e.drives .cs = true) : s.cfg.csSoft = true := by
  cases hc : s.cfg.csSoft with
  | true => rfl
  | false =>
    cases hb : s.busOpen <;> simp [openingEvents, hb, hc, acquiredLines] at he <;>
      rcases he with rfl | rfl | rfl | rfl | rfl | rfl <;> simp [Event.drives] at hd

/-- Every request drives the chip-select only where software manages it (R15, R19). -/
theorem request_drives_cs {i : Instr} {s : State} {e : Event} (he : e ∈ eventsOf (requestActions i s))
    (hd : e.drives .cs = true) : s.cfg.csSoft = true := by
  by_cases hr : i = .reinit
  · subst hr
    rw [requestActions, eventsOf_reinit, clearEvents, frameFromHome_framed, commandEvents_framed,
      commandEvents_framed] at he
    simp only [List.mem_append] at he
    rcases he with h | h | h | h
    · exact openingEvents_drives_cs h hd
    all_goals exact (framed_drives h hd).2 rfl
  · exact (request_drives hr he hd).2 rfl

end Sys2Proof.Machine
end

section
/-! What an instruction that answers a next state has done, said once for every row: a request has done an
initial part of its actions (R12, R165), a bus unit has delivered one byte (R110), an internal function has left its
result (R67) or an initial part of its frame (R120). -/

namespace Sys2Proof.Machine

/-- A request that answers a next state has done an initial part of its actions, none of them if it was
turned away; only a REINIT that failed writes a flag besides. -/
theorem request_prefix {i : Instr} {s t : State} (hi : i.isRequest = true) (h : exec i s = .next t) :
    ∃ as, as <+: requestActions i s ∧ (as = [] ∨ turnedAway i s = none) ∧
      replay s.cfg.resetPulseOk (eventsOf as) s.panel = .ok t.panel ∧ t.cfg = s.cfg ∧
      t.inverse = (flagsOf as s).inverse ∧ t.backlightOn = (flagsOf as s).backlightOn ∧
      t.busOpen = (flagsOf as s).busOpen ∧ (i ≠ .reinit → t.phase = (flagsOf as s).phase) := by
  rcases request_next hi h with
    ⟨st, -, -, rfl⟩ | ⟨ha, p, hp, rfl⟩ | ⟨ha, as, e, as', rest, p, n, hsplit, -, hp, rfl⟩
  · exact ⟨[], List.nil_prefix, .inl rfl, rfl, rfl, rfl, rfl, rfl, fun _ => rfl⟩
  · exact ⟨_, List.prefix_rfl, .inr ha, hp, by simp, rfl, rfl, rfl, fun _ => rfl⟩
  · refine ⟨as, ⟨_, hsplit.symm⟩, .inr ha, ?_⟩
    by_cases hr : i = .reinit
    · rw [if_pos hr]
      exact ⟨hp, by simp, rfl, rfl, rfl, fun h => absurd hr h⟩
    · rw [if_neg hr]
      exact ⟨hp, by simp, rfl, rfl, rfl, fun _ => rfl⟩

theorem eventsOf_prefix {as bs : List Action} (h : as <+: bs) : eventsOf as <+: eventsOf bs := by
  obtain ⟨cs, rfl⟩ := h
  exact ⟨eventsOf cs, (eventsOf_append as cs).symm⟩

/-- A byte arrived at the controller. -/
theorem commandArrives_next {c : Byte} {s t : State} (h : commandArrives c s = .next t) :
    ∃ p, recvByte (.val .low) c s.panel = .ok p ∧ t = s.setPanel p := by
  simp only [commandArrives] at h
  split at h
  · next p hp => injection h with h; exact ⟨p, hp, h.symm⟩
  · cases h

/-- A stand-alone WRITE that answers a next state has done an initial part of its frame and written no
flag (R120). -/
theorem write_prefix {mode : Mode} {payload : List Byte} {s t : State}
    (h : exec (.write mode payload) s = .next t) :
    ∃ es, es <+: writeEvents s.cfg.csSoft s.inverse mode payload ∧
      replay s.cfg.resetPulseOk es s.panel = .ok t.panel ∧ t.cfg = s.cfg ∧ t.phase = s.phase ∧
      t.inverse = s.inverse ∧ t.backlightOn = s.backlightOn ∧ t.busOpen = s.busOpen := by
  cases payload with
  | nil => cases h
  | cons c cs =>
    rcases concludeWrite_next h with hu | ⟨u, n, hu, rfl⟩
    · obtain ⟨p, hp, rfl⟩ := runActions_done hu
      rw [eventsOf_emitAll] at hp
      exact ⟨_, List.prefix_rfl, hp, by simp, by simp, by simp, by simp, by simp⟩
    · obtain ⟨as, e, as', rest, p, hsplit, -, hp, rfl⟩ := runActions_failed hu
      have hev := emitAll_isEvent (writeEvents s.cfg.csSoft s.inverse mode (c :: cs))
      rw [hsplit, List.all_append, Bool.and_eq_true] at hev
      have hpre := eventsOf_prefix ⟨_, hsplit.symm⟩
      rw [eventsOf_emitAll] at hpre
      exact ⟨_, hpre, hp, by simp, by simp [flagsOf_events s hev.1], by simp [flagsOf_events s hev.1],
        by simp [flagsOf_events s hev.1], by simp [flagsOf_events s hev.1]⟩

/-- Everything an instruction that is no request can have done. -/
theorem exec_next_of_not_request {i : Instr} {s t : State} (hi : i.isRequest = false)
    (h : exec i s = .next t) :
    (∃ dc c p, recvByte dc c s.panel = .ok p ∧ t = s.setPanel p) ∨ (∃ r, t = s.setReturned r) ∨
    ∃ mode payload, i = .write mode payload := by
  cases i with
  | funcsetExt => exact .inl ⟨_, _, commandArrives_next h⟩
  | setvop v => exact .inl ⟨_, _, commandArrives_next h⟩
  | setbias => exact .inl ⟨_, _, commandArrives_next h⟩
  | funcsetBasic => exact .inl ⟨_, _, commandArrives_next h⟩
  | dispAllon => exact .inl ⟨_, _, commandArrives_next h⟩
  | dispNormal => exact .inl ⟨_, _, commandArrives_next h⟩
  | sety y => exact .inl ⟨_, _, commandArrives_next h⟩
  | setx x => exact .inl ⟨_, _, commandArrives_next h⟩
  | datawr d => injection h with h; exact .inl ⟨.val .high, d, _, rfl, h.symm⟩
  | glyph n => injection h with h; exact .inr (.inl ⟨_, h.symm⟩)
  | cursorcmds bank column => injection h with h; exact .inr (.inl ⟨_, h.symm⟩)
  | write mode payload => exact .inr (.inr ⟨mode, payload, rfl⟩)
  | _ => cases hi

end Sys2Proof.Machine
end

section
/-! O51: who writes the configuration, the phase, the flags, the bus and the reset line. -/

namespace Sys2Proof.Machine

/-- What an initial part of a request's actions writes to the flags: BACKLIGHT and INVERSE write their own (R134,
R135), the other requests but REINIT none. -/
theorem flagsOf_request_prefix {i : Instr} {s : State} {as : List Action} (hr : i ≠ .reinit)
    (h : as <+: requestActions i s) :
    flagsOf as s = s ∨ (∃ on, i = .backlight on ∧ flagsOf as s = s.setBacklightOn on) ∨
      ∃ on, i = .inverse on ∧ flagsOf as s = s.setInverse on := by
  have events : ∀ {es}, as <+: emitAll es → flagsOf as s = s := by
    intro es h
    obtain ⟨bs, hbs⟩ := h
    have hev := emitAll_isEvent es
    rw [← hbs, List.all_append, Bool.and_eq_true] at hev
    exact flagsOf_events s hev.1
  cases i with
  | reinit => exact absurd rfl hr
  | clear => exact .inl (events h)
  | cursor bank column => exact .inl (events h)
  | printstring text => exact .inl (events h)
  | printimage pixels => exact .inl (events h)
  | backlight on =>
    rcases List.prefix_cons_iff.1 h with rfl | ⟨bs, rfl, hbs⟩
    · exact .inl rfl
    · refine .inr (.inl ⟨on, rfl, ?_⟩)
      rcases List.prefix_cons_iff.1 hbs with rfl | ⟨cs, rfl, hcs⟩
      · rfl
      · rw [List.prefix_nil.1 hcs]; rfl
  | inverse on =>
    rcases List.prefix_cons_iff.1 h with rfl | ⟨bs, rfl, hbs⟩
    · exact .inl rfl
    · rw [List.prefix_nil.1 hbs]
      exact .inr (.inr ⟨on, rfl, rfl⟩)
  | _ => exact .inl (by rw [List.prefix_nil.1 h]; rfl)

/-- A request other than REINIT keeps the phase, the bus, the reset line and `ctrl_reset_done` (R11, R16,
R181). -/
theorem request_keeps_reset {i : Instr} {s t : State} (hi : i.isRequest = true) (hr : i ≠ .reinit)
    (h : exec i s = .next t) :
    t.phase = s.phase ∧ t.busOpen = s.busOpen ∧ t.panel.rst = s.panel.rst ∧
      t.panel.ctrlResetDone = s.panel.ctrlResetDone := by
  obtain ⟨as, has, -, hp, -, -, -, hbus, hphase⟩ := request_prefix hi h
  have hreset := replay_keeps_reset (fun e he => by
    by_contra hd
    exact (request_drives hr ((eventsOf_prefix has).subset he) (by simpa using hd)).1 rfl) hp
  have hflags : (flagsOf as s).phase = s.phase ∧ (flagsOf as s).busOpen = s.busOpen := by
    rcases flagsOf_request_prefix hr has with hf | ⟨on, -, hf⟩ | ⟨on, -, hf⟩ <;> rw [hf] <;> exact ⟨rfl, rfl⟩
  exact ⟨(hphase hr).trans hflags.1, hbus.trans hflags.2, hreset⟩

/-- A request writes `inverse` only if it is INVERSE, and `backlightOn` only if it is BACKLIGHT (R13, R14,
R132). -/
theorem request_keeps_modes {i : Instr} {s t : State} (hi : i.isRequest = true) (h : exec i s = .next t) :
    ((∀ on, i ≠ .inverse on) → t.inverse = s.inverse) ∧
    ((∀ on, i ≠ .backlight on) → t.backlightOn = s.backlightOn) := by
  obtain ⟨as, has, -, -, -, hinv, hbl, -, -⟩ := request_prefix hi h
  rw [hinv, hbl]
  by_cases hr : i = .reinit
  · subst hr
    obtain ⟨bs, hbs⟩ := has
    have hkeep := reinitActions_keepsModes s
    rw [← show as ++ bs = reinitActions s from hbs, List.all_append, Bool.and_eq_true] at hkeep
    obtain ⟨h1, h2⟩ := flagsOf_keepsModes s hkeep.1
    exact ⟨fun _ => h1, fun _ => h2⟩
  · rcases flagsOf_request_prefix hr has with hf | ⟨on, rfl, hf⟩ | ⟨on, rfl, hf⟩ <;> rw [hf]
    · exact ⟨fun _ => rfl, fun _ => rfl⟩
    · exact ⟨fun _ => rfl, fun hne => absurd rfl (hne on)⟩
    · exact ⟨fun hne => absurd rfl (hne on), fun _ => rfl⟩

/-- Settles O51, row by row: a request does an initial part of its actions, a bus unit or a stand-alone WRITE touches
the panel alone and drives no reset line, and the other internal functions touch their result alone. -/
theorem onlyTheirWriters : Obligations.OnlyTheirWriters := by
  intro i s t h
  cases hi : i.isRequest with
  | true =>
    exact ⟨(request_trace hi h).1, fun hr => request_keeps_reset hi hr h, request_keeps_modes hi h⟩
  | false =>
    rcases exec_next_of_not_request hi h with ⟨dc, c, p, hp, rfl⟩ | ⟨r, rfl⟩ | ⟨mode, payload, rfl⟩
    · obtain ⟨hrst, -, -, -, hdone⟩ := recvByte_lines hp
      exact ⟨rfl, fun _ => ⟨rfl, rfl, hrst, hdone⟩, fun _ => rfl, fun _ => rfl⟩
    · exact ⟨rfl, fun _ => ⟨rfl, rfl, rfl, rfl⟩, fun _ => rfl, fun _ => rfl⟩
    · obtain ⟨es, hes, hp, hcfg, hphase, hinv, hbl, hbus⟩ := write_prefix h
      have hreset := replay_keeps_reset (fun e he => by
        have hmem := hes.subset he
        rw [writeEvents_eq] at hmem
        by_contra hd
        exact (frameOf_drives hmem (by simpa using hd)).1 rfl) hp
      exact ⟨hcfg, fun _ => ⟨hphase, hbus, hreset⟩, fun _ => hinv, fun _ => hbl⟩

end Sys2Proof.Machine
end

section
/-! O47: no step on any input breaks `Sound`. -/

namespace Sys2Proof.Machine

/-- `Sound` reads the configuration and the panel alone. -/
theorem Sound.of_setPanel {s t : State} (hc : t.cfg = s.cfg) (h : Sound (s.setPanel t.panel)) : Sound t :=
  ⟨h.memory, fun hd => hc ▸ h.released hd, h.inReset, fun hn => h.noSelect (hc ▸ hn)⟩

theorem Sound.setInbox {s : State} (h : Sound s) (inputs : List Input) : Sound (s.setInbox inputs) :=
  h.of_setPanel (s := s) rfl

/-- A drive of a line keeps `Sound`, where the chip-select is driven only if software manages it (R27). -/
theorem Sound.drive {s : State} {line : Line} (level : Level) (hs : Sound s)
    (hcs : line = .cs → s.cfg.csSoft = true) :
    Sound (s.setPanel (drive s.cfg.resetPulseOk line level s.panel)) := by
  obtain ⟨hmem, hrel, hres, hsel⟩ := hs
  cases line with
  | dc => exact ⟨hmem, hrel, hres, hsel⟩
  | bl => exact ⟨hmem, hrel, hres, hsel⟩
  | cs => exact ⟨hmem, hrel, hres, fun hn => absurd (hcs rfl) (by simp [show s.cfg.csSoft = false from hn])⟩
  | rst =>
    cases level with
    | low => exact ⟨rfl, fun h => absurd h Bool.false_ne_true, fun _ => ⟨rfl, rfl, rfl, rfl, rfl, rfl, rfl⟩, hsel⟩
    | high =>
      by_cases hlow : s.panel.rst = .val .low
      · have hdone : s.panel.ctrlResetDone = false := by
          by_contra hd
          have := (hrel (by simpa using hd)).1
          simp [hlow] at this
        exact ⟨hmem, fun h => ⟨rfl, by simpa [Machine.drive, hlow] using h⟩, fun _ => hres hdone, hsel⟩
      · refine ⟨hmem, fun h => ⟨rfl, (hrel ?_).2⟩, fun h => hres ?_, hsel⟩ <;>
          simpa [Machine.drive, hlow] using h

/-- A received byte keeps `Sound` (R45, R110). -/
theorem Sound.recvByte {s : State} {dc : Reg Level} {c : Byte} {p : Panel} (hs : Sound s)
    (h : recvByte dc c s.panel = .ok p) : Sound (s.setPanel p) := by
  obtain ⟨hrst, -, -, hcs, hdone⟩ := recvByte_lines h
  refine ⟨recvByte_wf h hs.memory, ?_, ?_, fun hn => hcs.trans (hs.noSelect hn)⟩
  · intro hd
    obtain ⟨h1, h2⟩ := hs.released (hdone ▸ hd)
    exact ⟨hrst.trans h1, h2⟩
  · intro hd
    have hd : s.panel.ctrlResetDone = false := hdone ▸ hd
    have hdeaf : s.panel.listening = false := by simp [Panel.listening, hd]
    obtain ⟨hh, hv, hb, hm, -, -, -⟩ := hs.inReset hd
    match dc, h with
    | .val .low, h =>
      rw [show p = s.panel.lost by simpa [Machine.recvByte, recvCommand_deaf hdeaf] using h.symm]
      exact ⟨rfl, rfl, rfl, rfl, rfl, rfl, rfl⟩
    | .val .high, h =>
      rw [show p = { s.panel with ddram := [], ay := .bot, ax := .bot } by
        simpa [Machine.recvByte, recvData_deaf c hdeaf] using h.symm]
      exact ⟨hh, hv, hb, hm, rfl, rfl, rfl⟩

/-- A trace that drives the chip-select only if software manages it keeps `Sound`. -/
theorem Sound.replay {s t : State} {es : List Event} (hs : Sound s) (hc : t.cfg = s.cfg)
    (hcs : ∀ e ∈ es, e.drives .cs = true → s.cfg.csSoft = true)
    (h : replay s.cfg.resetPulseOk es s.panel = .ok t.panel) : Sound t := by
  refine Sound.of_setPanel hc (replay_keeps (P := fun p => Sound (s.setPanel p)) ?drive ?byte hs h)
  case drive =>
    intro e he line level p hd hp
    exact hp.drive level (fun hl => hcs e he (hl ▸ hd))
  case byte => exact fun dc c p q hp hq => hp.recvByte hq

/-- Every instruction keeps `Sound`. -/
theorem Sound.exec {i : Instr} {s t : State} (hs : Sound s) (h : exec i s = .next t) : Sound t := by
  cases hi : i.isRequest with
  | true =>
    obtain ⟨as, has, -, hp, hc, -⟩ := request_prefix hi h
    exact hs.replay hc (fun e he => request_drives_cs ((eventsOf_prefix has).subset he)) hp
  | false =>
    rcases exec_next_of_not_request hi h with ⟨dc, c, p, hp, rfl⟩ | ⟨r, rfl⟩ | ⟨mode, payload, rfl⟩
    · exact hs.recvByte hp
    · exact hs.of_setPanel (s := s) rfl
    · obtain ⟨es, hes, hp, hc, -⟩ := write_prefix h
      refine hs.replay hc (fun e he hd => ?_) hp
      have hmem := hes.subset he
      rw [writeEvents_eq] at hmem
      exact (frameOf_drives hmem hd).2 rfl

/-- Settles O47: a step runs an instruction, or delivers a reserved byte, or leaves the state alone. -/
theorem everyStepKeepsSound : Obligations.EveryStepKeepsSound := by
  intro s t hs h
  cases hin : s.inbox with
  | nil =>
    rw [step_of_inbox_nil hin] at h
    injection h with h
    exact h ▸ hs
  | cons inp rest =>
    cases hdec : decode s.panel.h inp with
    | ok i =>
      rw [step_of_decode_ok hin hdec] at h
      exact (hs.setInbox rest).exec h
    | error e =>
      rw [step_of_decode_error hin hdec] at h
      cases e with
      | incompletePayload len available => cases h
      | reservedCommand set c =>
        obtain ⟨p, hp, rfl⟩ := commandArrives_next h
        exact (hs.setInbox rest).recvByte hp

end Sys2Proof.Machine
end

section
/-! The level of the mode line along a trace: what `dcAfter` reads off an event is where the event leaves the
line (`10_state.md` R31). -/

namespace Sys2Proof.Machine

theorem driveAll_dc (b : Bool) (level : Level) (lines : List Line) (p : Panel) :
    (driveAll b level lines p).dc = if lines.contains Line.dc then .val level else p.dc := by
  induction lines generalizing p with
  | nil => rfl
  | cons line lines ih => cases line <;> cases level <;> simp [driveAll, ih, drive]

theorem applyEvent_dc {b : Bool} {e : Event} {p q : Panel} (h : applyEvent b e p = .ok q) :
    q.dc = dcAfter e p.dc := by
  cases e with
  | gpioConfigure lines level => injection h with h; exact h ▸ driveAll_dc b level lines p
  | pin line level => injection h with h; subst h; cases line <;> cases level <;> rfl
  | xfer bytes => exact (deliver_lines h).2.1
  | _ => injection h with h; exact h ▸ rfl

end Sys2Proof.Machine
end

section
/-! A working display under the events of the operations (`10_state.md` R34, `20_memory.md` R49): cursor
commands and whole cells of data keep it working, at every event and not only at the end of a frame. -/

namespace Sys2Proof.Machine

/-- The trace drives no reset line and transfers only what `CellFrame` allows, from the level the mode line has
before it. -/
def CellTrace : Reg Level → List Event → Prop
  | _, [] => True
  | dc, e :: es =>
    e.drives .rst = false ∧ (∀ bytes, e = .xfer bytes → ∃ level, dc = .val level ∧ CellFrame (level, bytes)) ∧
      CellTrace (dcAfter e dc) es

theorem CellTrace.of_prefix {dc : Reg Level} {es fs : List Event} (h : es <+: fs) (hfs : CellTrace dc fs) :
    CellTrace dc es := by
  induction es generalizing dc fs with
  | nil => trivial
  | cons e es ih =>
    obtain ⟨gs, rfl⟩ := h
    obtain ⟨hrst, hxfer, hrest⟩ := hfs
    exact ⟨hrst, hxfer, ih ⟨gs, rfl⟩ hrest⟩

theorem CellTrace.framed {soft : Bool} {dc : Reg Level} {frames : List (Level × List Byte)}
    (h : ∀ f ∈ frames, CellFrame f) : CellTrace dc (framed soft frames) := by
  induction frames generalizing dc with
  | nil => trivial
  | cons f frames ih =>
    obtain ⟨hf, hfs⟩ := List.forall_mem_cons.1 h
    cases soft <;> simp [frameOf, CellTrace, Event.drives, dcAfter, hf, ih hfs]

/-- The events of an accepted request other than REINIT. -/
theorem CellTrace.request {i : Instr} {s : State} (hr : i ≠ .reinit) (ha : turnedAway i s = none)
    (dc : Reg Level) : CellTrace dc (eventsOf (requestActions i s)) := by
  rcases eventsOf_request s hr with h | ⟨level, h⟩ <;> rw [h]
  · obtain ⟨frames, hf, hcell⟩ := transferEvents_framed i s
    exact hf ▸ CellTrace.framed (hcell ha)
  · simp [CellTrace, Event.drives]

/-- Data bytes at a known counter leave no cell unspecified that was not (R45). -/
theorem recvAll_keeps_known {p : Panel} {y : Fin 6} {x : Fin 84} {a : Nat} (ds : List Byte)
    (hl : p.listening = true) (hy : p.ay = .val y) (hx : p.ax = .val x)
    (ha : (Memory.read p.ddram a).known = true) :
    (Memory.read (recvAll ds p).ddram a).known = true := by
  induction ds generalizing p y x with
  | nil => exact ha
  | cons d ds ih =>
    have hs := recvData_stores d hl hy hx
    refine ih (p := recvData d p) (by simpa using hl) (by rw [hs]) (by rw [hs]) ?_
    rw [hs]
    by_cases h : a = ddramIndex y x
    · rw [h, Memory.read_write_same]; rfl
    · rwa [Memory.read_write_other _ _ h]

theorem DisplayWorking.drive {cfg : Cfg} {p : Panel} {line : Line} (b : Bool) (level : Level)
    (hw : DisplayWorking cfg p) (hl : line ≠ .rst) : DisplayWorking cfg (drive b line level p) := by
  obtain ⟨hlis, hh, hv, hb, hm, hc, hf⟩ := hw
  cases line with
  | rst => exact absurd rfl hl
  | dc => exact ⟨hlis, hh, hv, hb, hm, hc, hf⟩
  | bl => exact ⟨hlis, hh, hv, hb, hm, hc, hf⟩
  | cs => exact ⟨hlis, hh, hv, hb, hm, hc, hf⟩

/-- A cell frame's transfer: SETY and SETX set the counter to a cell, and whole cells of data move it by
multiples of six, the wrap D15 included (R47, R49). -/
theorem DisplayWorking.deliver {cfg : Cfg} {p q : Panel} {level : Level} {bytes : List Byte}
    (hw : DisplayWorking cfg p) (hf : CellFrame (level, bytes))
    (h : deliver (.val level) bytes p = .ok q) : DisplayWorking cfg q := by
  obtain ⟨hlis, hh, hv, hb, hm, ⟨y, x, hy, hx, hx6⟩, hfill⟩ := hw
  cases level with
  | low =>
    obtain ⟨c, rfl, ⟨y', hdec⟩ | ⟨x', hdec, hx'⟩⟩ := hf <;>
      rw [deliver_command, recvCommand_listening hlis (hh ▸ hdec)] at h <;> injection h with h <;> subst h
    · exact ⟨hlis, hh, hv, hb, hm, ⟨y', x, rfl, hx, hx6⟩, hfill⟩
    · exact ⟨hlis, hh, hv, hb, hm, ⟨y, x', hy, rfl, hx'⟩, hfill⟩
  | high =>
    rw [deliver_data] at h
    injection h with h
    subst h
    obtain ⟨y', x', hy', hx', hidx⟩ := recvAll_counter bytes hlis hy hx
    have hlen : bytes.length % 6 = 0 := hf
    have hx'6 : x'.val % 6 = 0 := by unfold ddramIndex at hidx; omega
    exact ⟨by simpa using hlis, by simpa using hh, by simpa using hv, by simpa using hb, by simpa using hm,
      ⟨y', x', hy', hx', hx'6⟩, fun a ha => recvAll_keeps_known bytes hlis hy hx (hfill a ha)⟩

theorem DisplayWorking.applyEvent {cfg : Cfg} {b : Bool} {e : Event} {p q : Panel}
    (hw : DisplayWorking cfg p) (hrst : e.drives .rst = false)
    (hxfer : ∀ bytes, e = .xfer bytes → ∃ level, p.dc = .val level ∧ CellFrame (level, bytes))
    (h : applyEvent b e p = .ok q) : DisplayWorking cfg q := by
  cases e with
  | gpioConfigure lines level =>
    injection h with h
    refine h ▸ driveAll_keeps (P := DisplayWorking cfg) (fun line hline p hp => hp.drive b level ?_) hw
    rintro rfl
    exact of_decide_eq_false hrst hline
  | pin line level => injection h with h; exact h ▸ hw.drive b level (of_decide_eq_false hrst)
  | xfer bytes =>
    obtain ⟨level, hdc, hf⟩ := hxfer bytes rfl
    exact hw.deliver hf (hdc ▸ h)
  | _ => injection h with h; exact h ▸ hw

theorem DisplayWorking.replay {cfg : Cfg} {b : Bool} {es : List Event} {p q : Panel}
    (hw : DisplayWorking cfg p) (hes : CellTrace p.dc es) (h : replay b es p = .ok q) :
    DisplayWorking cfg q := by
  induction es generalizing p with
  | nil => injection h with h; exact h ▸ hw
  | cons e es ih =>
    obtain ⟨hrst, hxfer, hrest⟩ := hes
    simp only [Machine.replay] at h
    split at h
    · next r hr => exact ih (hw.applyEvent hrst hxfer hr) (applyEvent_dc hr ▸ hrest) h
    · cases h

end Sys2Proof.Machine
end

section
/-! O48: what every host request keeps. -/

namespace Sys2Proof.Machine

/-- The block drives the lines: the reset line released, and the chip-select exactly where software manages it
(the field `lines` of `HostInv`). -/
def LinesHeld (soft : Bool) (p : Panel) : Prop :=
  p.rst = .val .high ∧ p.dc.known = true ∧ p.bl.known = true ∧ p.cs.known = soft

/-- A trace that drives no reset line, and the chip-select only where software manages it, keeps the lines
held. -/
theorem LinesHeld.replay {soft b : Bool} {es : List Event} {p q : Panel} (hp : LinesHeld soft p)
    (hes : ∀ e ∈ es, ∀ line, e.drives line = true → line ≠ .rst ∧ (line = .cs → soft = true))
    (h : replay b es p = .ok q) : LinesHeld soft q := by
  refine replay_keeps (P := LinesHeld soft) ?drive ?byte hp h
  case drive =>
    rintro e he line level r hd ⟨hrst, hdc, hbl, hcs⟩
    obtain ⟨hne, hsoft⟩ := hes e he line hd
    cases line with
    | rst => exact absurd rfl hne
    | dc => exact ⟨hrst, rfl, hbl, hcs⟩
    | bl => exact ⟨hrst, hdc, rfl, hcs⟩
    | cs => exact ⟨hrst, hdc, hbl, (hsoft rfl).symm⟩
  case byte =>
    rintro dc c r r' hr h
    obtain ⟨h1, h2, h3, h4, -⟩ := recvByte_lines h
    simpa only [LinesHeld, h1, h2, h3, h4] using hr

/-- `HostInv` reads the configuration, the phase, `bus_open` and the panel alone. -/
theorem HostInv.of_same {s t : State} (h : HostInv s) (hc : t.cfg = s.cfg) (hph : t.phase = s.phase)
    (hb : t.busOpen = s.busOpen) (hp : t.panel = s.panel) : HostInv t := by
  obtain ⟨h1, h2, h3, h4, h5⟩ := h
  constructor
  · rwa [hph]
  · rwa [hph, hc]
  · rwa [hph, hb]
  · rwa [hph, hc, hp]
  · rwa [hph, hc, hp]

/-- Before `Ready`, and not inside REINIT, `HostInv` asks nothing. -/
theorem HostInv.of_uninitialized {s : State} (h : s.phase = .uninitialized) : HostInv s := by
  constructor <;> simp [h]

theorem turnedAway_reinit (s : State) :
    turnedAway .reinit s = none ↔ contrastLegal s.cfg.contrast = true := by
  simp [turnedAway]

/-- The panel of a completed REINIT is a working display, where every cell holds a byte (R34). -/
theorem displayWorking_reinitialised (s : State) {m : Memory}
    (hm : ∀ a, a < 504 → (Memory.read m a).known = true) : DisplayWorking s.cfg (reinitialised s m) where
  listening := rfl
  basic := rfl
  contrast := rfl
  bias := rfl
  normal := rfl
  counter := ⟨0, 0, rfl, rfl, rfl⟩
  filled := hm

/-- The chip-select a completed REINIT leaves is known exactly where software manages it. -/
theorem Sound.reinit_select {s : State} (hs : Sound s) :
    (if s.cfg.csSoft then Reg.val Level.high else s.panel.cs).known = s.cfg.csSoft := by
  cases hc : s.cfg.csSoft with
  | true => rfl
  | false => rw [hs.noSelect hc]; rfl

/-- A completed REINIT establishes `HostInv` (R34, R183). -/
theorem Sound.hostInv_of_reinit_done {s : State} {p : Panel} (hs : Sound s)
    (hc : contrastLegal s.cfg.contrast = true)
    (hp : Machine.replay s.cfg.resetPulseOk (eventsOf (reinitActions s)) s.panel = .ok p) :
    HostInv ((landed (reinitActions s) s p).report .ok) := by
  obtain ⟨h0, h1⟩ := (contrastLegal_iff _).1 hc
  have hpanel : LinesHeld s.cfg.csSoft p ∧ (s.cfg.resetPulseOk = true → DisplayWorking s.cfg p) := by
    cases hb : s.cfg.resetPulseOk with
    | true =>
      rw [replay_reinit hb h0 h1] at hp
      injection hp with hp
      exact hp ▸ ⟨⟨rfl, rfl, rfl, hs.reinit_select⟩, fun _ =>
        displayWorking_reinitialised s fun a ha => by rw [read_clearedMemory s.inverse ha]; rfl⟩
    | false =>
      rw [replay_reinit_deaf hb] at hp
      injection hp with hp
      exact hp ▸ ⟨⟨rfl, rfl, rfl, hs.reinit_select⟩, by simp⟩
  constructor <;> simp only [State.report_phase, State.report_cfg, State.report_busOpen, State.report_panel,
    landed_phase, landed_cfg, landed_busOpen, landed_panel, flagsOf_reinit]
  · exact Phase.noConfusion
  · exact fun _ => hc
  · exact fun _ => trivial
  · exact fun _ => hpanel.1
  · exact fun _ => hpanel.2

/-- REINIT keeps `HostInv`: turned away it changes nothing, a failed one ends in `Uninitialized` (R165). -/
theorem HostInv.reinit {s t : State} (hs : Sound s) (hh : HostInv s) (h : exec .reinit s = .next t) :
    HostInv t := by
  rcases request_next rfl h with ⟨st, -, -, rfl⟩ | ⟨ha, p, hp, rfl⟩ | ⟨-, as, e, as', rest, p, n, -, -, -, rfl⟩
  · exact hh.of_same rfl rfl rfl rfl
  · exact hs.hostInv_of_reinit_done ((turnedAway_reinit s).1 ha) hp
  · exact HostInv.of_uninitialized rfl

/-- Every other request keeps `HostInv`, also where a call of it fails: it does an initial part of its
actions. -/
theorem HostInv.request {i : Instr} {s t : State} (hh : HostInv s) (hi : i.isRequest = true)
    (hr : i ≠ .reinit) (h : exec i s = .next t) : HostInv t := by
  obtain ⟨hphase, hbus, -, -⟩ := request_keeps_reset hi hr h
  obtain ⟨as, has, ha, hp, hc, -⟩ := request_prefix hi h
  rcases ha with rfl | ha
  · injection hp with hp
    exact hh.of_same hc hphase hbus hp.symm
  obtain ⟨hset, hlegal, hopen, hlines, hdisp⟩ := hh
  have hpre := eventsOf_prefix has
  constructor <;> rw [hphase]
  · exact hset
  · exact hc ▸ hlegal
  · exact hbus ▸ hopen
  · intro hready
    rw [hc]
    exact LinesHeld.replay (hlines hready) (fun e he line hd => request_drives hr (hpre.subset he) hd) hp
  · intro hready hpulse
    rw [hc] at hpulse ⊢
    exact (hdisp hready hpulse).replay (.of_prefix hpre (.request hr ha _)) hp

/-- Settles O48: a host step presents nothing, runs REINIT, or runs another request. -/
theorem hostStepKeepsInvariant : Obligations.HostStepKeepsInvariant := by
  intro s t hs hh hf h
  rcases hostStep_next hf h with ⟨rfl, -⟩ | ⟨i, rest, hi, hf', hexec⟩
  · exact ⟨hh, hf⟩
  · have hh' : HostInv (s.setInbox rest) := hh.of_same rfl rfl rfl rfl
    have hinbox : t.inbox = rest := (request_trace hi hexec).2.1
    refine ⟨?_, by rw [FromHost, hinbox]; exact hf'⟩
    by_cases hr : i = .reinit
    · subst hr
      exact hh'.reinit (hs.setInbox rest) hexec
    · exact hh'.request hi hr hexec

end Sys2Proof.Machine
end

section
/-! O29: the state a REINIT that returned OK leaves (`10_state.md` R34). -/

namespace Sys2Proof.Machine

/-- A REINIT that returned OK was not turned away and did all its actions (R161, R165). -/
theorem reinit_ok_done {s t : State} (h : exec .reinit s = .next t)
    (hst : t.statuses = s.statuses ++ [.ok]) :
    contrastLegal s.cfg.contrast = true ∧
      ∃ p, replay s.cfg.resetPulseOk (eventsOf (reinitActions s)) s.panel = .ok p ∧
        t = (landed (reinitActions s) s p).report .ok := by
  rcases request_next rfl h with
    ⟨st, -, hprec, rfl⟩ | ⟨ha, p, hp, rfl⟩ | ⟨-, as, e, as', rest, p, n, -, -, -, rfl⟩
  · obtain rfl : st = .ok := report_statuses_inj hst
    cases hprec
  · exact ⟨(turnedAway_reinit s).1 ha, p, hp, rfl⟩
  · simp at hst

/-- A legal contrast is the number its seven bits hold (R101). -/
theorem ofInt_contrast_toNat {contrast : Int} (h0 : 0 ≤ contrast) (h1 : contrast ≤ 127) :
    ((BitVec.ofInt 7 contrast).toNat : Int) = contrast := by
  rw [BitVec.toNat_ofInt]
  omega

/-- The backlight level in the words of R18. -/
theorem backlightLevel_eq (on activeLow : Bool) :
    backlightLevel on activeLow = if on = activeLow then .low else .high := by
  cases on <;> cases activeLow <;> rfl

/-- Settles O29: a REINIT that returned OK has replayed all its events, and a reliable one does. -/
theorem reinitEstablishesState : Obligations.ReinitEstablishesState := by
  refine ⟨fun s t hpulse h hst => ?state, fun s hrel h0 h1 => ?returns⟩
  case state =>
    obtain ⟨hc, p, hp, rfl⟩ := reinit_ok_done h hst
    obtain ⟨h0, h1⟩ := (contrastLegal_iff _).1 hc
    rw [replay_reinit hpulse h0 h1] at hp
    injection hp with hp
    subst hp
    simp only [State.report_phase, State.report_inverse, State.report_backlightOn, State.report_panel,
      State.report_busOpen, State.report_cfg, State.report_returned, State.report_inbox, landed_phase,
      landed_inverse, landed_backlightOn, landed_panel, landed_busOpen, landed_cfg, landed_returned,
      landed_inbox, flagsOf_reinit, reinitialised]
    exact ⟨trivial, trivial, trivial, trivial, trivial, congrArg _ (backlightLevel_eq _ _), trivial, trivial,
      trivial, trivial, ⟨_, rfl, ofInt_contrast_toNat h0 h1⟩, trivial, trivial, trivial, trivial,
      fun a ha => read_clearedMemory s.inverse ha, trivial, trivial, trivial⟩
  case returns =>
    have hc : contrastLegal s.cfg.contrast = true := (contrastLegal_iff _).2 ⟨h0, h1⟩
    obtain ⟨p, hp⟩ := replay_reinit_ok hc
    refine ⟨(landed (reinitActions s) s p).report .ok, ?_, by simp⟩
    simp only [exec, execReinit, hc, if_true, runActions_reliable hrel hp]
    rfl

end Sys2Proof.Machine
end

section
/-! O44: the display side is a function of what it sees of a trace (`10_state.md` R32). -/

namespace Sys2Proof.Machine

/-- The display side takes one of its inputs: a drive of its reset line, or a byte with its mode (R27, R31). -/
def receive (b : Bool) (p : Panel) : DisplayInput → Except Refusal Panel
  | .reset level => .ok (drive b .rst level p)
  | .unit dc c => recvByte dc c p

/-- The display side takes its inputs in order. -/
def receiveAll (b : Bool) (p : Panel) (inputs : List DisplayInput) : Except Refusal Panel :=
  inputs.foldlM (receive b) p

theorem receiveAll_cons_ok {b : Bool} {p q : Panel} {v : DisplayInput} (h : receive b p v = .ok q)
    (vs : List DisplayInput) : receiveAll b p (v :: vs) = receiveAll b q vs := by
  simp only [receiveAll, List.foldlM_cons, h]
  rfl

theorem receiveAll_cons_error {b : Bool} {p : Panel} {v : DisplayInput} {r : Refusal}
    (h : receive b p v = .error r) (vs : List DisplayInput) : receiveAll b p (v :: vs) = .error r := by
  simp only [receiveAll, List.foldlM_cons, h]
  rfl

theorem drive_rst_displaySide (b : Bool) (level : Level) (p : Panel) :
    drive b .rst level p.displaySide = (drive b .rst level p).displaySide := by
  cases level <;> rfl

theorem drive_displaySide {line : Line} (b : Bool) (level : Level) (p : Panel) (hl : line ≠ .rst) :
    (drive b line level p).displaySide = p.displaySide := by
  cases line with
  | rst => exact absurd rfl hl
  | dc => rfl
  | bl => rfl
  | cs => rfl

theorem recvData_displaySide (d : Byte) (p : Panel) :
    recvData d p.displaySide = (recvData d p).displaySide := by
  have hl : p.displaySide.listening = p.listening := rfl
  rcases recvData_cases d p with ⟨h, he⟩ | ⟨h, hn, he⟩ | ⟨h, y, x, hy, hx, he⟩ <;> rw [he]
  · exact recvData_deaf d (hl.trans h)
  · exact recvData_nowhere d (hl.trans h) hn
  · exact recvData_stores d (hl.trans h) hy hx

theorem recvCommand_displaySide (c : Byte) (p : Panel) :
    recvCommand c p.displaySide = (recvCommand c p).map Panel.displaySide := by
  have hl : p.displaySide.listening = p.listening := rfl
  cases hp : p.listening with
  | false => rw [recvCommand_deaf hp, recvCommand_deaf (hl.trans hp)]; rfl
  | true =>
    cases hk : decodeCommand p.h c with
    | none => rw [recvCommand_reserved hp hk, recvCommand_reserved (hl.trans hp) hk]; rfl
    | some k =>
      rw [recvCommand_listening hp hk, recvCommand_listening (hl.trans hp) hk]
      cases k <;> rfl

/-- What the controller does with a byte does not look at the other lines. -/
theorem recvByte_displaySide (dc : Reg Level) (c : Byte) (p : Panel) :
    recvByte dc c p.displaySide = (recvByte dc c p).map Panel.displaySide := by
  match dc with
  | .bot => rfl
  | .val .low => exact recvCommand_displaySide c p
  | .val .high => exact congrArg Except.ok (recvData_displaySide c p)

/-- A transfer is its bytes, one after the other. -/
theorem receiveAll_bytes (b : Bool) (dc : Reg Level) (bytes : List Byte) (p : Panel) :
    receiveAll b p.displaySide (bytes.map (DisplayInput.unit dc)) =
      (deliver dc bytes p).map Panel.displaySide := by
  induction bytes generalizing p with
  | nil => rfl
  | cons c bytes ih =>
    have h := recvByte_displaySide dc c p
    simp only [List.map_cons, deliver]
    cases hr : recvByte dc c p <;> rw [hr] at h
    · exact receiveAll_cons_error (v := .unit dc c) h _
    · exact (receiveAll_cons_ok (v := .unit dc c) h _).trans (ih _)

/-- Of lines driven together the display side sees its reset line alone. -/
theorem receiveAll_resets (b : Bool) (lines : List Line) (level : Level) (p : Panel) :
    receiveAll b p.displaySide ((Event.gpioConfigure lines level).resets.map DisplayInput.reset) =
      .ok (driveAll b level lines p).displaySide := by
  induction lines generalizing p with
  | nil => rfl
  | cons line lines ih =>
    by_cases hl : line = .rst
    · subst hl
      exact (receiveAll_cons_ok (v := .reset level)
        (congrArg Except.ok (drive_rst_displaySide b level p)) _).trans (ih _)
    · rw [driveAll, ← ih, drive_displaySide b level p hl]
      simp [Event.resets, hl]

/-- What the display side sees of one event is what the event does to it (R31). -/
theorem receiveAll_event (b : Bool) (e : Event) (p : Panel) :
    receiveAll b p.displaySide (e.resets.map DisplayInput.reset ++ e.bytes.map (DisplayInput.unit p.dc)) =
      (applyEvent b e p).map Panel.displaySide := by
  cases e with
  | gpioConfigure lines level => exact (congrArg _ (List.append_nil _)).trans (receiveAll_resets b lines level p)
  | xfer bytes => exact receiveAll_bytes b p.dc bytes p
  | pin line level =>
    cases line with
    | rst => exact congrArg Except.ok (drive_rst_displaySide b level p)
    | dc => rfl
    | bl => rfl
    | cs => rfl
  | busClose => rfl
  | busOpen _ _ => rfl
  | busClock _ => rfl

/-- The display side after a trace is what it makes of its view of the trace (R32). -/
theorem receiveAll_displayView (b : Bool) (es : List Event) (p : Panel) :
    receiveAll b p.displaySide (displayView p.dc es) = (replay b es p).map Panel.displaySide := by
  induction es generalizing p with
  | nil => rfl
  | cons e es ih =>
    have h := receiveAll_event b e p
    simp only [receiveAll] at h ih ⊢
    rw [displayView, List.foldlM_append, h, replay]
    cases ha : applyEvent b e p with
    | error r => rfl
    | ok q => exact applyEvent_dc ha ▸ ih q

/-- Settles O44: equal views, equal display sides. -/
theorem byteStreamDeterminesDisplay : Obligations.ByteStreamDeterminesDisplay := by
  intro b es fs p q hview h
  have hside : (replay b fs p).map Panel.displaySide = .ok q.displaySide := by
    rw [← receiveAll_displayView, ← hview, receiveAll_displayView, h]
    rfl
  cases hfs : replay b fs p with
  | error r => rw [hfs] at hside; cases hside
  | ok q' =>
    rw [hfs] at hside
    injection hside with hside
    exact ⟨q', rfl, hside⟩

end Sys2Proof.Machine
end

section
/-! O1 and O2: the state at power-on (`10_state.md` R33). -/

namespace Sys2Proof.Machine

/-- Settles O1: each element at the value of R33's table, and no input, so no step. -/
theorem powerOnState : Obligations.PowerOnState :=
  ⟨fun _ _ => ⟨rfl, rfl, rfl, rfl, rfl, rfl, rfl, rfl, rfl, rfl, rfl, rfl, rfl, rfl, rfl,
      Memory.read_nil, rfl, rfl, step_of_inbox_nil rfl⟩,
    Cfg.atReset, false, rfl⟩

/-- At power-on nothing is driven and the whole display side is `⊥` (R33). -/
theorem sound_powerOn (cfg : Cfg) (blReset : Bool) : Sound (State.powerOn cfg blReset) where
  memory := rfl
  released := fun h => absurd h Bool.false_ne_true
  inReset := fun _ => ⟨rfl, rfl, rfl, rfl, rfl, rfl, rfl⟩
  noSelect := fun _ => rfl

/-- Settles O2: the inputs still to come play no part in the invariants. -/
theorem powerOnMeetsInvariants : Obligations.PowerOnMeetsInvariants :=
  fun cfg blReset requests =>
    ⟨(sound_powerOn cfg blReset).setInbox requests, HostInv.of_uninitialized rfl⟩

end Sys2Proof.Machine
end

section
/-! O43: the display side along a run on host requests is the fold of the trace the run emits (`20_memory.md`
R51, `10_state.md` R31). -/

namespace Sys2Proof.Machine

/-- A step on what a host presents leaves only host requests, keeps the configuration, and replays what it
appends to the trace (R31). -/
theorem hostStep_trace {s t : State} (hf : FromHost s) (h : step s = .next t) :
    FromHost t ∧ t.cfg = s.cfg ∧
      ∃ es, t.out = s.out ++ es ∧ replay s.cfg.resetPulseOk es s.panel = .ok t.panel := by
  rcases hostStep_next hf h with ⟨rfl, -⟩ | ⟨i, rest, hi, hf', hexec⟩
  · exact ⟨hf, rfl, [], (List.append_nil _).symm, rfl⟩
  · obtain ⟨hcfg, hinbox, -, htrace⟩ := request_trace hi hexec
    exact ⟨by rw [FromHost, hinbox]; exact hf', hcfg, htrace⟩

/-- Settles O43: the trace of the first step, then the trace of the rest of the run, under the same
`RESET_PULSE_OK` since no step writes the configuration. -/
theorem runIsFoldOfTrace : Obligations.RunIsFoldOfTrace := by
  intro k
  induction k with
  | zero =>
    intro s t _ h
    injection h with h
    exact ⟨[], by simp [h], by rw [h, replay_nil]⟩
  | succ k ih =>
    intro s t hf h
    obtain ⟨u, hu⟩ := run_first h
    obtain ⟨hfu, hcfg, es, hout, hes⟩ := hostStep_trace hf hu
    obtain ⟨fs, hout', hfs⟩ := ih u t hfu (run_next hu ▸ h)
    refine ⟨es ++ fs, by rw [hout', hout, List.append_assoc], ?_⟩
    rw [replay_append_ok hes, ← hcfg]
    exact hfs

end Sys2Proof.Machine
end

section
/-! O15 and O16: a data byte, where it is stored and what the glass shows of it (`20_memory.md` R42, R45 to
R48). -/

namespace Sys2Proof.Machine

/-- A data byte is its reception by the controller (R45). -/
theorem exec_datawr (d : Byte) (s : State) :
    exec (.datawr d) s = .next (s.setPanel (recvData d s.panel)) := rfl

/-- Before the last column the counter moves to the next one (R46). -/
theorem advance_nextColumn (y : Fin 6) {x : Fin 84} (hx : x.val < 83) :
    (advance y x).1 = y ∧ (advance y x).2.val = x.val + 1 := by
  simp [advance, hx]

/-- After the last column of a bank that is not the last the counter moves to the next bank (R46). -/
theorem advance_nextBank {y : Fin 6} {x : Fin 84} (hx : x.val = 83) (hy : y.val < 5) :
    (advance y x).1.val = y.val + 1 ∧ (advance y x).2.val = 0 := by
  simp [advance, hx, hy]

/-- After the last cell the counter moves to the first (R47, log 4). -/
theorem advance_lastCell {y : Fin 6} {x : Fin 84} (hx : x.val = 83) (hy : y.val = 5) :
    (advance y x).1.val = 0 ∧ (advance y x).2.val = 0 := by
  simp [advance, hx, hy]

/-- Settles O15: the three arms of R45, where the counter is known, where it is not, and where the controller
does not listen. -/
theorem dataByteStores : Obligations.DataByteStores := by
  intro s d
  refine ⟨fun y x hl hy hx => ?stored, fun hl hbot => ?nowhere, fun hdeaf => ?deaf⟩
  case stored =>
    refine ⟨Memory.write s.panel.ddram (ddramIndex y x) d, (advance y x).1, (advance y x).2, ?_,
      Memory.read_write_same _ _ d, fun a ha => Memory.read_write_other _ d ha, advance_nextColumn y,
      advance_nextBank, advance_lastCell, ddramIndex_advance y x⟩
    rw [exec_datawr, recvData_stores d hl hy hx]
    rfl
  case nowhere => rw [exec_datawr, recvData_nowhere d hl hbot]; rfl
  case deaf => rw [exec_datawr, recvData_deaf d hdeaf]; rfl

/-- Row `8*y + r` of a column lies in bank `y` of that column, at bit `r` (R42). -/
theorem pixel_place {y : Fin 6} {x : Fin 84} {py : Fin 48} {r : Nat} (hr : r < 8)
    (hpy : py.val = 8 * y.val + r) :
    pixelCell x py = ddramIndex y x ∧ ∀ b, pixelBit py b = b.getLsbD r := by
  have hbank : py.val / 8 = y.val := by omega
  have hbit : py.val % 8 = r := by omega
  exact ⟨by rw [pixelCell, hbank, ddramIndex], fun b => by rw [pixelBit, hbit]⟩

theorem pixel_of_mode_bot {p : Panel} (px : Fin 84) (py : Fin 48) (hmode : p.dmode = .bot) :
    pixel p px py = .bot := by
  rw [pixel, hmode]

theorem pixel_of_cell_bot {p : Panel} {px : Fin 84} {py : Fin 48} (hmode : p.dmode = .val .normal)
    (hcell : Memory.read p.ddram (pixelCell px py) = .bot) : pixel p px py = .bot := by
  simp only [pixel, hmode, hcell]

theorem pixel_of_cell {p : Panel} {px : Fin 84} {py : Fin 48} {b : Byte} (hmode : p.dmode = .val .normal)
    (hcell : Memory.read p.ddram (pixelCell px py) = .val b) : pixel p px py = .val (pixelBit py b) := by
  simp only [pixel, hmode, hcell]

/-- Settles O16: the pixel's cell is the one the counter pointed at, and its bit is `r`. -/
theorem writtenBitsShow : Obligations.WrittenBitsShow := by
  refine ⟨fun s y x d r py hl hy hx hmode hr hpy => ⟨_, exec_datawr d s, ?_⟩,
    fun p px py hmode => pixel_of_mode_bot px py hmode,
    fun p px py hmode hcell => pixel_of_cell_bot hmode hcell⟩
  obtain ⟨hcell, hbit⟩ := pixel_place (x := x) hr hpy
  have hread : Memory.read (recvData d s.panel).ddram (pixelCell x py) = .val d := by
    rw [recvData_stores d hl hy hx, hcell, Memory.read_write_same]
  rw [← hbit d]
  exact pixel_of_cell ((recvData_dmode d s.panel).trans hmode) hread

end Sys2Proof.Machine
end

section
/-! O6 and O7: a byte stands for a command exactly where it is the command's byte and the instruction set in
force reads it so (`30_encoding.md` R61, R66). -/

namespace Sys2Proof

/-- The byte of a command (R61). -/
def Command.byte : Command → Byte
  | .funcsetExt => funcsetExtByte
  | .setvop v => setvopByte v
  | .setbias => setbiasByte
  | .funcsetBasic => funcsetBasicByte
  | .dispAllon => dispAllonByte
  | .dispNormal => dispNormalByte
  | .sety y => setyByte (BitVec.ofNat 3 y.val)
  | .setx x => setxByte (BitVec.ofNat 7 x.val)

@[simp] theorem encode_toInstr (k : Command) : encode k.toInstr = .busUnit .command k.byte := by
  cases k <;> rfl

theorem ofNat_bank_toNat (y : Fin 6) : (BitVec.ofNat 3 y.val).toNat = y.val := by
  rw [BitVec.toNat_ofNat]
  omega

theorem ofNat_column_toNat (x : Fin 84) : (BitVec.ofNat 7 x.val).toNat = x.val := by
  rw [BitVec.toNat_ofNat]
  omega

theorem wellFormed_toInstr (k : Command) : k.toInstr.wellFormed = true := by
  cases k with
  | sety y => exact decide_eq_true (by rw [ofNat_bank_toNat]; omega)
  | setx x => exact decide_eq_true (by rw [ofNat_column_toNat]; omega)
  | _ => rfl

/-- An instruction of a required set is read under that set alone. -/
theorem eq_of_readUnder {h : Reg InstrSet} {i : Instr} {x : InstrSet} (hreq : requiredSet i = some x)
    (hr : readUnder h i = true) : h = .val x := by
  simpa [readUnder, hreq] using hr

/-- A command's byte is read as the command where the instruction set in force reads it. -/
theorem decodeCommand_byte {h : Reg InstrSet} {k : Command} (hr : readUnder h k.toInstr = true) :
    decodeCommand h k.byte = some k := by
  cases k with
  | funcsetExt => exact decodeCommand_ext h
  | funcsetBasic => exact decodeCommand_basic h
  | setvop v => obtain rfl := eq_of_readUnder rfl hr; exact decodeCommand_vop v
  | setbias => obtain rfl := eq_of_readUnder rfl hr; exact decodeCommand_bias
  | dispAllon => obtain rfl := eq_of_readUnder rfl hr; exact decodeCommand_allOn
  | dispNormal => obtain rfl := eq_of_readUnder rfl hr; exact decodeCommand_normal
  | sety y =>
    obtain rfl := eq_of_readUnder rfl hr
    have hy := ofNat_bank_toNat y
    rw [Command.byte, decodeCommand_sety (by rw [hy]; exact y.isLt)]
    simp only [hy]
  | setx x =>
    obtain rfl := eq_of_readUnder rfl hr
    have hx := ofNat_column_toNat x
    rw [Command.byte, decodeCommand_setx (by rw [hx]; exact x.isLt)]
    simp only [hx]

/-- A byte that is read as a command comes from the function set, or from the column of the set in force. -/
theorem decodeCommand_cases {h : Reg InstrSet} {c : Byte} {k : Command} (hk : decodeCommand h c = some k) :
    (c = funcsetBasicByte ∧ k = .funcsetBasic) ∨ (c = funcsetExtByte ∧ k = .funcsetExt) ∨
    (h = .val .basic ∧ decodeBasic c = some k) ∨ (h = .val .extended ∧ decodeExtended c = some k) := by
  unfold decodeCommand at hk
  split at hk
  · next hc => injection hk with hk; exact .inl ⟨hc, hk.symm⟩
  · split at hk
    · next hc => injection hk with hk; exact .inr (.inl ⟨hc, hk.symm⟩)
    · split at hk
      · exact .inr (.inr (.inl ⟨rfl, hk⟩))
      · exact .inr (.inr (.inr ⟨rfl, hk⟩))
      · cases hk

/-- The high bit and the operand of a SETVOP byte (R61). -/
theorem setvopByte_setWidth {c : Byte} (hc : 0x80 ≤ c.toNat) : setvopByte (c.setWidth 7) = c := by
  apply BitVec.eq_of_toNat_eq
  have hlt := c.isLt
  rw [setvopByte_toNat, BitVec.toNat_setWidth]
  omega

/-- The map of R66, said once: what a byte stands for, and the byte of what it stands for. -/
theorem decodeCommand_eq_some_iff {h : Reg InstrSet} {c : Byte} {k : Command} :
    decodeCommand h c = some k ↔ readUnder h k.toInstr = true ∧ c = k.byte := by
  refine ⟨fun hk => ?_, fun ⟨hr, hc⟩ => hc ▸ decodeCommand_byte hr⟩
  rcases decodeCommand_cases hk with ⟨rfl, rfl⟩ | ⟨rfl, rfl⟩ | ⟨rfl, hb⟩ | ⟨rfl, he⟩
  · exact ⟨rfl, rfl⟩
  · exact ⟨rfl, rfl⟩
  · rcases decodeBasic_cases hb with ⟨rfl, rfl⟩ | ⟨rfl, rfl⟩ | ⟨y, hy, rfl⟩ | ⟨x, hx, rfl⟩
    · exact ⟨rfl, rfl⟩
    · exact ⟨rfl, rfl⟩
    · exact ⟨rfl, BitVec.eq_of_toNat_eq (by rw [hy, Command.byte, setyByte_toNat, ofNat_bank_toNat])⟩
    · exact ⟨rfl, BitVec.eq_of_toNat_eq (by rw [hx, Command.byte, setxByte_toNat, ofNat_column_toNat])⟩
  · rcases decodeExtended_cases he with ⟨rfl, rfl⟩ | ⟨hc, rfl⟩
    · exact ⟨rfl, rfl⟩
    · exact ⟨rfl, (setvopByte_setWidth hc).symm⟩

/-- A command byte that decodes is one of the eight commands. -/
theorem decode_command_ok {h : Reg InstrSet} {c : Byte} {i : Instr}
    (hd : decode h (.busUnit .command c) = .ok i) : ∃ k, decodeCommand h c = some k ∧ i = k.toInstr := by
  cases hk : decodeCommand h c with
  | none => simp [decode, hk] at hd
  | some k => exact ⟨k, rfl, by simpa [decode, hk] using hd.symm⟩

/-- Settles O6: the command the byte stands for has that byte. -/
theorem commandBytesReencode : Obligations.CommandBytesReencode := by
  intro h c i hd
  obtain ⟨k, hk, rfl⟩ := decode_command_ok hd
  obtain ⟨hr, rfl⟩ := decodeCommand_eq_some_iff.1 hk
  exact ⟨wellFormed_toInstr k, hr, encode_toInstr k⟩

/-- A byte is a command's byte exactly where their numbers agree. -/
theorem decodeCommand_eq_some_iff_toNat {h : Reg InstrSet} {c : Byte} {k : Command} :
    decodeCommand h c = some k ↔ readUnder h k.toInstr = true ∧ c.toNat = k.byte.toNat := by
  rw [decodeCommand_eq_some_iff, BitVec.toNat_inj]

theorem decodeCommand_sety_iff {h : Reg InstrSet} {c : Byte} {y : Fin 6} :
    decodeCommand h c = some (.sety y) ↔ h = .val .basic ∧ c.toNat = 0x40 + y.val := by
  rw [decodeCommand_eq_some_iff_toNat, Command.byte, setyByte_toNat, ofNat_bank_toNat]
  exact and_congr_left' decide_eq_true_iff

theorem decodeCommand_setx_iff {h : Reg InstrSet} {c : Byte} {x : Fin 84} :
    decodeCommand h c = some (.setx x) ↔ h = .val .basic ∧ c.toNat = 0x80 + x.val := by
  rw [decodeCommand_eq_some_iff_toNat, Command.byte, setxByte_toNat, ofNat_column_toNat]
  exact and_congr_left' decide_eq_true_iff

theorem decodeCommand_setvop_iff {h : Reg InstrSet} {c : Byte} {v : BitVec 7} :
    decodeCommand h c = some (.setvop v) ↔ h = .val .extended ∧ c.toNat = 0x80 + v.toNat := by
  rw [decodeCommand_eq_some_iff_toNat, Command.byte, setvopByte_toNat]
  exact and_congr_left' decide_eq_true_iff

/-- Settles O7: each row is the one map at that row's command. -/
theorem commandByteMap : Obligations.CommandByteMap := fun _ _ =>
  ⟨decodeCommand_eq_some_iff_toNat.trans (and_iff_right rfl),
    decodeCommand_eq_some_iff_toNat.trans (and_iff_right rfl),
    decodeCommand_eq_some_iff_toNat.trans (and_congr_left' decide_eq_true_iff),
    decodeCommand_eq_some_iff_toNat.trans (and_congr_left' decide_eq_true_iff),
    decodeCommand_eq_some_iff_toNat.trans (and_congr_left' decide_eq_true_iff),
    fun _ => decodeCommand_sety_iff, fun _ => decodeCommand_setx_iff, fun _ => decodeCommand_setvop_iff⟩

end Sys2Proof
end

section
/-! O8: what the decoder reads of a request, one equation per operation (`30_encoding.md` R64, R68). -/

namespace Sys2Proof

section
variable (h : Reg InstrSet) (a b : Byte) (len : BitVec 16) (body : List Byte)

@[simp] theorem decode_reinit_request :
    decode h (.request (requestHeader 0#3 a b) len body) = .ok .reinit := by
  simp [decode, decodeRequest]

@[simp] theorem decode_clear_request :
    decode h (.request (requestHeader 1#3 a b) len body) = .ok .clear := by
  simp [decode, decodeRequest]

@[simp] theorem decode_cursor_request :
    decode h (.request (requestHeader 2#3 a b) len body) = .ok (.cursor a.toNat b.toNat) := by
  simp [decode, decodeRequest]

@[simp] theorem decode_backlight_request :
    decode h (.request (requestHeader 3#3 a b) len body) = .ok (.backlight (a.getLsbD 0)) := by
  simp [decode, decodeRequest, onOperand]

@[simp] theorem decode_inverse_request :
    decode h (.request (requestHeader 4#3 a b) len body) = .ok (.inverse (a.getLsbD 0)) := by
  simp [decode, decodeRequest, onOperand]

@[simp] theorem decode_reserved_request :
    decode h (.request (requestHeader 7#3 a b) len body) = .ok .opReserved := by
  simp [decode, decodeRequest]

variable {len body} {bytes : List Byte} (htake : takePayload len body = .ok bytes)
include htake

theorem decode_printstring_request :
    decode h (.request (requestHeader 5#3 a b) len body) = .ok (.printstring (bytes.map BitVec.toNat)) := by
  simp [decode, decodeRequest, htake]

theorem decode_printimage_request :
    decode h (.request (requestHeader 6#3 a b) len body) = .ok (.printimage bytes) := by
  simp [decode, decodeRequest, htake]
end

/-- Settles O8: no equation looks at the unused bits. -/
theorem unusedRequestBitsIgnored : Obligations.UnusedRequestBitsIgnored := by
  intro h a b len body
  refine ⟨decode_reinit_request .., decode_clear_request .., decode_cursor_request ..,
    decode_backlight_request .., decode_inverse_request .., decode_reserved_request .., fun hlen => ?payload⟩
  case payload =>
    have htake : takePayload len body = .ok (body.take len.toNat) := if_pos hlen
    exact ⟨decode_printstring_request h a b htake, decode_printimage_request h a b htake⟩

end Sys2Proof
end

section
/-! O4 and O5: encoding and then decoding (`30_encoding.md` R61 to R66). -/

namespace Sys2Proof

/-- Settles O4: each word is evaluated by the decoder. -/
theorem specWordsDecode : Obligations.SpecWordsDecode :=
  ⟨rfl, rfl, rfl, rfl, rfl, rfl, rfl, rfl, rfl, rfl, rfl, rfl, rfl, rfl, rfl, rfl, rfl⟩

/-- A well-formed row of the `CMD` format is one of the eight commands (R61). -/
theorem exists_toInstr_of_isCommand {i : Instr} (hc : i.isCommand = true) (hw : i.wellFormed = true) :
    ∃ k : Command, i = k.toInstr := by
  cases i with
  | funcsetExt => exact ⟨.funcsetExt, rfl⟩
  | setvop v => exact ⟨.setvop v, rfl⟩
  | setbias => exact ⟨.setbias, rfl⟩
  | funcsetBasic => exact ⟨.funcsetBasic, rfl⟩
  | dispAllon => exact ⟨.dispAllon, rfl⟩
  | dispNormal => exact ⟨.dispNormal, rfl⟩
  | sety y =>
    have hy : y.toNat ≤ 5 := of_decide_eq_true hw
    exact ⟨.sety ⟨y.toNat, by omega⟩, by simp [Command.toInstr]⟩
  | setx x =>
    have hx : x.toNat ≤ 83 := of_decide_eq_true hw
    exact ⟨.setx ⟨x.toNat, by omega⟩, by simp [Command.toInstr]⟩
  | _ => cases hc

/-- An operand that fits the port comes back as the byte it was sent as (R64). -/
theorem ofInt_toNat_of_fitsPort {n : Int} (hn : fitsPort n = true) : ((BitVec.ofInt 8 n).toNat : Int) = n := by
  simp only [fitsPort, Bool.and_eq_true, decide_eq_true_eq] at hn
  rw [BitVec.toNat_ofInt]
  omega

theorem onByte_getLsbD (on : Bool) : (onByte on).getLsbD 0 = on := by
  cases on <;> rfl

/-- Character codes that fit the port come back as the bytes they were sent as (R64). -/
theorem map_toNat_ofNat {text : List Nat} (htext : text.all fitsCode = true) :
    (text.map (BitVec.ofNat 8)).map BitVec.toNat = text := by
  rw [List.map_map]
  refine (List.map_congr_left fun n hn => ?_).trans (List.map_id text)
  have hfits : n < 256 := of_decide_eq_true (List.all_eq_true.1 htext n hn)
  exact (BitVec.toNat_ofNat ..).trans (Nat.mod_eq_of_lt hfits)

theorem decode_encode_printstring {text : List Nat} (h : Reg InstrSet)
    (hw : (Instr.printstring text).wellFormed = true) :
    decode h (encode (.printstring text)) = .ok (.printstring text) := by
  obtain ⟨hlen, hcodes⟩ := (Bool.and_eq_true ..).mp hw
  have htake := takePayload_whole (bytes := text.map (BitVec.ofNat 8))
    (by rw [List.length_map]; exact of_decide_eq_true hlen)
  exact (decode_printstring_request h _ _ htake).trans (by rw [map_toNat_ofNat hcodes])

/-- Settles O5: the commands by the one map of R66, the requests by the equation of their operation; the other
rows carry their operands as they are. -/
theorem decodeEncodeAgree : Obligations.DecodeEncodeAgree := by
  intro i h hw hr
  cases hc : i.isCommand with
  | true =>
    obtain ⟨k, rfl⟩ := exists_toInstr_of_isCommand hc hw
    simp only [encode_toInstr, decode, decodeCommand_byte hr]
  | false =>
    cases i with
    | reinit => exact decode_reinit_request ..
    | clear => exact decode_clear_request ..
    | cursor bank column =>
      obtain ⟨hb, hcol⟩ := (Bool.and_eq_true ..).mp hw
      exact (decode_cursor_request ..).trans
        (by rw [ofInt_toNat_of_fitsPort hb, ofInt_toNat_of_fitsPort hcol])
    | backlight on => exact (decode_backlight_request ..).trans (by rw [onByte_getLsbD])
    | inverse on => exact (decode_inverse_request ..).trans (by rw [onByte_getLsbD])
    | printstring text => exact decode_encode_printstring h hw
    | printimage pixels =>
      exact decode_printimage_request h _ _ (takePayload_whole (of_decide_eq_true hw))
    | opReserved => exact decode_reserved_request ..
    | datawr d => rfl
    | glyph n => rfl
    | cursorcmds bank column => rfl
    | write mode payload => rfl
    | _ => cases hc

end Sys2Proof
end

section
/-! O25: the reserved request (`30_encoding.md` R68). -/

namespace Sys2Proof.Machine

/-- The reserved request ends at once with its status (R68, R166). -/
theorem exec_opReserved (s : State) : exec .opReserved s = .next (s.report .illegalOp) := rfl

/-- Settles O25: a report writes the statuses alone. -/
theorem reservedRequestIsIllegal : Obligations.ReservedRequestIsIllegal := exec_opReserved

end Sys2Proof.Machine
end

section
/-! O49: the frames of an accepted request have a meaning at the controller (`30_encoding.md` R69), so with a
reliable transport the request completes. -/

namespace Sys2Proof.Machine

/-- A controller that takes bytes reads its commands in the basic set. -/
def InBasicSet (p : Panel) : Prop := p.listening = true → p.h = .val .basic

/-- A cell frame has a meaning at such a controller, and leaves it in the basic set (R69). -/
theorem InBasicSet.replay_frame {p : Panel} {f : Level × List Byte} (b soft : Bool) (hp : InBasicSet p)
    (hf : CellFrame f) : ∃ q, replay b (frameOf soft f.1 f.2) p = .ok q ∧ InBasicSet q := by
  obtain ⟨level, bytes⟩ := f
  cases level with
  | high => exact ⟨_, replay_dataFrame b soft bytes p, by simpa [InBasicSet] using hp⟩
  | low =>
    obtain ⟨c, rfl, hc⟩ := hf
    cases hl : p.listening with
    | false => exact ⟨_, replay_command_deaf b hl, by simp [InBasicSet, hl]⟩
    | true =>
      have hbasic := hp hl
      rcases hc with ⟨y, hy⟩ | ⟨x, hx, -⟩
      · exact ⟨_, replay_command b (k := .sety y) hl (hbasic ▸ hy), fun _ => hbasic⟩
      · exact ⟨_, replay_command b (k := .setx x) hl (hbasic ▸ hx), fun _ => hbasic⟩

theorem InBasicSet.replay_framed {p : Panel} {frames : List (Level × List Byte)} (b soft : Bool)
    (hp : InBasicSet p) (hf : ∀ f ∈ frames, CellFrame f) : ∃ q, replay b (framed soft frames) p = .ok q := by
  induction frames generalizing p with
  | nil => exact ⟨p, rfl⟩
  | cons f frames ih =>
    obtain ⟨hf, hfs⟩ := List.forall_mem_cons.1 hf
    obtain ⟨q, hq, hbasic⟩ := hp.replay_frame b soft hf
    obtain ⟨r, hr⟩ := ih hbasic hfs
    exact ⟨r, by rw [framed_cons, replay_append_ok hq, hr]⟩

/-- In `Ready` the basic set is in force: a controller that takes bytes was reset by a pulse that is long
enough (R26, R34, R186). -/
theorem HostInv.inBasicSet {s : State} (hh : HostInv s) (hs : Sound s) (hready : s.phase = .ready) :
    InBasicSet s.panel := fun hl =>
  (hh.display hready (hs.released (listening_iff.1 hl).1).2).basic

/-- The events of an accepted request other than REINIT have a meaning at the controller (R69). -/
theorem HostInv.replay_request {i : Instr} {s : State} (hh : HostInv s) (hs : Sound s) (hr : i ≠ .reinit)
    (hready : s.phase = .ready) (ha : turnedAway i s = none) :
    ∃ p, replay s.cfg.resetPulseOk (eventsOf (requestActions i s)) s.panel = .ok p := by
  rcases eventsOf_request s hr with h | ⟨level, h⟩ <;> rw [h]
  · obtain ⟨frames, hframes, hcell⟩ := transferEvents_framed i s
    rw [hframes]
    exact (hh.inBasicSet hs hready).replay_framed _ _ (hcell ha)
  · exact ⟨_, rfl⟩

/-- Every request completes in a state that host requests reach, if the transport does. -/
theorem HostInv.exec_completes {i : Instr} {s : State} (hh : HostInv s) (hs : Sound s) (hrel : Reliable s)
    (hi : i.isRequest = true) : ∃ t, exec i s = .next t := by
  rcases exec_request s hi with ⟨st, -, -, h⟩ | ⟨ha, rfl, h⟩ | ⟨ha, hr, hready, h⟩ <;> rw [h]
  · exact ⟨_, rfl⟩
  · obtain ⟨p, hp⟩ := replay_reinit_ok ((turnedAway_reinit s).1 ha)
    exact ⟨_, congrArg concludeReinit (runActions_reliable hrel hp)⟩
  · obtain ⟨p, hp⟩ := hh.replay_request hs hr hready ha
    exact ⟨_, congrArg conclude (runActions_reliable hrel hp)⟩

/-- Settles O49: what a host presents and the decoder reads is a request, and the invariants do not look at the
inputs still to come. -/
theorem hostRequestsComplete : Obligations.HostRequestsComplete := by
  intro s inp rest i hs hh hf hrel hin hdec
  have hhost : inp.fromHost = true := List.all_eq_true.1 hf inp (by simp [hin])
  cases inp with
  | request w len body =>
    rw [step_of_decode_ok hin hdec]
    exact (hh.of_same (t := s.setInbox rest) rfl rfl rfl rfl).exec_completes (hs.setInbox rest) hrel
      (decode_request_isRequest hdec)
  | busUnit mode c => cases hhost
  | call f => cases hhost

end Sys2Proof.Machine
end

section
/-! O46: the events of a request are an opening without a transfer and then whole frames (`30_encoding.md` R63,
`43_write_framing.md` R122, R123). -/

namespace Sys2Proof.Machine

theorem framed_append (soft : Bool) (fs gs : List (Level × List Byte)) :
    framed soft (fs ++ gs) = framed soft fs ++ framed soft gs :=
  List.flatMap_append

/-- Command bytes, each in a frame of its own (R122). -/
def commandFrames (cs : List Byte) : List (Level × List Byte) := cs.map fun c => (.low, [c])

/-- The cursor commands of (1,1) and a data frame (R136, R137). -/
def homeFrames (inverse : Bool) (payload : List Byte) : List (Level × List Byte) :=
  commandFrames homeCommands ++ [(.high, txBytes inverse .data payload)]

/-- What a request does before its first transfer (R131 steps 2 to 6, R134). -/
def openingOf (i : Instr) (s : State) : List Event :=
  match i with
  | .reinit => openingEvents s
  | .backlight on => [.pin .bl (backlightLevel on s.cfg.activeLow)]
  | _ => []

/-- The frames of a request. -/
def framesOf (i : Instr) (s : State) : List (Level × List Byte) :=
  match i with
  | .reinit =>
    commandFrames (initHead s.cfg.contrast) ++ (homeFrames s.inverse (List.replicate Config.frameBytes 0x00#8)
      ++ commandFrames initTail)
  | .clear => homeFrames s.inverse (List.replicate Config.frameBytes 0x00#8)
  | .cursor bank column => commandFrames [encSety bank, encSetx column]
  | .printstring text => (textCells text).map fun c => (.high, txBytes s.inverse .data c)
  | .printimage pixels => homeFrames s.inverse pixels
  | _ => []

theorem frameFromHome_homeFrames (soft inverse : Bool) (payload : List Byte) :
    frameFromHome soft inverse payload = framed soft (homeFrames inverse payload) :=
  frameFromHome_framed soft inverse payload

/-- The events of a request: its opening, then its frames. -/
theorem eventsOf_requestActions (i : Instr) (s : State) :
    eventsOf (requestActions i s) = openingOf i s ++ framed s.cfg.csSoft (framesOf i s) := by
  cases i with
  | reinit =>
    rw [requestActions, eventsOf_reinit, commandEvents_framed, commandEvents_framed, clearEvents,
      frameFromHome_homeFrames, ← framed_append, ← framed_append]
    rfl
  | clear => exact (eventsOf_emitAll _).trans (frameFromHome_homeFrames ..)
  | cursor bank column => exact (eventsOf_emitAll _).trans (commandEvents_framed ..)
  | printstring text => exact (eventsOf_emitAll _).trans (printStringEvents_framed ..)
  | printimage pixels => exact (eventsOf_emitAll _).trans (frameFromHome_homeFrames ..)
  | _ => rfl

/-- What a request that answers a next state has appended to the trace: nothing if it was turned away, and else
its events, of which only a failing call cuts the last ones off (R165). -/
theorem request_emits {i : Instr} {s t : State} (hi : i.isRequest = true) (h : exec i s = .next t) :
    ∃ es, t.out = s.out ++ es ∧ (es = [] ∨ turnedAway i s = none ∧
      ∃ cut, es ++ cut = openingOf i s ++ framed s.cfg.csSoft (framesOf i s) ∧ (Reliable s → cut = [])) := by
  rw [← eventsOf_requestActions]
  rcases request_next hi h with
    ⟨st, -, -, rfl⟩ | ⟨ha, p, -, rfl⟩ | ⟨ha, as, e, as', rest, p, n, hsplit, hfail, -, rfl⟩
  · exact ⟨[], by simp, .inl rfl⟩
  · exact ⟨_, rfl, .inr ⟨ha, [], List.append_nil _, fun _ => rfl⟩⟩
  · refine ⟨eventsOf as, by split <;> rfl, .inr ⟨ha, e :: eventsOf as', ?_, fun hrel => ?_⟩⟩
    · rw [hsplit, eventsOf_append]
      rfl
    · rw [show s.transport = [] from hrel, List.drop_nil] at hfail
      cases hfail

/-- What the opening of a request may hold: no transfer, no drive of the mode line alone, and a drive of the
chip-select only to high and only where software manages it. -/
def OpeningEvent (soft : Bool) (e : Event) : Prop :=
  (∀ bytes, e ≠ .xfer bytes) ∧ (∀ l, e ≠ .pin .dc l) ∧ ∀ l, e = .pin .cs l → l = .high ∧ soft = true

theorem openingEvents_opening {s : State} {e : Event} (he : e ∈ openingEvents s) :
    OpeningEvent s.cfg.csSoft e := by
  simp only [openingEvents, List.mem_append, List.mem_ite_nil_right, List.mem_cons, List.not_mem_nil,
    or_false] at he
  rcases he with ⟨-, rfl⟩ | (rfl | rfl | rfl | rfl) | ⟨hsoft, rfl⟩ | rfl <;> simp_all [OpeningEvent]

theorem openingOf_opening {i : Instr} {s : State} : ∀ e ∈ openingOf i s, OpeningEvent s.cfg.csSoft e := by
  cases i with
  | reinit => exact fun e => openingEvents_opening
  | backlight on => simp [openingOf, OpeningEvent]
  | _ => simp [openingOf]

theorem openingOf_eq_nil {i : Instr} (s : State) (hr : i ≠ .reinit) (hb : ∀ on, i ≠ .backlight on) :
    openingOf i s = [] := by
  cases i with
  | reinit => exact absurd rfl hr
  | backlight on => exact absurd rfl (hb on)
  | _ => rfl

/-- A command byte that a request may send (R69, R108): one of `CURSORCMDS` (R90), or one of REINIT's
initialisation. -/
def SendableByte (i : Instr) (contrast : Int) (c : Byte) : Prop :=
  (0x40 ≤ c.toNat ∧ c.toNat ≤ 0x45) ∨
  (0x80 ≤ c.toNat ∧ c.toNat ≤ 0xCE ∧ (c.toNat - 0x80) % 6 = 0) ∨
  (i = .reinit ∧ (c = 0x21#8 ∨ c = 0x13#8 ∨ c = 0x20#8 ∨ c = 0x09#8 ∨ c = 0x0C#8 ∨
    (c.toNat : Int) = 0x80 + contrast))

theorem sendableByte_encSety {bank : Int} (i : Instr) (contrast : Int) (h0 : 1 ≤ bank) (h1 : bank ≤ 6) :
    SendableByte i contrast (encSety bank) := by
  obtain ⟨y, -, hdec⟩ := decode_encSety h0 h1
  obtain ⟨-, hc⟩ := decodeCommand_sety_iff.1 hdec
  exact .inl (by omega)

theorem sendableByte_encSetx {column : Int} (i : Instr) (contrast : Int) (h0 : 1 ≤ column)
    (h1 : column ≤ 14) : SendableByte i contrast (encSetx column) := by
  obtain ⟨x, hx, hdec⟩ := decode_encSetx h0 h1
  obtain ⟨-, hc⟩ := decodeCommand_setx_iff.1 hdec
  exact .inr (.inl (by omega))

theorem encSetvop_toNat {contrast : Int} (h0 : 0 ≤ contrast) (h1 : contrast ≤ 127) :
    ((encSetvop contrast).toNat : Int) = 0x80 + contrast := by
  obtain ⟨-, hc⟩ := decodeCommand_setvop_iff.1 (decode_encSetvop h0 h1)
  have hv := ofInt_contrast_toNat h0 h1
  omega

theorem sendableByte_initHead {contrast : Int} (h0 : 0 ≤ contrast) (h1 : contrast ≤ 127) :
    ∀ c ∈ initHead contrast, SendableByte .reinit contrast c := by
  simp only [initHead, List.forall_mem_cons, SendableByte, funcsetExtByte, setbiasByte, funcsetBasicByte,
    encSetvop_toNat h0 h1]
  simp

theorem sendableByte_initTail (contrast : Int) : ∀ c ∈ initTail, SendableByte .reinit contrast c := by
  simp [initTail, SendableByte, dispAllonByte, dispNormalByte]

/-- The frames that an accepted request sends: one command byte, or data of one cell or of the whole
display. -/
def RequestFrame (i : Instr) (contrast : Int) (f : Level × List Byte) : Prop :=
  match f.1 with
  | .low => ∃ c, f.2 = [c] ∧ SendableByte i contrast c
  | .high => f.2.length = 6 ∨ f.2.length = 504

section
variable {i : Instr} {contrast : Int} {f : Level × List Byte}

theorem requestFrame_command {cs : List Byte} (h : ∀ c ∈ cs, SendableByte i contrast c)
    (hf : f ∈ commandFrames cs) : RequestFrame i contrast f := by
  obtain ⟨c, hc, rfl⟩ := List.mem_map.1 hf
  exact ⟨c, rfl, h c hc⟩

theorem requestFrame_cursor {bank column : Int} (hr : cursorInRange bank column = true)
    (hf : f ∈ commandFrames [encSety bank, encSetx column]) : RequestFrame i contrast f := by
  obtain ⟨h1, h2, h3, h4⟩ := (cursorInRange_iff bank column).1 hr
  refine requestFrame_command ?_ hf
  simp only [List.forall_mem_cons]
  exact ⟨sendableByte_encSety i contrast h1 h2, sendableByte_encSetx i contrast h3 h4, by simp⟩

theorem requestFrame_home {inverse : Bool} {payload : List Byte} (hlen : payload.length = 504)
    (hf : f ∈ homeFrames inverse payload) : RequestFrame i contrast f := by
  rcases List.mem_append.1 hf with hf | hf
  · exact requestFrame_cursor (bank := 1) (column := 1) rfl hf
  · obtain rfl := List.mem_singleton.1 hf
    exact .inr ((txBytes_data_length ..).trans hlen)
end

theorem cursorInRange_of_accepted {bank column : Int} {s : State}
    (ha : turnedAway (.cursor bank column) s = none) : cursorInRange bank column = true := by
  simp only [turnedAway] at ha
  split at ha
  · simpa using ha
  · cases ha

theorem length_of_accepted {pixels : List Byte} {s : State} (ha : turnedAway (.printimage pixels) s = none) :
    pixels.length = 504 := by
  simp only [turnedAway] at ha
  split at ha
  · simpa using ha
  · cases ha

/-- Every frame of an accepted request is one that it may send. -/
theorem framesOf_requestFrame {i : Instr} {s : State} {f : Level × List Byte} (ha : turnedAway i s = none)
    (hf : f ∈ framesOf i s) : RequestFrame i s.cfg.contrast f := by
  cases i with
  | reinit =>
    obtain ⟨h0, h1⟩ := (contrastLegal_iff _).1 ((turnedAway_reinit s).1 ha)
    simp only [framesOf, List.mem_append] at hf
    rcases hf with hf | hf | hf
    · exact requestFrame_command (sendableByte_initHead h0 h1) hf
    · exact requestFrame_home List.length_replicate hf
    · exact requestFrame_command (sendableByte_initTail _) hf
  | clear => exact requestFrame_home List.length_replicate hf
  | cursor bank column => exact requestFrame_cursor (cursorInRange_of_accepted ha) hf
  | printstring text =>
    obtain ⟨c, hc, rfl⟩ := List.mem_map.1 hf
    obtain ⟨ch, -, hch⟩ := List.mem_filterMap.1 (textCells_eq text ▸ hc)
    exact .inl ((txBytes_data_length ..).trans (cell_length hch))
  | printimage pixels => exact requestFrame_home (length_of_accepted ha) hf
  | _ => cases hf

theorem RequestFrame.lengths {i : Instr} {contrast : Int} {f : Level × List Byte}
    (h : RequestFrame i contrast f) :
    (f.1 = .low ∧ f.2.length = 1) ∨ (f.1 = .high ∧ (f.2.length = 6 ∨ f.2.length = 504)) := by
  obtain ⟨level, bytes⟩ := f
  cases level with
  | low => obtain ⟨c, rfl, -⟩ := h; exact .inl ⟨rfl, rfl⟩
  | high => exact .inr ⟨rfl, h⟩

/-- Settles O46: a request that was turned away appends nothing, and another its opening and its frames, up to a
call that fails. -/
theorem framesStandWhole : Obligations.FramesStandWhole := by
  intro i s t hi h
  obtain ⟨es, hout, rfl | ⟨ha, cut, hcut, hrel⟩⟩ := request_emits hi h
  · exact ⟨[], [], [], by simp [hout], fun _ => rfl, fun _ _ => rfl, by simp, by simp⟩
  · refine ⟨openingOf i s, framesOf i s, cut, ?_, hrel, openingOf_eq_nil s, openingOf_opening,
      fun f hf => (framesOf_requestFrame ha hf).lengths⟩
    rw [hout, List.append_assoc, hcut, ← List.append_assoc]
    rfl

end Sys2Proof.Machine
end

section
/-! O45: the command bytes in the byte stream of a request (`10_state.md` R32, `30_encoding.md` R69). -/

namespace Sys2Proof.Machine

theorem stream_append (dc : Reg Level) (es fs : List Event) :
    stream dc (es ++ fs) = stream dc es ++ stream (es.foldl (fun dc e => dcAfter e dc) dc) fs := by
  induction es generalizing dc with
  | nil => rfl
  | cons e es ih => simp [stream, ih]

/-- A trace without a transfer carries no byte. -/
theorem stream_eq_nil {es : List Event} (dc : Reg Level) (h : ∀ e ∈ es, ∀ bytes, e ≠ .xfer bytes) :
    stream dc es = [] := by
  induction es generalizing dc with
  | nil => rfl
  | cons e es ih =>
    obtain ⟨he, hes⟩ := List.forall_mem_cons.1 h
    have hbytes : e.bytes = [] := by
      cases e with
      | xfer bytes => exact absurd rfl (he bytes)
      | _ => rfl
    rw [stream, hbytes, ih _ hes]
    rfl

/-- Frames carry their bytes in their own mode, whatever the level of the mode line before them (R120). -/
theorem stream_framed (soft : Bool) (dc : Reg Level) (frames : List (Level × List Byte)) :
    stream dc (framed soft frames) = frames.flatMap fun f => f.2.map fun c => (.val f.1, c) := by
  induction frames generalizing dc with
  | nil => rfl
  | cons f frames ih => cases soft <;> simp [frameOf, stream, Event.bytes, dcAfter, ih]

/-- A byte that a request sends stands in one of its frames. -/
theorem mem_frame_of_mem_stream {i : Instr} {s : State} {es cut : List Event} {dc : Reg Level} {c : Byte}
    (hcut : es ++ cut = openingOf i s ++ framed s.cfg.csSoft (framesOf i s))
    (hc : (dc, c) ∈ stream s.panel.dc es) : ∃ f ∈ framesOf i s, dc = .val f.1 ∧ c ∈ f.2 := by
  have hall : (dc, c) ∈ stream s.panel.dc (es ++ cut) := by
    rw [stream_append]
    exact List.mem_append_left _ hc
  rw [hcut, stream_append, stream_eq_nil _ fun e he => (openingOf_opening e he).1, stream_framed,
    List.nil_append] at hall
  obtain ⟨f, hf, hmem⟩ := List.mem_flatMap.1 hall
  obtain ⟨c', hc', heq⟩ := List.mem_map.1 hmem
  injection heq with h1 h2
  exact ⟨f, hf, h1.symm, h2 ▸ hc'⟩

/-- Settles O45: the mode of a byte is its frame's, and a command frame is one byte of the closed set. -/
theorem commandBytesSent : Obligations.CommandBytesSent := by
  intro i s t hi h dc c hc
  obtain ⟨es, hout, hes⟩ := request_emits hi h
  rw [hout, List.drop_left] at hc
  rcases hes with rfl | ⟨ha, cut, hcut, -⟩
  · cases hc
  · obtain ⟨⟨level, bytes⟩, hf, rfl, hmem⟩ := mem_frame_of_mem_stream hcut hc
    have hframe := framesOf_requestFrame ha hf
    refine ⟨by simp, fun hlow => ?_⟩
    obtain rfl : level = .low := by injection hlow
    obtain ⟨c', rfl, hsend⟩ := hframe
    exact List.mem_singleton.1 hmem ▸ hsend

end Sys2Proof.Machine
end

section
/-! O17 and O18: the glyph of a code and the cell it fills (`40_glyph_rom.md` R80, R81, R84). -/

namespace Sys2Proof.Machine

/-- The internal lookup writes the result alone (R80). -/
theorem exec_glyph (charCode : Nat) (s : State) :
    exec (.glyph charCode) s = .next (s.setReturned (.glyph (glyph charCode))) := rfl

theorem glyph_of_inRange {charCode : Nat} (hlo : 0x20 ≤ charCode) (hhi : charCode ≤ 0x7F) :
    glyph charCode = some (romRead (5 * (charCode - 0x20)) 5) :=
  if_neg fun hout => hout.elim hlo.not_gt hhi.not_gt

theorem glyph_of_outOfRange {charCode : Nat} (h : charCode < 0x20 ∨ 0x7F < charCode) :
    glyph charCode = none :=
  if_pos h

/-- The entry of 'A' is the one the spec states (R81). -/
theorem glyph_A : glyph 0x41 = some [0x7E#8, 0x11#8, 0x11#8, 0x11#8, 0x7E#8] := rfl

theorem romRead_length (addr n : Nat) : (romRead addr n).length = n := by
  induction n generalizing addr with
  | zero => rfl
  | succ n ih => rw [romRead, List.length_cons, ih]

theorem glyph_length {charCode : Nat} {g : List Byte} (h : glyph charCode = some g) : g.length = 5 := by
  by_cases hrange : charCode < 0x20 ∨ 0x7F < charCode
  · rw [glyph_of_outOfRange hrange] at h
    cases h
  · rw [glyph_of_inRange (by omega) (by omega)] at h
    injection h with h
    rw [← h, romRead_length]

theorem cell_of_glyph {charCode : Nat} {g : List Byte} (h : glyph charCode = some g) :
    cell charCode = some (g ++ [0x00#8]) := by
  rw [cell, h]

theorem cell_of_rejected {charCode : Nat} (h : glyph charCode = none) : cell charCode = none := by
  rw [cell, h]

theorem txBytes_plain (payload : List Byte) : txBytes false .data payload = payload := rfl

theorem txBytes_inverted (payload : List Byte) :
    txBytes true .data payload = payload.map (fun b => ~~~b) := rfl

/-- Settles O17: a code is in the range of R80 or it is not, and 'A' is the entry of R81. -/
theorem glyphLookup : Obligations.GlyphLookup := by
  refine fun charCode s => ⟨fun hlo hhi => ?inRange, fun hout => ?rejected, ?entryOfA⟩
  case inRange => rw [exec_glyph, glyph_of_inRange hlo hhi]; rfl
  case rejected => rw [exec_glyph, glyph_of_outOfRange hout]; rfl
  case entryOfA => rw [exec_glyph, glyph_A]; rfl

/-- Settles O18: the spacer stands outside the ROM, and the inverse flag complements it with the glyph. -/
theorem cellIsGlyphAndSpacer : Obligations.CellIsGlyphAndSpacer := by
  refine ⟨fun charCode g hg => ⟨glyph_length hg, cell_of_glyph hg, txBytes_plain _, ?inverted⟩,
    fun _ => cell_of_rejected, cell_of_glyph glyph_A⟩
  case inverted =>
    rw [txBytes_inverted, List.map_append]
    rfl

end Sys2Proof.Machine
end

section
/-! O19 and O20: the command bytes of a position (`41_addressing.md` R90), the cell it stands for (R91), and what
CURSOR does with them (`44_driver_ops.md` R138). -/

namespace Sys2Proof.Machine

/-- The internal function writes the result alone (R90). -/
theorem exec_cursorcmds (bank column : Int) (s : State) :
    exec (.cursorcmds bank column) s = .next (s.setReturned (.cursorcmds (cursorCmds bank column))) := rfl

theorem cursorCmds_of_inRange {bank column : Int} (hr : cursorInRange bank column = true) :
    cursorCmds bank column = some (encSety bank, encSetx column) :=
  if_pos hr

theorem cursorCmds_of_outOfRange {bank column : Int} (hr : ¬cursorInRange bank column = true) :
    cursorCmds bank column = none :=
  if_neg hr

/-- The SETY byte of a bank, by value (R90, R106). -/
theorem encSety_toNat {bank : Int} (h0 : 1 ≤ bank) (h1 : bank ≤ 6) :
    ((encSety bank).toNat : Int) = 0x40 + (bank - 1) := by
  obtain ⟨y, hy, hdec⟩ := decode_encSety h0 h1
  obtain ⟨-, hc⟩ := decodeCommand_sety_iff.1 hdec
  omega

/-- The SETX byte of a column, by value (R90, R107). -/
theorem encSetx_toNat {column : Int} (h0 : 1 ≤ column) (h1 : column ≤ 14) :
    ((encSetx column).toNat : Int) = 0x80 + (column - 1) * 6 := by
  obtain ⟨x, hx, hdec⟩ := decode_encSetx h0 h1
  obtain ⟨-, hc⟩ := decodeCommand_setx_iff.1 hdec
  omega

/-- Settles O19: a pair is on the display or it is rejected. -/
theorem cursorCommandBytes : Obligations.CursorCommandBytes := by
  intro bank column s
  rw [exec_cursorcmds, ← cursorInRange_iff]
  refine ⟨fun hr => ?onDisplay, fun hr => ?rejected⟩
  case onDisplay =>
    obtain ⟨hb1, hb6, hc1, hc14⟩ := (cursorInRange_iff _ _).1 hr
    rw [cursorCmds_of_inRange hr]
    exact ⟨_, _, rfl, encSety_toNat hb1 hb6, encSetx_toNat hc1 hc14⟩
  case rejected =>
    rw [cursorCmds_of_outOfRange hr]
    rfl

/-- The panel after the two command frames of CURSOR, with the counter they set (R138). -/
def cursorMoved (soft : Bool) (y : Fin 6) (x : Fin 84) (p : Panel) : Panel :=
  { p with cs := if soft then .val .high else p.cs, dc := .val .low, ay := .val y, ax := .val x }

/-- A SETY frame and a SETX frame, to a listening controller that reads them so. -/
theorem replay_setCounter {soft : Bool} (b : Bool) {c d : Byte} {y : Fin 6} {x : Fin 84} {p : Panel}
    (hl : p.listening = true) (hy : decodeCommand p.h c = some (.sety y))
    (hx : decodeCommand p.h d = some (.setx x)) :
    replay b (frameOf soft .low [c] ++ frameOf soft .low [d]) p = .ok (cursorMoved soft y x p) := by
  rw [replay_append_ok (replay_command b hl hy), replay_command b (k := .setx x) (by exact hl) (by exact hx)]
  cases soft <;> rfl

/-- On the display, CURSOR runs its two command frames (R130, R138). -/
theorem exec_cursor_of_inRange {bank column : Int} {s : State} (hready : s.phase = .ready)
    (hr : cursorInRange bank column = true) :
    exec (.cursor bank column) s = conclude (runActions (requestActions (.cursor bank column) s) s) := by
  change accept s _ = _
  rw [accept_ready _ hready, cursorCmds_of_inRange hr]
  rfl

/-- On the display, with a listening controller in the basic set, CURSOR sets the counter to its position and
leaves the RAM (R138). -/
theorem exec_cursor_moves {bank column : Int} {s : State} (hready : s.phase = .ready) (hrel : Reliable s)
    (hl : s.panel.listening = true) (hh : s.panel.h = .val .basic)
    (hr : cursorInRange bank column = true) :
    ∃ (y : Fin 6) (x : Fin 84), (y.val : Int) = bank - 1 ∧ (x.val : Int) = (column - 1) * 6 ∧
      exec (.cursor bank column) s = .next ((landed (requestActions (.cursor bank column) s) s
        (cursorMoved s.cfg.csSoft y x s.panel)).report .ok) := by
  obtain ⟨hb1, hb6, hc1, hc14⟩ := (cursorInRange_iff _ _).1 hr
  obtain ⟨y, hy, hdecy⟩ := decode_encSety hb1 hb6
  obtain ⟨x, hx, hdecx⟩ := decode_encSetx hc1 hc14
  have hevents : eventsOf (requestActions (.cursor bank column) s) =
      frameOf s.cfg.csSoft .low [encSety bank] ++ frameOf s.cfg.csSoft .low [encSetx column] := by
    simp [requestActions, transferEvents, commandEvents_eq]
  have hreplay : replay s.cfg.resetPulseOk (eventsOf (requestActions (.cursor bank column) s)) s.panel =
      .ok (cursorMoved s.cfg.csSoft y x s.panel) :=
    hevents ▸ replay_setCounter _ hl (hh ▸ hdecy) (hh ▸ hdecx)
  refine ⟨y, x, hy, hx, ?_⟩
  rw [exec_cursor_of_inRange hready hr, runActions_reliable hrel hreplay]
  rfl

/-- `OFFSET` is not negative on the display, so its formula holds over the integers (R91). -/
theorem offset_cast {bank column : Int} (hb : 1 ≤ bank) (hc : 1 ≤ column) :
    (offset bank column : Int) = (bank - 1) * 84 + (column - 1) * 6 :=
  Int.toNat_of_nonneg (by omega)

/-- `OFFSET` is the cell of the counter that CURSOR sets (R91). -/
theorem offset_eq_ddramIndex {bank column : Int} {y : Fin 6} {x : Fin 84} (hy : (y.val : Int) = bank - 1)
    (hx : (x.val : Int) = (column - 1) * 6) : offset bank column = ddramIndex y x := by
  unfold offset ddramIndex
  omega

/-- Settles O20: CURSOR sets the counter to the cell `OFFSET`, and a data byte is stored where the counter
points. -/
theorem cursorSetsOffset : Obligations.CursorSetsOffset := by
  intro bank column hb1 hb6 hc1 hc14
  have hoff := offset_cast hb1 hc1
  refine ⟨hoff, by omega, by omega, by omega, fun s d hready hrel hl hh => ?stored⟩
  case stored =>
    obtain ⟨y, x, hy, hx, hcursor⟩ := exec_cursor_moves hready hrel hl hh
      ((cursorInRange_iff _ _).2 ⟨hb1, hb6, hc1, hc14⟩)
    refine ⟨_, _, hcursor, exec_datawr d _, ?_⟩
    rw [State.setPanel_panel, State.report_panel, landed_panel,
      recvData_stores (p := cursorMoved s.cfg.csSoft y x s.panel) d hl rfl rfl,
      offset_eq_ddramIndex hy hx]
    exact ⟨Memory.read_write_same _ _ d, fun a ha => Memory.read_write_other _ d ha⟩

end Sys2Proof.Machine
end

section
/-! O13 and O14: what a command byte does when it arrives at the controller (`42_command_encoder.md` R110), one
equation per arm, and what it leaves alone. -/

namespace Sys2Proof.Machine

/-- Everything a command byte can do to the bank of the counter. -/
theorem controllerSide_ay_cases (k : Command) (p : Panel) :
    (controllerSide k p).ay = p.ay ∨ ∃ y, k = .sety y := by
  cases k with
  | sety y => exact .inr ⟨y, rfl⟩
  | _ => exact .inl rfl

/-- Everything a command byte can do to the column of the counter. -/
theorem controllerSide_ax_cases (k : Command) (p : Panel) :
    (controllerSide k p).ax = p.ax ∨ ∃ x, k = .setx x := by
  cases k with
  | setx x => exact .inr ⟨x, rfl⟩
  | _ => exact .inl rfl

/-- A byte that a listening controller takes is a command it reads (R110). -/
theorem recvCommand_ok_of_listening {p q : Panel} {c : Byte} (hl : p.listening = true)
    (h : recvCommand c p = .ok q) : ∃ k, decodeCommand p.h c = some k ∧ q = controllerSide k p := by
  obtain ⟨hdeaf, -⟩ | ⟨-, hread⟩ := recvCommand_cases h
  · exact absurd (hl.symm.trans hdeaf) (by decide)
  · exact hread

section
variable {s : State} {c : Byte}

theorem commandArrives_deaf (hdeaf : s.panel.listening = false) :
    commandArrives c s = .next (s.setPanel s.panel.lost) := by
  rw [commandArrives, recvCommand_deaf hdeaf]

theorem commandArrives_listening {k : Command} (hl : s.panel.listening = true)
    (hk : decodeCommand s.panel.h c = some k) :
    commandArrives c s = .next (s.setPanel (controllerSide k s.panel)) := by
  rw [commandArrives, recvCommand_listening hl hk]

theorem commandArrives_reserved (hl : s.panel.listening = true) (hk : decodeCommand s.panel.h c = none) :
    commandArrives c s = .refused (.reservedCommand s.panel.h c) := by
  rw [commandArrives, recvCommand_reserved hl hk]

end

/-- A row of the `CMD` format is its byte arriving at the controller (R110, log 12). -/
theorem exec_of_isCommand {i : Instr} (hi : i.isCommand = true) :
    ∃ c, ∀ s, exec i s = commandArrives c s := by
  cases i with
  | funcsetExt => exact ⟨funcsetExtByte, fun _ => rfl⟩
  | setvop v => exact ⟨setvopByte v, fun _ => rfl⟩
  | setbias => exact ⟨setbiasByte, fun _ => rfl⟩
  | funcsetBasic => exact ⟨funcsetBasicByte, fun _ => rfl⟩
  | dispAllon => exact ⟨dispAllonByte, fun _ => rfl⟩
  | dispNormal => exact ⟨dispNormalByte, fun _ => rfl⟩
  | sety y => exact ⟨setyByte y, fun _ => rfl⟩
  | setx x => exact ⟨setxByte x, fun _ => rfl⟩
  | _ => cases hi

/-- Run on its own, a command the controller reads is its byte arriving there (R110, log 12). -/
theorem exec_toInstr (k : Command) (s : State) : exec k.toInstr s = commandArrives k.byte s := by
  cases k <;> rfl

/-- A command byte arrives at the controller whether or not it is reserved (R68, R110). -/
theorem step_of_commandByte {s : State} {c : Byte} {rest : List Input}
    (hin : s.inbox = .busUnit .command c :: rest) : step s = commandArrives c (s.setInbox rest) := by
  cases hk : decodeCommand s.panel.h c with
  | none => exact step_of_decode_error hin (e := .reservedCommand s.panel.h c) (by rw [decode, hk])
  | some k =>
    obtain ⟨-, rfl⟩ := decodeCommand_eq_some_iff.1 hk
    rw [step_of_decode_ok hin (i := k.toInstr) (by rw [decode, hk]), exec_toInstr]

/-- Settles O13: the byte arrives, and the controller does not listen, or reads a command, or has none. -/
theorem commandByteReception : Obligations.CommandByteReception := by
  intro s c rest hin
  rw [step_of_commandByte hin]
  refine ⟨fun hdeaf => ?deaf, fun hl => ⟨fun k hk => ?command, fun hk => ?reserved, fun t ht => ?frame⟩⟩
  case deaf => exact commandArrives_deaf (s := s.setInbox rest) hdeaf
  case command =>
    obtain ⟨-, rfl⟩ := decodeCommand_eq_some_iff.1 hk
    exact (exec_toInstr k _).symm
  case reserved => exact commandArrives_reserved (s := s.setInbox rest) hl hk
  case frame =>
    obtain ⟨p, hp, rfl⟩ := commandArrives_next ht
    obtain ⟨k, hk, rfl⟩ := recvCommand_ok_of_listening (p := s.panel) hl hp
    refine ⟨controllerSide_ddram k s.panel, fun hay => ?_, fun hax => ?_⟩
    · obtain ⟨y, rfl⟩ := (controllerSide_ay_cases k s.panel).resolve_left hay
      exact ⟨y, hk⟩
    · obtain ⟨x, rfl⟩ := (controllerSide_ax_cases k s.panel).resolve_left hax
      exact ⟨x, hk⟩

/-- Settles O14: a command is one received byte, which changes the panel only, and of the panel no line. -/
theorem commandFrame : Obligations.CommandFrame := by
  intro i s hi
  obtain ⟨c, hc⟩ := exec_of_isCommand hi
  rw [hc]
  refine ⟨fun t ht => ?next, fun hdeaf => ?deaf⟩
  case next =>
    obtain ⟨p, hp, rfl⟩ := commandArrives_next ht
    obtain ⟨hrst, hdc, hbl, hcs, hdone⟩ := recvByte_lines hp
    refine ⟨rfl, hrst, hdc, hbl, hcs, hdone, fun hl => ?_⟩
    obtain ⟨k, -, rfl⟩ := recvCommand_ok_of_listening hl hp
    exact controllerSide_ddram k s.panel
  case deaf => exact commandArrives_deaf hdeaf

end Sys2Proof.Machine
end

section
/-! O9 to O12: each command under each instruction set (`42_command_encoder.md` R100 to R107), from the map of
R66: the command its byte stands for, or none. -/

namespace Sys2Proof.Machine

/-! ## Reserved bytes (R66) -/

/-- A byte outside the function set is reserved where the column of the set in force has no command for it. -/
theorem decodeCommand_eq_none {h : Reg InstrSet} {c : Byte} (h20 : c.toNat ≠ 0x20) (h21 : c.toNat ≠ 0x21)
    (hbasic : h = .val .basic → decodeBasic c = none)
    (hext : h = .val .extended → decodeExtended c = none) : decodeCommand h c = none := by
  refine Option.eq_none_iff_forall_ne_some.2 fun k hk => ?_
  rcases decodeCommand_cases hk with ⟨rfl, -⟩ | ⟨rfl, -⟩ | ⟨hh, hb⟩ | ⟨hh, he⟩
  · exact h20 rfl
  · exact h21 rfl
  · exact absurd ((hbasic hh).symm.trans hb) nofun
  · exact absurd ((hext hh).symm.trans he) nofun

theorem decodeExtended_sety (y : BitVec 3) : decodeExtended (setyByte y) = none := by
  revert y; decide

theorem decodeBasic_sety {y : BitVec 3} (hy : 6 ≤ y.toNat) : decodeBasic (setyByte y) = none := by
  revert y; decide

theorem decodeBasic_setx {x : BitVec 7} (hx : 84 ≤ x.toNat) : decodeBasic (setxByte x) = none := by
  revert x; decide

/-! ## The commands at a listening controller -/

section
variable {s : State} (hl : s.panel.listening = true)
include hl

/-- SETBIAS is a command of the extended set alone. -/
theorem exec_setbias_reserved (hh : s.panel.h ≠ .val .extended) :
    exec .setbias s = .refused (.reservedCommand s.panel.h 0x13#8) :=
  commandArrives_reserved hl
    (decodeCommand_eq_none (by decide) (by decide) (fun _ => by decide) fun h => absurd h hh)

/-- Outside the basic set a byte that the extended set has no command for is reserved. -/
theorem commandArrives_outsideBasic {c : Byte} (hh : s.panel.h ≠ .val .basic) (h20 : c.toNat ≠ 0x20)
    (h21 : c.toNat ≠ 0x21) (hext : decodeExtended c = none) :
    commandArrives c s = .refused (.reservedCommand s.panel.h c) :=
  commandArrives_reserved hl (decodeCommand_eq_none h20 h21 (fun h => absurd h hh) fun _ => hext)

/-- SETY is reserved under another `H`, and in the basic set past the last bank. -/
theorem exec_sety_reserved {y : BitVec 3} (hy : s.panel.h = .val .basic → 6 ≤ y.toNat) :
    exec (.sety y) s = .refused (.reservedCommand s.panel.h (setyByte y)) := by
  have hc := setyByte_toNat y
  have hlt := y.isLt
  exact commandArrives_reserved hl (decodeCommand_eq_none (by omega) (by omega)
    (fun h => decodeBasic_sety (hy h)) fun _ => decodeExtended_sety y)

/-- SETX is reserved with `H` unspecified, and in the basic set past the last pixel column. -/
theorem exec_setx_reserved {x : BitVec 7} (hext : s.panel.h ≠ .val .extended)
    (hx : s.panel.h = .val .basic → 84 ≤ x.toNat) :
    exec (.setx x) s = .refused (.reservedCommand s.panel.h (setxByte x)) := by
  have hc := setxByte_toNat x
  exact commandArrives_reserved hl (decodeCommand_eq_none (by omega) (by omega)
    (fun h => decodeBasic_setx (hx h)) fun h => absurd h hext)

theorem exec_setx_bot (x : BitVec 7) (hh : s.panel.h = .bot) :
    exec (.setx x) s = .refused (.reservedCommand .bot (setxByte x)) :=
  hh ▸ exec_setx_reserved hl (by rw [hh]; nofun) (by rw [hh]; nofun)

end

/-- SETVOP and SETX have one byte, and act as it is read (R66, log 12). -/
theorem exec_setvop_eq_setx (v : BitVec 7) (s : State) : exec (.setvop v) s = exec (.setx v) s := rfl

/-! ## The encoder's bytes -/

theorem encode_setvop {contrast : Int} (h0 : 0 ≤ contrast) (h1 : contrast ≤ 127) :
    encode (.setvop (BitVec.ofInt 7 contrast)) = .busUnit .command (encSetvop contrast) := by
  obtain ⟨-, hc⟩ := decodeCommand_eq_some_iff.1 (decode_encSetvop h0 h1)
  rw [hc]
  rfl

theorem encode_sety {bank : Int} (h0 : 1 ≤ bank) (h1 : bank ≤ 6) :
    encode (.sety (BitVec.ofInt 3 (bank - 1))) = .busUnit .command (encSety bank) := by
  obtain ⟨y, hy, hdec⟩ := decode_encSety h0 h1
  obtain ⟨-, hc⟩ := decodeCommand_eq_some_iff.1 hdec
  rw [hc, ← hy, BitVec.ofInt_natCast]
  rfl

theorem encode_setx {column : Int} (h0 : 1 ≤ column) (h1 : column ≤ 14) :
    encode (.setx (BitVec.ofInt 7 ((column - 1) * 6))) = .busUnit .command (encSetx column) := by
  obtain ⟨x, hx, hdec⟩ := decode_encSetx h0 h1
  obtain ⟨-, hc⟩ := decodeCommand_eq_some_iff.1 hdec
  rw [hc, ← hx, BitVec.ofInt_natCast]
  rfl

/-! ## The obligations -/

/-- Settles O12: SETY and SETX at the two boundaries of the basic set, then under the other sets, then the
bytes. -/
theorem addressCommands : Obligations.AddressCommands := by
  refine ⟨fun s y hl hh => ⟨fun hy => ?sety, fun hy => ?setyPast⟩,
    fun s x hl hh => ⟨fun hx => ?setx, fun hx => ?setxPast⟩,
    fun s y x hl => ⟨fun hh => ?setyOther, fun _ => (exec_setvop_eq_setx x s).symm, fun hh => ?setxBot⟩,
    fun bank h0 h1 => ⟨encode_sety h0 h1, encSety_toNat h0 h1⟩,
    fun column h0 h1 => ⟨encode_setx h0 h1, encSetx_toNat h0 h1⟩,
    fun bank column hb1 hb6 hc1 hc14 => ?onDisplay⟩
  case sety => exact commandArrives_listening hl (hh ▸ decodeCommand_sety hy)
  case setyPast => exact hh ▸ exec_sety_reserved hl fun _ => hy
  case setx => exact commandArrives_listening hl (hh ▸ decodeCommand_setx hx)
  case setxPast => exact hh ▸ exec_setx_reserved hl (by rw [hh]; nofun) fun _ => hx
  case setyOther => exact exec_sety_reserved hl fun h => absurd h hh
  case setxBot => exact exec_setx_bot hl x hh
  case onDisplay => exact cursorCmds_of_inRange ((cursorInRange_iff _ _).2 ⟨hb1, hb6, hc1, hc14⟩)

/-- Settles O9: every `H` reads the two bytes alike. -/
theorem functionSetCommands : Obligations.FunctionSetCommands :=
  ⟨fun _ hl => ⟨commandArrives_listening hl (decodeCommand_ext _),
    commandArrives_listening hl (decodeCommand_basic _)⟩, rfl, rfl⟩

/-- Settles O10: the two bytes under each of the three values of `H`, then the encoder's. -/
theorem contrastAndBiasCommands : Obligations.ContrastAndBiasCommands := by
  refine ⟨fun s v hl hh => ⟨?setvop, ?setbias⟩,
    fun s v hl hh => ⟨exec_setvop_eq_setx v s, ?biasBasic⟩,
    fun s v hl hh => ⟨(exec_setvop_eq_setx v s).trans (exec_setx_bot hl v hh), ?biasBot⟩,
    fun contrast h0 h1 => ⟨encode_setvop h0 h1, encSetvop_toNat h0 h1⟩, rfl⟩
  case setvop => exact commandArrives_listening hl (hh ▸ decodeCommand_vop v)
  case setbias => exact commandArrives_listening hl (hh ▸ decodeCommand_bias)
  case biasBasic => exact hh ▸ exec_setbias_reserved hl (by rw [hh]; nofun)
  case biasBot => exact hh ▸ exec_setbias_reserved hl (by rw [hh]; nofun)

theorem pixel_of_mode_allOn {p : Panel} (px : Fin 84) (py : Fin 48) (hmode : p.dmode = .val .allOn) :
    pixel p px py = .val true := by
  simp only [pixel, hmode]

/-- Settles O11: the two bytes in the basic set and outside it, and the two modes of the glass (R48). -/
theorem displayModeCommands : Obligations.DisplayModeCommands := by
  refine ⟨fun s hl hh => ⟨?allOn, ?normal⟩,
    fun s hl hh => ⟨?allOnReserved, ?normalReserved⟩,
    fun _ px py hmode => pixel_of_mode_allOn px py hmode, fun _ _ _ _ hmode hcell => pixel_of_cell hmode hcell,
    rfl, rfl⟩
  case allOn => exact commandArrives_listening hl (hh ▸ decodeCommand_allOn)
  case normal => exact commandArrives_listening hl (hh ▸ decodeCommand_normal)
  case allOnReserved => exact commandArrives_outsideBasic hl hh (by decide) (by decide) (by decide)
  case normalReserved => exact commandArrives_outsideBasic hl hh (by decide) (by decide) (by decide)

end Sys2Proof.Machine
end

section
/-! O21 and O22: a stand-alone WRITE is the events of its frame (`43_write_framing.md` R120), and an empty payload
is not defined (R125). -/

namespace Sys2Proof.Machine

@[simp] theorem exec_write_nil (mode : Mode) (s : State) :
    exec (.write mode []) s = .refused .emptyPayload := rfl

/-- Settles O22: the payload is looked at first. -/
theorem emptyWriteRefused : Obligations.EmptyWriteRefused := exec_write_nil

/-- A WRITE of a payload emits its frame and concludes (R120). -/
theorem exec_write {payload : List Byte} (mode : Mode) (s : State) (hne : payload ≠ []) :
    exec (.write mode payload) s = concludeWrite (runActions
      (emitAll (frameOf s.cfg.csSoft mode.level (txBytes s.inverse mode payload))) s) := by
  rw [← writeEvents_eq]
  cases payload with
  | nil => exact absurd rfl hne
  | cons c cs => rfl

/-- Events alone write the panel, the trace and the tape. -/
theorem landed_emitAll (es : List Event) (s : State) (p : Panel) :
    landed (emitAll es) s p =
      { s with panel := p, out := s.out ++ es, transport := s.transport.drop es.length } := by
  rw [landed, flagsOf_emitAll, eventsOf_emitAll]

/-- Events that have no meaning at the controller refuse the run, where the transport is reliable (R68). -/
theorem runActions_emitAll_refused {es : List Event} {s : State} {r : Refusal} (hrel : Reliable s)
    (hp : replay s.cfg.resetPulseOk es s.panel = .error r) : runActions (emitAll es) s = .refused r := by
  induction es generalizing s with
  | nil => cases hp
  | cons e es ih =>
    have htape : s.transport = [] := hrel
    rcases emit_cases e s with ⟨p, ha, he, -⟩ | ⟨r', ha, he, -⟩ | ⟨n, rest, hf, -⟩ | ⟨rest, hf, -⟩
    · rw [replay, ha] at hp
      simp only [emitAll, List.map_cons, runActions, perform, he]
      exact ih (s := afterEmit e s p) (congrArg List.tail htape) hp
    · rw [replay, ha] at hp
      injection hp with hp
      simp only [emitAll, List.map_cons, runActions, perform, he, hp]
    · rw [htape] at hf; cases hf
    · rw [htape] at hf; cases hf

/-- A controller that does not listen takes command bytes without reading them (R110). -/
theorem deliver_commands_deaf (cs : List Byte) {p : Panel} (hl : p.listening = false) :
    ∃ q, deliver (.val .low) cs p = .ok q := by
  induction cs generalizing p with
  | nil => exact ⟨p, rfl⟩
  | cons c cs ih =>
    obtain ⟨q, hq⟩ := ih (p := p.lost) hl
    exact ⟨q, by rw [deliver, recvByte, recvCommand_deaf hl]; exact hq⟩

section
variable {mode : Mode} {payload : List Byte} {s : State}

/-- The bytes of a WRITE are delivered if they are data, or the controller does not listen, or they are one
command that it reads (R45, R110). -/
theorem deliver_write (h : mode = .data ∨ s.panel.listening = false ∨
      ∃ c k, payload = [c] ∧ decodeCommand s.panel.h c = some k) :
    ∃ q, deliver (.val mode.level) (txBytes s.inverse mode payload)
      (selected s.cfg.csSoft mode.level s.panel) = .ok q := by
  cases mode with
  | data => exact ⟨_, deliver_data ..⟩
  | command =>
    cases hl : s.panel.listening with
    | false => exact deliver_commands_deaf _ hl
    | true =>
      rcases h with h | h | ⟨c, k, rfl, hk⟩
      · cases h
      · rw [hl] at h; cases h
      · exact ⟨_, (deliver_command ..).trans
          (recvCommand_listening (p := selected s.cfg.csSoft .low s.panel) hl hk)⟩

variable (hne : payload ≠ []) (hrel : Reliable s)
include hne hrel

/-- Where the bytes are delivered, a reliable WRITE has done its frame and no more (R120, R121). -/
theorem exec_write_delivered {q : Panel}
    (h : deliver (.val mode.level) (txBytes s.inverse mode payload)
      (selected s.cfg.csSoft mode.level s.panel) = .ok q) :
    exec (.write mode payload) s = .next { s with
      panel := deselected s.cfg.csSoft q
      out := s.out ++ frameOf s.cfg.csSoft mode.level (txBytes s.inverse mode payload) } := by
  have htape : s.transport = [] := hrel
  rw [exec_write mode s hne, runActions_reliable htape (by rw [eventsOf_emitAll, replay_frame, h]),
    landed_emitAll, htape, List.drop_nil]
  rfl

/-- Where a byte has no meaning at the controller, a reliable WRITE is refused as the byte is (R68, log 11). -/
theorem exec_write_refused {r : Refusal}
    (h : deliver (.val mode.level) (txBytes s.inverse mode payload)
      (selected s.cfg.csSoft mode.level s.panel) = .error r) :
    exec (.write mode payload) s = .refused r := by
  rw [exec_write mode s hne, runActions_emitAll_refused hrel (by rw [replay_frame, h])]
  rfl

end

/-- Settles O21: a frame delivers its bytes between its drives of `CS` and `DC`. -/
theorem writeFrame : Obligations.WriteFrame := by
  intro mode payload s hne hrel
  refine ⟨fun q => exec_write_delivered hne hrel, fun r => exec_write_refused hne hrel, fun h => ?completes⟩
  case completes =>
    obtain ⟨q, hq⟩ := deliver_write h
    exact ⟨q, hq, exec_write_delivered hne hrel hq⟩

end Sys2Proof.Machine
end

section
/-! O52: a stand-alone WRITE on any transport (`43_write_framing.md` R120, `60_exceptions.md` R165,
`70_reset_and_hazards.md` R191). -/

namespace Sys2Proof.Machine

/-- The first `k` events, the one after them, and the rest. -/
theorem emitAll_split {es : List Event} {k : Nat} (hk : k < es.length) :
    emitAll es = emitAll (es.take k) ++ .emit es[k] :: emitAll (es.drop (k + 1)) := by
  simp only [emitAll]
  rw [← List.map_cons, ← List.map_append, ← List.drop_eq_getElem_cons hk, List.take_append_drop]

section
variable {es : List Event} {s : State} {p : Panel} {rest : List CallEnd}

section
variable {k : Nat} (hk : k < es.length)
  (hp : replay s.cfg.resetPulseOk (es.take k) s.panel = .ok p)
include hk hp

/-- Events whose `k`-th call fails: the first `k` happened (R165). -/
theorem runActions_emitAll_fails_at {report : Nat}
    (ht : s.transport = List.replicate k .succeeds ++ .fails report :: rest) :
    runActions (emitAll es) s =
      .failed { s with panel := p, out := s.out ++ es.take k, transport := rest } report := by
  rw [emitAll_split hk, runActions_fails_at (p := p) (rest := rest) (n := report) ?tape ?events,
    landed_emitAll]
  · rfl
  case tape => rw [eventsOf_emitAll, List.length_take_of_le hk.le, ht]
  case events => rw [eventsOf_emitAll, hp]

/-- Events whose `k`-th call never returns have no end (R191). -/
theorem runActions_emitAll_hangs_at (ht : s.transport = List.replicate k .succeeds ++ .hangs :: rest) :
    runActions (emitAll es) s = .hung := by
  rw [emitAll_split hk]
  refine runActions_hangs_at (p := p) (rest := rest) ?tape ?events
  case tape => rw [eventsOf_emitAll, List.length_take_of_le hk.le, ht]
  case events => rw [eventsOf_emitAll, hp]

end

/-- Events whose calls all succeed happen, and use up that much of the tape. -/
theorem runActions_emitAll_succeed (hp : replay s.cfg.resetPulseOk es s.panel = .ok p)
    (ht : s.transport = List.replicate es.length .succeeds ++ rest) :
    runActions (emitAll es) s = .done { s with panel := p, out := s.out ++ es, transport := rest } := by
  rw [runActions_succeed (p := p) ?tape ?events, landed_emitAll, ht, List.drop_left' List.length_replicate]
  case tape => simp [ht, List.take_left']
  case events => rw [eventsOf_emitAll, hp]

end

/-- Settles O52: the WRITE concludes as its events end. -/
theorem writeTransportEnds : Obligations.WriteTransportEnds := by
  intro mode payload s k rest hne
  have run := exec_write mode s hne
  refine ⟨fun report p hk ht hp => ?fails, fun p hk ht hp => ?hangs, fun p ht hp => ?succeeds,
    fun r ht hp => ?refused⟩
  case fails => exact run.trans (congrArg concludeWrite (runActions_emitAll_fails_at hk hp ht))
  case hangs => exact run.trans (congrArg concludeWrite (runActions_emitAll_hangs_at hk hp ht))
  case succeeds => exact run.trans (congrArg concludeWrite (runActions_emitAll_succeed hp ht))
  case refused =>
    exact run.trans (congrArg concludeWrite
      (runActions_refused_at (k := k) ht (by rw [eventsOf_emitAll]; exact hp)))

end Sys2Proof.Machine
end

section
/-! O23: the complement (`43_write_framing.md` R124). Events do not look at the flag `inverse`, which WRITE has
read when it made its frame. -/

namespace Sys2Proof.Machine

theorem State.setInverse_self {s : State} {v : Bool} (h : s.inverse = v) : s.setInverse v = s := by
  subst h
  rfl

/-- A flow that ends with the flag `inverse` at another value. -/
def Flow.setInverse (v : Bool) : Flow → Flow
  | .done s => .done (s.setInverse v)
  | .failed s n => .failed (s.setInverse v) n
  | .hung => .hung
  | .refused r => .refused r

theorem land_setInverse (e : Event) (s : State) (v : Bool) :
    land e (s.setInverse v) = (land e s).setInverse v := by
  simp only [land, State.setInverse_cfg, State.setInverse_panel]
  cases applyEvent s.cfg.resetPulseOk e s.panel with
  | ok p => rfl
  | error r => rfl

theorem emit_setInverse (e : Event) (s : State) (v : Bool) :
    emit e (s.setInverse v) = (emit e s).setInverse v := by
  simp only [emit, State.setInverse_transport]
  match s.transport with
  | [] => exact land_setInverse e s v
  | .succeeds :: rest => exact land_setInverse e (s.setTransport rest) v
  | .fails n :: rest => rfl
  | .hangs :: rest => rfl

/-- Events neither read nor write `inverse`. -/
theorem runActions_emitAll_setInverse (es : List Event) (s : State) (v : Bool) :
    runActions (emitAll es) (s.setInverse v) = (runActions (emitAll es) s).setInverse v := by
  induction es generalizing s with
  | nil => rfl
  | cons e es ih =>
    simp only [emitAll, List.map_cons, runActions, perform, emit_setInverse]
    cases emit e s with
    | done t => exact ih t
    | failed t n => rfl
    | hung => rfl
    | refused r => rfl

/-- A WRITE's events end in a state whatever `inverse` is, and leave it as it was. -/
theorem concludeWrite_setInverse {es : List Event} {s t : State} (v : Bool)
    (h : concludeWrite (runActions (emitAll es) s) = .next t) :
    concludeWrite (runActions (emitAll es) (s.setInverse v)) = .next (t.setInverse v) := by
  rw [runActions_emitAll_setInverse]
  rcases concludeWrite_next h with hu | ⟨u, n, hu, rfl⟩ <;> rw [hu] <;> rfl

/-- A data write with `inverse` set sends what the write of the complemented payload sends with `inverse` clear
(R124). -/
theorem exec_write_complemented {payload : List Byte} {s : State} (hne : payload ≠ [])
    (hs : s.inverse = true) :
    ∃ es, exec (.write .data payload) s = concludeWrite (runActions (emitAll es) s) ∧
      exec (.write .data (payload.map complement)) (s.setInverse false) =
        concludeWrite (runActions (emitAll es) (s.setInverse false)) := by
  refine ⟨frameOf s.cfg.csSoft .high (payload.map complement), ?_, ?_⟩
  · rw [exec_write .data s hne, hs]; rfl
  · rw [exec_write .data _ (by simpa using hne)]; rfl

theorem complement_toNat (b : Byte) : (complement b).toNat = 255 - b.toNat := by
  rw [complement, BitVec.toNat_not]

theorem complement_complement (b : Byte) : complement (complement b) = b := BitVec.not_not

/-- Settles O23: both writes run the same events, and the flag goes along. -/
theorem complementLaw : Obligations.ComplementLaw := by
  refine ⟨fun b => ⟨complement_toNat b, complement_complement b⟩, rfl, rfl, fun payload s t hs => ?write⟩
  case write =>
    rcases eq_or_ne payload [] with rfl | hne
    · simp
    obtain ⟨es, hset, hclear⟩ := exec_write_complemented hne hs
    refine ⟨fun h => ⟨?flag, hclear.trans (concludeWrite_setInverse false (hset ▸ h))⟩, fun ⟨ht, h⟩ => ?set⟩
    case flag =>
      obtain ⟨-, -, hinverse, -⟩ := onlyTheirWriters _ s t h
      exact (hinverse nofun).trans hs
    case set =>
      have hback : concludeWrite (runActions (emitAll es) (s.setInverse true)) = .next (t.setInverse true) :=
        concludeWrite_setInverse (s := s.setInverse false) (t := t.setInverse false) true (hclear.symm.trans h)
      rw [State.setInverse_self hs, State.setInverse_self ht] at hback
      exact hset.trans hback

end Sys2Proof.Machine
end

section
/-! How an accepted request ends on a reliable transport, said once for all of them, and O24 and O31
(`44_driver_ops.md` R130, R132). -/

namespace Sys2Proof.Machine

section
variable {i : Instr} {s : State}

/-- A request whose check fails ends at once with the status of the check (R171, R172). -/
theorem exec_of_turnedAway {st : Status} (hi : i.isRequest = true) (ha : turnedAway i s = some st) :
    exec i s = .next (s.report st) := by
  rcases exec_request s hi with ⟨st', h, -, hexec⟩ | ⟨h, -⟩ | ⟨h, -⟩ <;> rw [ha] at h
  · injection h with h
    exact h ▸ hexec
  · cases h
  · cases h

/-- With a reliable transport, an accepted request whose events have a meaning writes its flags, the panel, the
trace and the status OK. -/
theorem exec_of_accepted {es : List Event} {p : Panel} (hi : i.isRequest = true)
    (ha : turnedAway i s = none) (hrel : Reliable s) (hes : eventsOf (requestActions i s) = es)
    (hp : replay s.cfg.resetPulseOk es s.panel = .ok p) :
    exec i s = .next { flagsOf (requestActions i s) s with
      panel := p, out := s.out ++ es, statuses := s.statuses ++ [.ok] } := by
  subst hes
  have htape : s.transport = [] := hrel
  have hreport : (landed (requestActions i s) s p).report .ok = { flagsOf (requestActions i s) s with
      panel := p, out := s.out ++ eventsOf (requestActions i s), statuses := s.statuses ++ [.ok] } := by
    simp [State.report, landed, htape]
  have hrun := runActions_reliable htape hp
  rcases exec_request s hi with ⟨st, h, -, -⟩ | ⟨-, -, hexec⟩ | ⟨-, -, -, hexec⟩
  · rw [ha] at h; cases h
  · rw [hexec, hrun, ← hreport]; rfl
  · rw [hexec, hrun, ← hreport]; rfl

theorem isRequest_of_needsReady (hn : i.needsReady = true) : i.isRequest = true := by
  cases i with
  | clear | cursor | backlight | inverse | printstring | printimage => rfl
  | _ => cases hn

/-- Before `Ready` the phase is looked at first (R171). -/
theorem turnedAway_of_notReady (hn : i.needsReady = true) (hphase : s.phase ≠ .ready) :
    turnedAway i s = some .notReady := by
  cases i with
  | clear | cursor | backlight | inverse | printstring | printimage => exact if_neg hphase
  | _ => cases hn

/-- Before `Ready` every operation but REINIT returns NOT_READY (R130, D11). -/
theorem exec_of_notReady (hn : i.needsReady = true) (hphase : s.phase ≠ .ready) :
    exec i s = .next (s.report .notReady) :=
  exec_of_turnedAway (isRequest_of_needsReady hn) (turnedAway_of_notReady hn hphase)

/-- REINIT looks at no phase, so it never returns NOT_READY (R130, R161). -/
theorem reinit_ne_notReady {t : State} (h : exec .reinit s = .next t) :
    t.statuses ≠ s.statuses ++ [.notReady] := by
  intro hst
  rcases request_next rfl h with
    ⟨st, ha, -, rfl⟩ | ⟨-, p, -, rfl⟩ | ⟨-, as, e, as', rest, p, n, -, -, -, rfl⟩
  · obtain rfl : st = .notReady := report_statuses_inj hst
    simp [turnedAway] at ha
  · simp at hst
  · simp at hst

/-- The panel a completed REINIT leaves, with the premise `RESET_PULSE_OK` and without it. -/
def reinitPanel (s : State) : Panel :=
  if s.cfg.resetPulseOk then reinitialised s (clearedMemory s.inverse) else opened s

/-- The state a completed REINIT leaves (R131). -/
def reinitDone (s : State) : State :=
  { s with
    phase := .ready, busOpen := true, panel := reinitPanel s
    out := s.out ++ eventsOf (reinitActions s), statuses := s.statuses ++ [.ok] }

section
variable (h0 : 0 ≤ s.cfg.contrast) (h1 : s.cfg.contrast ≤ 127)
include h0 h1

theorem replay_reinitPanel :
    replay s.cfg.resetPulseOk (eventsOf (reinitActions s)) s.panel = .ok (reinitPanel s) := by
  cases hp : s.cfg.resetPulseOk with
  | true => rw [← hp, replay_reinit hp h0 h1, reinitPanel, if_pos hp]
  | false => rw [← hp, replay_reinit_deaf hp, reinitPanel, if_neg (by simp [hp])]

/-- With a legal contrast and a reliable transport REINIT completes, from every phase (R130, R131). -/
theorem exec_reinit_reliable (hrel : Reliable s) : exec .reinit s = .next (reinitDone s) := by
  rw [exec_of_accepted rfl ((turnedAway_reinit s).2 ((contrastLegal_iff _).2 ⟨h0, h1⟩)) hrel rfl
    (replay_reinitPanel h0 h1), requestActions, flagsOf_reinit]
  rfl

end

end

/-- Settles O24: the phase is the first check of every operation but REINIT, which has none of it. -/
theorem acceptanceByPhase : Obligations.AcceptanceByPhase := by
  refine ⟨fun i s hn hphase => exec_of_notReady hn hphase, fun s t => reinit_ne_notReady,
    fun s hrel h0 h1 => ⟨_, exec_reinit_reliable h0 h1 hrel, rfl⟩⟩

/-- Settles O31: REINIT is neither INVERSE nor BACKLIGHT. -/
theorem reinitKeepsModeFlags : Obligations.ReinitKeepsModeFlags := by
  intro s t h
  obtain ⟨hinv, hbl⟩ := request_keeps_modes rfl h
  exact ⟨hinv nofun, hbl nofun⟩

end Sys2Proof.Machine
end

section
/-! O30 and O32: the events of REINIT, its byte stream, and what a second one adds (`44_driver_ops.md` R131, R133). -/

namespace Sys2Proof.Machine

/-- A byte is the number it holds. -/
theorem byte_eq_ofInt {c : Byte} {n : Int} (h : (c.toNat : Int) = n) : c = BitVec.ofInt 8 n := by
  rw [← h, BitVec.ofInt_natCast, BitVec.ofNat_toNat, BitVec.setWidth_eq]

theorem homeFrames_eq (inverse : Bool) (payload : List Byte) :
    homeFrames inverse payload = [(.low, [0x40#8]), (.low, [0x80#8]), (.high, txBytes inverse .data payload)] :=
  rfl

/-- The frames of REINIT's steps 7 and 8 by their bytes (R108, R131, R136). -/
theorem framesOf_reinit {s : State} (h0 : 0 ≤ s.cfg.contrast) (h1 : s.cfg.contrast ≤ 127) :
    framesOf .reinit s =
      [(.low, [0x21#8]), (.low, [BitVec.ofInt 8 (0x80 + s.cfg.contrast)]), (.low, [0x13#8]), (.low, [0x20#8]),
        (.low, [0x40#8]), (.low, [0x80#8]), (.high, fillFrame (clearByte s.inverse)),
        (.low, [0x09#8]), (.low, [0x0C#8])] := by
  rw [framesOf, homeFrames_eq, txBytes_zeros, ← byte_eq_ofInt (encSetvop_toNat h0 h1)]
  rfl

/-- The opening of REINIT in the words of R131. -/
theorem openingEvents_eq (s : State) :
    openingEvents s = (if s.busOpen then [.busClose] else [])
      ++ [.gpioConfigure (if s.cfg.csSoft then [.rst, .dc, .bl, .cs] else [.rst, .dc, .bl]) .low,
          .busOpen s.cfg.busId s.cfg.deviceId, .busClock 500000,
          .pin .bl (if s.backlightOn = s.cfg.activeLow then .low else .high)]
      ++ (if s.cfg.csSoft then [.pin .cs .high] else []) ++ [.pin .rst .high] := by
  have hlines : acquiredLines s.cfg.csSoft =
      if s.cfg.csSoft then [.rst, .dc, .bl, .cs] else [.rst, .dc, .bl] := by
    cases s.cfg.csSoft <;> rfl
  rw [openingEvents, hlines, backlightLevel_eq]
  simp only [List.append_assoc]

/-- The bytes of a request that emits all its events are those of its frames, each in its frame's mode (R32). -/
theorem stream_request (i : Instr) (s : State) (dc : Reg Level) :
    stream dc (eventsOf (requestActions i s)) = (framesOf i s).flatMap fun f => f.2.map fun c => (.val f.1, c) := by
  rw [eventsOf_requestActions, stream_append, stream_eq_nil _ fun e he => (openingOf_opening e he).1,
    stream_framed, List.nil_append]

/-- Settles O30: the opening, then the frames, of which the stream is read off. -/
theorem reinitTrace : Obligations.ReinitTrace := by
  intro s hrel h0 h1
  refine ⟨_, exec_reinit_reliable h0 h1 hrel, ?trace, ?bytes⟩
  case trace =>
    have hevents : eventsOf (reinitActions s) =
        openingEvents s ++ framed s.cfg.csSoft (framesOf .reinit s) := eventsOf_requestActions .reinit s
    simp only [reinitDone, hevents, openingEvents_eq, framesOf_reinit h0 h1, framed_cons, framed_nil, List.append_nil,
      List.append_assoc]
    rfl
  case bytes =>
    rw [reinitDone, List.drop_left]
    refine (stream_request .reinit s _).trans ?_
    rw [framesOf_reinit h0 h1]
    simp only [List.flatMap_cons, List.flatMap_nil, List.map_cons, List.map_nil, fillFrame, List.map_replicate,
      List.append_nil, List.cons_append, List.nil_append]
    rfl

section
variable {s t : State} (hcfg : t.cfg = s.cfg) (hinv : t.inverse = s.inverse)
  (hbl : t.backlightOn = s.backlightOn)
include hcfg hinv hbl

/-- What REINIT leaves depends on the state before by the configuration, the two flags and a chip-select that it
does not drive. -/
theorem reinitPanel_congr (hcs : s.cfg.csSoft = false → t.panel.cs = s.panel.cs) :
    reinitPanel t = reinitPanel s := by
  have hselect : (if s.cfg.csSoft then Reg.val Level.high else t.panel.cs) =
      if s.cfg.csSoft then .val .high else s.panel.cs := by
    cases hc : s.cfg.csSoft with
    | true => rfl
    | false => exact hcs hc
  simp only [reinitPanel, reinitialised, opened, hcfg, hinv, hbl, hselect]

/-- What REINIT emits depends on the configuration and the two flags, and `BusClose` stands in front where the bus
is held (R131 step 2). -/
theorem eventsOf_reinit_congr :
    eventsOf (reinitActions t) =
      (if t.busOpen then [.busClose] else []) ++ eventsOf (reinitActions (s.setBusOpen false)) := by
  rw [eventsOf_reinit, eventsOf_reinit, openingEvents, hcfg, hinv, hbl, List.append_assoc]
  rfl

end

theorem reinitPanel_cs {s : State} (hc : s.cfg.csSoft = false) : (reinitPanel s).cs = s.panel.cs := by
  cases hp : s.cfg.resetPulseOk <;> simp [reinitPanel, reinitialised, opened, hp, hc]

/-- Settles O32: the second REINIT finds the bus held and everything else that it reads as the first found it. -/
theorem reinitTwiceIsReinit : Obligations.ReinitTwiceIsReinit := by
  intro s hrel h0 h1
  have hfirst : eventsOf (reinitActions s) = _ := eventsOf_reinit_congr (s := s) rfl rfl rfl
  have hsecond : eventsOf (reinitActions (reinitDone s)) = _ := eventsOf_reinit_congr (s := s) rfl rfl rfl
  have hpanel : reinitPanel (reinitDone s) = reinitPanel s := reinitPanel_congr rfl rfl rfl reinitPanel_cs
  refine ⟨_, _, eventsOf (reinitActions (s.setBusOpen false)), exec_reinit_reliable h0 h1 hrel,
    exec_reinit_reliable h0 h1 hrel, ?events, ?second⟩
  case events => rw [List.append_assoc, ← hfirst]; rfl
  case second =>
    change { reinitDone s with
      panel := reinitPanel (reinitDone s)
      out := (reinitDone s).out ++ eventsOf (reinitActions (reinitDone s))
      statuses := (reinitDone s).statuses ++ [Status.ok] } = _
    rw [hpanel, hsecond]
    rfl

end Sys2Proof.Machine
end

section
/-! O34 and O40: CLEAR and PRINTIMAGE write the whole display from its first cell (`44_driver_ops.md` R136, R137). -/

namespace Sys2Proof.Machine

/-- The panel after the cursor commands of (1,1) and a full frame of data: the memory, the counter back at the first
cell, and the lines as the data frame leaves them (R121). -/
def frameWritten (soft : Bool) (m : Memory) (p : Panel) : Panel :=
  { p with cs := if soft then .val .high else p.cs, dc := .val .high, ay := .val 0, ax := .val 0, ddram := m }

/-- A listening controller in the basic set stores a full frame from its first cell on (R44, R47). -/
theorem replay_fullFrame {p : Panel} {payload : List Byte} (b soft inverse : Bool) (hl : p.listening = true)
    (hh : p.h = .val .basic) (hlen : payload.length = 504) :
    ∃ m, (∀ (a : Nat) (d : Byte), (txBytes inverse .data payload)[a]? = some d → Memory.read m a = .val d) ∧
      replay b (frameFromHome soft inverse payload) p = .ok (frameWritten soft m p) := by
  rw [replay_frameFromHome b soft inverse payload hl hh, recvAll_eq]
  obtain ⟨hy, hx, hread⟩ := recvAll_fullFrame (ds := txBytes inverse .data payload)
    (p := { p with cs := if soft then .val .low else p.cs, dc := .val .high, ay := .val 0, ax := .val 0 })
    hl rfl rfl ((txBytes_data_length inverse payload).trans hlen)
  refine ⟨_, hread, ?_⟩
  rw [hy, hx]
  cases soft <;> rfl

theorem framed_home (soft inverse : Bool) (payload : List Byte) :
    frameFromHome soft inverse payload = frameOf soft .low [0x40#8] ++ frameOf soft .low [0x80#8]
      ++ frameOf soft .high (txBytes inverse .data payload) := by
  rw [frameFromHome_homeFrames, homeFrames_eq]
  simp only [framed_cons, framed_nil, List.append_nil, List.append_assoc]

section
variable {i : Instr} {s : State} {payload : List Byte}

/-- An accepted request whose actions are a full frame from the first cell, at a listening controller in the basic
set. -/
theorem exec_fullFrame (hi : i.isRequest = true) (ha : turnedAway i s = none) (hrel : Reliable s)
    (hact : requestActions i s = emitAll (frameFromHome s.cfg.csSoft s.inverse payload))
    (hlen : payload.length = 504) (hl : s.panel.listening = true) (hh : s.panel.h = .val .basic) :
    ∃ m : Memory,
      (∀ (a : Nat) (d : Byte), (txBytes s.inverse .data payload)[a]? = some d → Memory.read m a = .val d) ∧
      exec i s = .next { s with
        panel := frameWritten s.cfg.csSoft m s.panel
        out := s.out ++ frameOf s.cfg.csSoft .low [0x40#8] ++ frameOf s.cfg.csSoft .low [0x80#8]
          ++ frameOf s.cfg.csSoft .high (txBytes s.inverse .data payload)
        statuses := s.statuses ++ [.ok] } := by
  obtain ⟨m, hread, hp⟩ := replay_fullFrame s.cfg.resetPulseOk s.cfg.csSoft s.inverse hl hh hlen
  refine ⟨m, hread, ?_⟩
  rw [exec_of_accepted hi ha hrel (by rw [hact, eventsOf_emitAll]) hp, hact, flagsOf_emitAll, framed_home]
  simp only [List.append_assoc]

end

/-- Settles O34: CLEAR is the full frame of zeros, complemented where `inverse` is set. -/
theorem clearResult : Obligations.ClearResult := by
  refine ⟨by decide, fun s hphase => exec_of_notReady rfl hphase, fun s hready hrel hl hh => ?inReady⟩
  case inReady =>
    obtain ⟨m, hread, hexec⟩ := exec_fullFrame (i := .clear)
      (payload := List.replicate Config.frameBytes 0x00#8) rfl (if_pos hready) hrel rfl
      List.length_replicate hl hh
    rw [txBytes_zeros] at hread hexec
    exact ⟨m, fun a ha => hread a _ (fillFrame_get ha), hexec⟩

/-- Settles O40: PRINTIMAGE is the full frame of its pixels, and looks at their number first. -/
theorem printImageResult : Obligations.PrintImageResult := by
  refine fun pixels s hready => ⟨fun hlen hrel hl hh => ?whole, fun hlen => ?rejected⟩
  case whole =>
    exact exec_fullFrame rfl ((if_pos hready).trans (if_pos hlen)) hrel rfl hlen hl hh
  case rejected =>
    exact exec_of_turnedAway rfl ((if_pos hready).trans (if_neg hlen))

end Sys2Proof.Machine
end

section
/-! O35: CURSOR (`44_driver_ops.md` R138, `60_exceptions.md` R162). -/

namespace Sys2Proof.Machine

/-- Settles O35: on the display the two commands of the position, off it the check turns the request away. -/
theorem cursorResult : Obligations.CursorResult := by
  refine fun bank column s hready => ⟨fun hpos hrel hl hh => ?onDisplay, fun hpos => ?rejected⟩
  case onDisplay =>
    obtain ⟨hb1, hb6, hc1, hc14⟩ := hpos
    have hr : cursorInRange bank column = true := (cursorInRange_iff ..).2 ⟨hb1, hb6, hc1, hc14⟩
    obtain ⟨y, x, hy, hx, hexec⟩ := exec_cursor_moves hready hrel hl hh hr
    refine ⟨y, x, hy, hx, ?_⟩
    have htape : s.transport = [] := hrel
    rw [hexec, requestActions, landed_emitAll, transferEvents, commandEvents_eq,
      ← byte_eq_ofInt (encSety_toNat hb1 hb6), ← byte_eq_ofInt (encSetx_toNat hc1 hc14)]
    simp only [State.report, cursorMoved, htape, List.drop_nil, List.flatMap_cons, List.flatMap_nil,
      List.append_nil, List.append_assoc]
  case rejected =>
    have hr : ¬cursorInRange bank column = true := fun h => hpos ((cursorInRange_iff ..).1 h)
    exact exec_of_turnedAway rfl ((if_pos hready).trans (if_neg hr))

end Sys2Proof.Machine
end

section
/-! O36 and O37: the two mode flags (`44_driver_ops.md` R134, R135). -/

namespace Sys2Proof.Machine

/-- BACKLIGHT writes the flag and then makes one call (R134). -/
theorem exec_backlight {s : State} (on : Bool) (hready : s.phase = .ready) :
    exec (.backlight on) s = conclude (runActions ([.setBacklightOn on] ++
      .emit (.pin .bl (backlightLevel on s.cfg.activeLow)) :: []) s) :=
  accept_ready _ hready

/-- A reliable BACKLIGHT drives its line to the level of R18. -/
theorem exec_backlight_reliable {s : State} (on : Bool) (hready : s.phase = .ready) (hrel : Reliable s) :
    exec (.backlight on) s = .next { s with
      backlightOn := on
      panel := { s.panel with bl := .val (backlightLevel on s.cfg.activeLow) }
      out := s.out ++ [.pin .bl (backlightLevel on s.cfg.activeLow)]
      statuses := s.statuses ++ [.ok] } :=
  exec_of_accepted rfl (if_pos hready) hrel rfl rfl

/-- Settles O36: the flag is written before the one call, which fails or drives the line. -/
theorem backlightResult : Obligations.BacklightResult := by
  refine ⟨fun on => rfl, fun on s hphase => exec_of_notReady rfl hphase,
    fun on s report rest hready htape => ?fails, fun on s hready hrel => ?drives⟩
  case fails =>
    rw [exec_backlight on hready,
      runActions_fails_at (as₁ := [.setBacklightOn on]) (p := s.panel) (n := report) (rest := rest) htape rfl]
    simp only [landed, eventsOf, List.append_nil]
    rfl
  case drives =>
    rw [exec_backlight_reliable on hready hrel]
    cases on <;> cases s.cfg.activeLow <;> rfl

/-- Settles O37: INVERSE makes no call, so no transport can stop it. -/
theorem inverseResult : Obligations.InverseResult :=
  ⟨fun _ => rfl, fun _ _ hphase => exec_of_notReady rfl hphase, fun _ _ hready => accept_ready _ hready⟩

end Sys2Proof.Machine
end

section
/-! O38 and O39: what PRINTSTRING sends, and where it lands (`44_driver_ops.md` R139, R141). -/

namespace Sys2Proof.Machine

/-- The data frames of a text: the cell of each accepted code, as it is sent (R84, R120, R164). -/
def sentCells (inverse : Bool) (text : List Nat) : List (List Byte) :=
  (text.filterMap cell).map (txBytes inverse .data)

/-- The panel after the data frames of a text. -/
def textPrinted (soft : Bool) (frames : List (List Byte)) (p : Panel) : Panel :=
  if frames = [] then p
  else { recvAll frames.flatten p with dc := .val .high, cs := if soft then .val .high else p.cs }

section
variable (soft : Bool) (frames : List (List Byte)) (p : Panel)

@[simp] theorem textPrinted_nil : textPrinted soft [] p = p := rfl

theorem textPrinted_of_ne_nil (h : frames ≠ []) : textPrinted soft frames p =
    { recvAll frames.flatten p with dc := .val .high, cs := if soft then .val .high else p.cs } :=
  if_neg h

/-- On the display side, the frames are their bytes. -/
theorem textPrinted_display : (textPrinted soft frames p).ddram = (recvAll frames.flatten p).ddram ∧
    (textPrinted soft frames p).ay = (recvAll frames.flatten p).ay ∧
    (textPrinted soft frames p).ax = (recvAll frames.flatten p).ax := by
  by_cases h : frames = []
  · subst h; exact ⟨rfl, rfl, rfl⟩
  · rw [textPrinted_of_ne_nil soft frames p h]; exact ⟨rfl, rfl, rfl⟩

/-- A text changes two lines, the counter and the RAM only (R142). -/
theorem textPrinted_eq : textPrinted soft frames p =
    { p with
      cs := (textPrinted soft frames p).cs, dc := (textPrinted soft frames p).dc
      ay := (textPrinted soft frames p).ay, ax := (textPrinted soft frames p).ax
      ddram := (textPrinted soft frames p).ddram } := by
  by_cases h : frames = []
  · subst h; rfl
  · rw [textPrinted_of_ne_nil soft frames p h, recvAll_eq]

end

theorem printStringEvents_eq (soft inverse : Bool) (text : List Nat) :
    printStringEvents soft inverse text = (sentCells inverse text).flatMap (frameOf soft .high) := by
  rw [printStringEvents_framed, textCells_eq, framed, sentCells, List.flatMap_map, List.flatMap_map]

/-- In `Ready`, with a reliable transport, PRINTSTRING completes whatever the text is (R139, D8). -/
theorem exec_printstring {s : State} (text : List Nat) (hready : s.phase = .ready) (hrel : Reliable s) :
    exec (.printstring text) s = .next { s with
      panel := textPrinted s.cfg.csSoft (sentCells s.inverse text) s.panel
      out := s.out ++ (sentCells s.inverse text).flatMap (frameOf s.cfg.csSoft .high)
      statuses := s.statuses ++ [.ok] } := by
  have hevents : eventsOf (requestActions (.printstring text) s) =
      (sentCells s.inverse text).flatMap (frameOf s.cfg.csSoft .high) :=
    (eventsOf_emitAll _).trans (printStringEvents_eq ..)
  rw [exec_of_accepted (i := .printstring text) rfl (if_pos hready) hrel hevents (replay_dataFrames ..),
    requestActions, flagsOf_emitAll]
  rfl

/-- A text without accepted codes sends nothing (R164). -/
theorem sentCells_of_rejected {text : List Nat} (inverse : Bool)
    (h : ∀ ch, ch ∈ text → ch < 0x20 ∨ 0x7F < ch) : sentCells inverse text = [] := by
  rw [sentCells, List.map_eq_nil_iff, List.filterMap_eq_nil_iff]
  exact fun ch hch => cell_of_rejected (glyph_of_outOfRange (h ch hch))

/-- Settles O38: the frames of the accepted codes, and what they leave. -/
theorem printStringResult : Obligations.PrintStringResult := by
  intro text s hready hrel
  refine ⟨textPrinted s.cfg.csSoft (sentCells s.inverse text) s.panel, ?runs, textPrinted_eq .., fun hne => ?lines,
    fun hrej => ?nothing⟩
  case runs =>
    rw [exec_printstring text hready hrel, sentCells, List.flatMap_map]
    rfl
  case lines =>
    have hframes : sentCells s.inverse text ≠ [] := fun h => hne (List.map_eq_nil_iff.1 h)
    rw [textPrinted_of_ne_nil _ _ _ hframes]
    exact ⟨rfl, rfl⟩
  case nothing => rw [sentCells_of_rejected s.inverse hrej, textPrinted_nil]

/-! ## Cells one after the other -/

section
variable {ls : List (List Byte)} (h : ∀ l ∈ ls, l.length = 6)
include h

theorem length_flatten_cells : ls.flatten.length = 6 * ls.length := by
  rw [List.length_flatten, List.map_congr_left h, List.map_const', List.sum_replicate_nat, Nat.mul_comm]

/-- Byte `k` of cell `n` is byte `6n + k` of them all. -/
theorem getElem?_flatten_cells {l : List Byte} {n k : Nat} {b : Byte} (hn : ls[n]? = some l)
    (hk : l[k]? = some b) : ls.flatten[6 * n + k]? = some b := by
  induction ls generalizing n with
  | nil => cases hn
  | cons l' ls ih =>
    obtain ⟨hl', hls⟩ := List.forall_mem_cons.1 h
    cases n with
    | zero =>
      obtain rfl : l' = l := by simpa using hn
      have hlt : k < l'.length := (List.getElem?_eq_some_iff.1 hk).1
      rw [List.flatten_cons, Nat.mul_zero, Nat.zero_add, List.getElem?_append_left hlt, hk]
    | succ n =>
      rw [List.flatten_cons, List.getElem?_append_right (by omega), hl',
        show 6 * (n + 1) + k - 6 = 6 * n + k by omega]
      exact ih hls hn

end

theorem sentCells_length {inverse : Bool} {text : List Nat} : ∀ l ∈ sentCells inverse text, l.length = 6 := by
  intro l hl
  obtain ⟨c, hc, rfl⟩ := List.mem_map.1 hl
  obtain ⟨ch, -, hch⟩ := List.mem_filterMap.1 hc
  rw [txBytes_data_length, cell_length hch]

theorem getElem?_txBytes {bytes : List Byte} {k : Nat} {b : Byte} (inverse : Bool) (hk : bytes[k]? = some b) :
    (txBytes inverse .data bytes)[k]? = some (if inverse then ~~~b else b) := by
  cases inverse with
  | false => exact hk
  | true => exact (List.getElem?_map ..).trans (congrArg _ hk)

/-- Settles O39: the text is one run of data bytes from the counter on, six for each accepted code. -/
theorem textLandsFromCounter : Obligations.TextLandsFromCounter := by
  rintro text s a0 hready hrel hl ⟨y, x, hy, hx, rfl⟩ cells
  obtain ⟨hddram, hay, hax⟩ := textPrinted_display s.cfg.csSoft (sentCells s.inverse text) s.panel
  have hlen : (sentCells s.inverse text).flatten.length = 6 * cells.length := by
    rw [length_flatten_cells sentCells_length, sentCells, List.length_map]
  refine ⟨_, exec_printstring text hready hrel, fun n k bytes b hn hk hlast => ?stored, fun a ha => ?kept, ?counter⟩
  case stored =>
    have hcell : (sentCells s.inverse text)[n]? = some (txBytes s.inverse .data bytes) :=
      (List.getElem?_map ..).trans (congrArg _ hn)
    have hbyte := getElem?_flatten_cells sentCells_length hcell (getElem?_txBytes s.inverse hk)
    obtain ⟨hlt, hget⟩ := List.getElem?_eq_some_iff.1 hbyte
    rw [hddram, ← hget, Nat.add_assoc]
    exact recvAll_read _ hl hy hx hlt (by omega)
  case kept =>
    rw [hddram]
    exact recvAll_read_other _ hl hy hx (hlen ▸ ha)
  case counter =>
    obtain ⟨y', x', hy', hx', hidx⟩ := recvAll_counter (sentCells s.inverse text).flatten hl hy hx
    exact ⟨y', x', hay.trans hy', hax.trans hx', hlen ▸ hidx⟩

end Sys2Proof.Machine
end

section
/-! The lines that a trace drives, and the bytes that a request has delivered (`44_driver_ops.md` R142). -/

namespace Sys2Proof.Machine

/-- The latch of a line (R15). -/
def Panel.line (p : Panel) : Line → Reg Level
  | .rst => p.rst
  | .dc => p.dc
  | .bl => p.bl
  | .cs => p.cs

/-- A drive writes the latch of its own line alone (R31). -/
theorem drive_line (b : Bool) (line : Line) (level : Level) (p : Panel) :
    (drive b line level p).line = Function.update p.line line (.val level) := by
  funext l
  cases line <;> cases level <;> cases l <;> rfl

theorem recvByte_line {dc : Reg Level} {c : Byte} {p q : Panel} (h : recvByte dc c p = .ok q) :
    q.line = p.line := by
  obtain ⟨hrst, hdc, hbl, hcs, -⟩ := recvByte_lines h
  funext l
  cases l with
  | rst => exact hrst
  | dc => exact hdc
  | bl => exact hbl
  | cs => exact hcs

/-- A trace keeps the lines that it does not drive. -/
theorem replay_keeps_line {b : Bool} {es : List Event} {p q : Panel} {l : Line}
    (hes : ∀ e ∈ es, e.drives l = false) (h : replay b es p = .ok q) : q.line l = p.line l := by
  refine replay_keeps (P := fun r => r.line l = p.line l) ?drive ?byte rfl h
  case drive =>
    intro e he line level r hd hr
    have hne : l ≠ line := by rintro rfl; simp [hes e he] at hd
    rw [drive_line, Function.update_of_ne hne, hr]
  case byte => exact fun dc c r r' hr h => (congrFun (recvByte_line h) l).trans hr

/-- A frame drives the mode line and the chip-select (R120). -/
theorem frameOf_drives_line {soft : Bool} {dc : Level} {bytes : List Byte} {e : Event} {l : Line}
    (he : e ∈ frameOf soft dc bytes) (hd : e.drives l = true) : l = .dc ∨ l = .cs := by
  have hpins : e = .xfer bytes ∨ ∃ l' v, e = .pin l' v ∧ (l' = .dc ∨ l' = .cs) := by
    cases soft <;> simp [frameOf] at he <;> rcases he with rfl | rfl | rfl | rfl <;> simp
  rcases hpins with rfl | ⟨l', v, rfl, hl'⟩
  · cases hd
  · exact of_decide_eq_true hd ▸ hl'

/-- A request other than REINIT drives the backlight line if it is BACKLIGHT, and the mode line and the chip-select
if it has frames. -/
theorem request_drives_line {i : Instr} {s : State} {e : Event} {l : Line} (hr : i ≠ .reinit)
    (he : e ∈ eventsOf (requestActions i s)) (hd : e.drives l = true) :
    (l = .bl ∧ ∃ on, i = .backlight on) ∨ ((l = .dc ∨ l = .cs) ∧ framesOf i s ≠ []) := by
  rw [eventsOf_requestActions] at he
  rcases List.mem_append.1 he with he | he
  · cases i with
    | reinit => exact absurd rfl hr
    | backlight on =>
      obtain rfl := List.mem_singleton.1 he
      exact .inl ⟨(of_decide_eq_true hd).symm, on, rfl⟩
    | _ => cases he
  · obtain ⟨f, hf, he⟩ := List.mem_flatMap.1 he
    exact .inr ⟨frameOf_drives_line he hd, List.ne_nil_of_mem hf⟩

/-- A request keeps every line that it does not drive, also where a call of it fails. -/
theorem request_keeps_line {i : Instr} {s t : State} {l : Line} (hi : i.isRequest = true)
    (h : exec i s = .next t) (hl : ∀ e ∈ eventsOf (requestActions i s), e.drives l = false) :
    t.panel.line l = s.panel.line l := by
  obtain ⟨as, has, -, hp, -⟩ := request_prefix hi h
  exact replay_keeps_line (fun e he => hl e ((eventsOf_prefix has).subset he)) hp

/-! ## The bytes of a request at the display side (R32) -/

/-- Bytes with their modes, as the display side takes them. -/
def unitsOf (us : List (Reg Level × Byte)) : List DisplayInput := us.map fun u => .unit u.1 u.2

theorem resets_eq_nil {e : Event} (h : e.drives .rst = false) : e.resets = [] := by
  cases e with
  | gpioConfigure lines level =>
    have hrst : .rst ∉ lines := of_decide_eq_false h
    rw [Event.resets, List.filter_eq_nil_iff.2, List.map_nil]
    intro l hl
    exact decide_eq_true_iff.not.2 fun heq => hrst (heq ▸ hl)
  | pin line level =>
    cases line with
    | rst => cases h
    | _ => rfl
  | _ => rfl

/-- Without a drive of the reset line, the display side sees the byte stream (R32). -/
theorem displayView_of_noReset {es : List Event} (dc : Reg Level) (h : ∀ e ∈ es, e.drives .rst = false) :
    displayView dc es = unitsOf (stream dc es) := by
  induction es generalizing dc with
  | nil => rfl
  | cons e es ih =>
    obtain ⟨he, hes⟩ := List.forall_mem_cons.1 h
    rw [displayView, stream, resets_eq_nil he, ih _ hes, unitsOf, unitsOf, List.map_append, List.map_map]
    rfl

/-- The bytes that an initial part of the frames of a request delivers: none if it was turned away. -/
theorem request_delivers {i : Instr} {s t : State} (hi : i.isRequest = true) (hr : i ≠ .reinit)
    (h : exec i s = .next t) :
    ∃ us, us <+: (framesOf i s).flatMap (fun f => f.2.map fun c => (.val f.1, c)) ∧
      (us = [] ∨ turnedAway i s = none) ∧
      receiveAll s.cfg.resetPulseOk s.panel.displaySide (unitsOf us) = .ok t.panel.displaySide := by
  obtain ⟨as, has, ha, hp, -⟩ := request_prefix hi h
  refine ⟨stream s.panel.dc (eventsOf as), ?begins, ha.imp_left (by rintro rfl; rfl), ?received⟩
  case begins =>
    obtain ⟨fs, hfs⟩ := eventsOf_prefix has
    rw [← stream_request i s s.panel.dc, ← hfs, stream_append]
    exact List.prefix_append ..
  case received =>
    have hnoReset : ∀ e ∈ eventsOf as, e.drives .rst = false := fun e he => by
      by_contra hd
      exact (request_drives hr ((eventsOf_prefix has).subset he) (by simpa using hd)).1 rfl
    rw [← displayView_of_noReset _ hnoReset, receiveAll_displayView, hp]
    rfl

/-- What every one of the bytes keeps, they keep together. -/
theorem receiveAll_units_keep {P : Panel → Prop} {b : Bool} {us : List (Reg Level × Byte)} {p q : Panel}
    (hkeep : ∀ u ∈ us, ∀ r r', P r → recvByte u.1 u.2 r = .ok r' → P r') (hp : P p)
    (h : receiveAll b p (unitsOf us) = .ok q) : P q := by
  induction us generalizing p with
  | nil => injection h with h; exact h ▸ hp
  | cons u us ih =>
    obtain ⟨hu, hus⟩ := List.forall_mem_cons.1 hkeep
    cases hr : recvByte u.1 u.2 p with
    | error r => cases (receiveAll_cons_error (v := .unit u.1 u.2) hr _).symm.trans h
    | ok r => exact ih hus (hu p r hp hr) ((receiveAll_cons_ok (v := .unit u.1 u.2) hr _).symm.trans h)

end Sys2Proof.Machine
end

section
/-! O50: the rows of R142. A controller that does not listen holds no value to lose, and one that listens takes a
cursor byte as SETY or SETX or not at all. -/

namespace Sys2Proof.Machine

/-- A controller that does not listen holds no value (R26, R27). -/
theorem Sound.unspecified {s : State} (hs : Sound s) (hl : s.panel.listening = false) : s.panel.unspecified := by
  cases hdone : s.panel.ctrlResetDone with
  | false => exact hs.inReset hdone
  | true =>
    rw [listening_iff.2 ⟨hdone, (hs.released hdone).1⟩] at hl
    cases hl

/-- A byte leaves such a controller as it is (R45, R110). -/
theorem recvByte_unspecified {dc : Reg Level} {c : Byte} {p q : Panel} (hl : p.listening = false)
    (hu : p.unspecified) (h : recvByte dc c p = .ok q) : q = p := by
  obtain ⟨hh, hvop, hbias, hmode, hay, hax, hram⟩ := hu
  match dc with
  | .bot => cases h
  | .val .low =>
    rw [recvByte, recvCommand_deaf hl] at h
    injection h with h
    rw [← h, Panel.lost, ← hh, ← hvop, ← hbias, ← hmode, ← hay, ← hax, Memory.allUnspecified, ← hram]
  | .val .high =>
    injection h with h
    rw [← h, recvData_deaf c hl, ← hay, ← hax, ← hram]

/-- The registers of the display side that no operation but REINIT writes. -/
def Panel.settings (p : Panel) : Reg InstrSet × Reg (BitVec 7) × Reg Byte × Reg DisplayMode :=
  (p.h, p.vop, p.bias, p.dmode)

/-- What the display side holds besides the lines and its reset (R20 to R25). -/
theorem registers_of_displaySide {p q : Panel} (h : p.displaySide = q.displaySide) :
    p.settings = q.settings ∧ p.ay = q.ay ∧ p.ax = q.ax ∧ p.ddram = q.ddram :=
  ⟨(congrArg Panel.settings h :), (congrArg Panel.ay h :), (congrArg Panel.ax h :), (congrArg Panel.ddram h :)⟩

@[simp] theorem recvData_settings (d : Byte) (p : Panel) : (recvData d p).settings = p.settings := by
  simp [Panel.settings]

/-- In the basic set, a command byte that a request other than REINIT may send is SETY or SETX (R69). -/
theorem SendableByte.movesCounter {i : Instr} {contrast : Int} {c : Byte} {k : Command}
    (hc : SendableByte i contrast c) (hr : i ≠ .reinit) (hk : decodeCommand (.val .basic) c = some k) :
    (∃ y, k = .sety y) ∨ ∃ x, k = .setx x := by
  have hrange : (0x40 ≤ c.toNat ∧ c.toNat ≤ 0x45) ∨ 0x80 ≤ c.toNat := by
    rcases hc with h | ⟨h, -⟩ | ⟨h, -⟩
    · exact .inl h
    · exact .inr h
    · exact absurd h hr
  rcases decodeCommand_cases hk with ⟨rfl, -⟩ | ⟨rfl, -⟩ | ⟨-, hb⟩ | ⟨hext, -⟩
  · exact absurd hrange (by decide)
  · exact absurd hrange (by decide)
  · rcases decodeBasic_cases hb with ⟨rfl, -⟩ | ⟨rfl, -⟩ | ⟨y, -, rfl⟩ | ⟨x, -, rfl⟩
    · exact absurd hrange (by decide)
    · exact absurd hrange (by decide)
    · exact .inl ⟨y, rfl⟩
    · exact .inr ⟨x, rfl⟩
  · cases hext

/-- Outside the basic set the SETY byte of a bank is reserved (R66). -/
theorem decodeCommand_encSety_reserved {h : Reg InstrSet} {bank : Int} (hh : h ≠ .val .basic) (h0 : 1 ≤ bank)
    (h1 : bank ≤ 6) : decodeCommand h (encSety bank) = none := by
  obtain ⟨y, -, hdec⟩ := decode_encSety h0 h1
  obtain ⟨-, hc⟩ := decodeCommand_eq_some_iff.1 hdec
  have hnum := setyByte_toNat (BitVec.ofNat 3 y.val)
  have hlt := (BitVec.ofNat 3 y.val).isLt
  rw [hc, Command.byte]
  exact decodeCommand_eq_none (by omega) (by omega) (fun h => absurd h hh) fun _ => decodeExtended_sety _

/-- The frames of a request other than REINIT are data, or they begin with SETY (R136 to R139). -/
theorem framesOf_begin {i : Instr} {s : State} (hr : i ≠ .reinit) (ha : turnedAway i s = none) :
    (∀ f ∈ framesOf i s, f.1 = .high) ∨
      ∃ bank frames, 1 ≤ bank ∧ bank ≤ 6 ∧ framesOf i s = (.low, [encSety bank]) :: frames := by
  cases i with
  | reinit => exact absurd rfl hr
  | clear => exact .inr ⟨1, _, by decide, by decide, rfl⟩
  | printimage pixels => exact .inr ⟨1, _, by decide, by decide, rfl⟩
  | cursor bank column =>
    obtain ⟨h0, h1, -, -⟩ := (cursorInRange_iff ..).1 (cursorInRange_of_accepted ha)
    exact .inr ⟨bank, _, h0, h1, rfl⟩
  | printstring text =>
    refine .inl fun f hf => ?_
    obtain ⟨c, -, rfl⟩ := List.mem_map.1 hf
    rfl
  | _ => exact .inl nofun

section
variable {i : Instr} {s : State} {us : List (Reg Level × Byte)} {b : Bool} {p q : Panel}
  (hus : us <+: (framesOf i s).flatMap fun f => f.2.map fun c => (.val f.1, c))
  (ha : turnedAway i s = none)
include hus ha

/-- A command byte of a request is one that it may send. -/
theorem sendableByte_of_sent {u : Reg Level × Byte} (hu : u ∈ us) (hlow : u.1 = .val .low) :
    SendableByte i s.cfg.contrast u.2 := by
  obtain ⟨⟨level, bytes⟩, hf, hmem⟩ := List.mem_flatMap.1 (hus.subset hu)
  obtain ⟨c, hc, rfl⟩ := List.mem_map.1 hmem
  obtain rfl : level = .low := by injection hlow
  obtain ⟨c', rfl, hsend⟩ := framesOf_requestFrame ha hf
  exact List.mem_singleton.1 hc ▸ hsend

/-- A listening controller that has taken a command byte of a request is in the basic set: the first is SETY. -/
theorem basic_of_sent {u : Reg Level × Byte} (hr : i ≠ .reinit) (hl : p.listening = true)
    (h : receiveAll b p (unitsOf us) = .ok q) (hu : u ∈ us) (hlow : u.1 = .val .low) : p.h = .val .basic := by
  by_contra hh
  rcases framesOf_begin hr ha with hdata | ⟨bank, frames, h0, h1, hframes⟩
  · obtain ⟨f, hf, hmem⟩ := List.mem_flatMap.1 (hus.subset hu)
    obtain ⟨c, -, rfl⟩ := List.mem_map.1 hmem
    rw [hdata f hf] at hlow
    cases hlow
  · rw [hframes, List.flatMap_cons] at hus
    rcases List.prefix_cons_iff.1 hus with rfl | ⟨us', rfl, -⟩
    · cases hu
    · cases (receiveAll_cons_error (v := .unit (.val .low) (encSety bank))
        (recvCommand_reserved hl (decodeCommand_encSety_reserved hh h0 h1)) _).symm.trans h

/-- The bytes of a request other than REINIT leave a listening controller's settings alone. -/
theorem settings_of_listening (hr : i ≠ .reinit) (hl : p.listening = true)
    (h : receiveAll b p (unitsOf us) = .ok q) : q.settings = p.settings := by
  refine (receiveAll_units_keep (P := fun r => r.listening = true ∧ r.settings = p.settings) ?_ ⟨hl, rfl⟩ h).2
  rintro ⟨dc, c⟩ hu r r' ⟨hrl, hrs⟩ hrecv
  match dc with
  | .bot => cases hrecv
  | .val .high =>
    injection hrecv with hrecv
    subst hrecv
    exact ⟨(recvData_listening ..).trans hrl, (recvData_settings ..).trans hrs⟩
  | .val .low =>
    have hbasic : r.h = .val .basic := (congrArg Prod.fst hrs).trans (basic_of_sent hus ha hr hl h hu rfl)
    obtain ⟨k, hk, rfl⟩ := recvCommand_ok_of_listening hrl hrecv
    refine ⟨(controllerSide_listening ..).trans hrl, ?_⟩
    rcases (sendableByte_of_sent hus ha hu rfl).movesCounter hr (hbasic ▸ hk) with ⟨y, rfl⟩ | ⟨x, rfl⟩
    · exact hrs
    · exact hrs

end

/-- Command bytes leave a listening controller's RAM alone (R110). -/
theorem ddram_of_commands {us : List (Reg Level × Byte)} {b : Bool} {p q : Panel}
    (hlow : ∀ u ∈ us, u.1 = .val .low) (hl : p.listening = true)
    (h : receiveAll b p (unitsOf us) = .ok q) : q.ddram = p.ddram := by
  refine (receiveAll_units_keep (P := fun r => r.listening = true ∧ r.ddram = p.ddram) ?_ ⟨hl, rfl⟩ h).2
  rintro ⟨dc, c⟩ hu r r' ⟨hrl, hrm⟩ hrecv
  obtain rfl : dc = .val .low := hlow _ hu
  obtain ⟨k, -, rfl⟩ := recvCommand_ok_of_listening hrl hrecv
  exact ⟨(controllerSide_listening ..).trans hrl, (controllerSide_ddram ..).trans hrm⟩

section
variable {i : Instr} {s t : State} (hi : i.isRequest = true) (hr : i ≠ .reinit) (h : exec i s = .next t)
include hi hr h

/-- A request without frames leaves the display side as it is. -/
theorem request_display_of_noFrames (hf : framesOf i s = []) : t.panel.displaySide = s.panel.displaySide := by
  obtain ⟨us, hus, -, hrecv⟩ := request_delivers hi hr h
  rw [hf] at hus
  obtain rfl := List.prefix_nil.1 hus
  injection hrecv with hrecv
  exact hrecv.symm

/-- Where the controller does not listen, a request leaves the display side as it is. -/
theorem request_display_deaf (hs : Sound s) (hl : s.panel.listening = false) :
    t.panel.displaySide = s.panel.displaySide := by
  obtain ⟨us, -, -, hrecv⟩ := request_delivers hi hr h
  refine receiveAll_units_keep (P := fun r => r = s.panel.displaySide) ?_ rfl hrecv
  rintro u - r r' rfl hbyte
  exact recvByte_unspecified (p := s.panel.displaySide) hl (hs.unspecified hl) hbyte

/-- A request other than REINIT keeps the settings of the display side. -/
theorem request_settings (hs : Sound s) : t.panel.settings = s.panel.settings := by
  cases hl : s.panel.listening with
  | false => exact (registers_of_displaySide (request_display_deaf hi hr h hs hl)).1
  | true =>
    obtain ⟨us, hus, rfl | ha, hrecv⟩ := request_delivers hi hr h
    · injection hrecv with hrecv
      exact (registers_of_displaySide hrecv.symm).1
    · exact settings_of_listening (p := s.panel.displaySide) (q := t.panel.displaySide) hus ha hr hl hrecv

end

/-- CURSOR writes no cell (R138). -/
theorem cursor_ddram {bank column : Int} {s t : State} (hs : Sound s)
    (h : exec (.cursor bank column) s = .next t) : t.panel.ddram = s.panel.ddram := by
  cases hl : s.panel.listening with
  | false =>
    obtain ⟨-, -, -, hram⟩ := registers_of_displaySide
      (request_display_deaf (i := .cursor bank column) rfl nofun h hs hl)
    exact hram
  | true =>
    obtain ⟨us, hus, -, hrecv⟩ := request_delivers (i := .cursor bank column) rfl nofun h
    refine ddram_of_commands (p := s.panel.displaySide) (q := t.panel.displaySide) (fun u hu => ?_) hl hrecv
    have hmem : u ∈ [(.val .low, encSety bank), (.val .low, encSetx column)] := hus.subset hu
    rcases List.mem_pair.1 hmem with rfl | rfl <;> rfl

/-- The requests whose row of R142 leaves the counter and the lines of a transfer empty have no frames. -/
theorem framesOf_eq_nil {i : Instr} (s : State)
    (h : (∃ on, i = .inverse on ∨ i = .backlight on) ∨ i = .opReserved) : i ≠ .reinit ∧ framesOf i s = [] := by
  rcases h with ⟨on, rfl | rfl⟩ | rfl <;> exact ⟨nofun, rfl⟩

/-- Settles O50, column by column of R142. -/
theorem operationsWriteTheirRow : Obligations.OperationsWriteTheirRow := by
  intro i s t hs hi h
  obtain ⟨hcfg, hinbox, hret, -⟩ := request_trace hi h
  obtain ⟨hinv, hbl⟩ := request_keeps_modes hi h
  refine ⟨hcfg, hinbox, hret, fun hr => ?registers, hinv, hbl, fun hr hb => ?backlightLine, fun hrow => ?counter,
    fun hrow a => congrArg (Memory.read · a) ?ram⟩
  case registers =>
    obtain ⟨hphase, hbus, hrst, hdone⟩ := request_keeps_reset hi hr h
    have hset := request_settings hi hr h hs
    simp only [Panel.settings, Prod.mk.injEq] at hset
    obtain ⟨hh, hvop, hbias, hmode⟩ := hset
    exact ⟨hphase, hbus, hrst, hh, hvop, hbias, hmode, hdone⟩
  case backlightLine =>
    refine request_keeps_line (l := .bl) hi h fun e he => ?_
    by_contra hd
    rcases request_drives_line hr he (by simpa using hd) with ⟨-, on, rfl⟩ | ⟨hl | hl, -⟩
    · exact hb on rfl
    · cases hl
    · cases hl
  case counter =>
    obtain ⟨hr, hf⟩ := framesOf_eq_nil s hrow
    have hline : ∀ l, l ≠ .bl → t.panel.line l = s.panel.line l := fun l hl =>
      request_keeps_line hi h fun e he => by
        by_contra hd
        rcases request_drives_line hr he (by simpa using hd) with ⟨hbl, -⟩ | ⟨-, hne⟩
        · exact hl hbl
        · exact hne hf
    obtain ⟨-, hay, hax, -⟩ := registers_of_displaySide (request_display_of_noFrames hi hr h hf)
    exact ⟨hline .dc nofun, hline .cs nofun, hay, hax⟩
  case ram =>
    have noFrames : (∃ on, i = .inverse on ∨ i = .backlight on) ∨ i = .opReserved →
        t.panel.ddram = s.panel.ddram := fun hrow => by
      obtain ⟨hr, hf⟩ := framesOf_eq_nil s hrow
      obtain ⟨-, -, -, hram⟩ := registers_of_displaySide (request_display_of_noFrames hi hr h hf)
      exact hram
    rcases hrow with hrow | ⟨bank, column, rfl⟩ | hrow
    · exact noFrames (.inl hrow)
    · exact cursor_ddram hs h
    · exact noFrames (.inr hrow)

end Sys2Proof.Machine
end

section
/-! O28: the codes of the statuses (`60_exceptions.md` R160). -/

namespace Sys2Proof.Machine

/-- Settles O28: each code and each boolean is the table's. -/
theorem statusCodes : Obligations.StatusCodes :=
  ⟨fun _ _ _ => ⟨rfl, rfl, rfl, rfl, rfl, rfl, rfl⟩, rfl, rfl⟩

end Sys2Proof.Machine
end

section
/-! O27 and O26: a precise error is returned by a request that its check turned away, and by nothing else
(`60_exceptions.md` R161, R172). -/

namespace Sys2Proof.Machine

/-- An instruction that is no request returns no status but the report of a failed call (R120, log 29). -/
theorem statuses_of_not_request {i : Instr} {s t : State} (hi : i.isRequest = false)
    (h : exec i s = .next t) :
    t.statuses = s.statuses ∨ ∃ n, t.statuses = s.statuses ++ [.transportFault n] := by
  rcases exec_next_of_not_request hi h with ⟨dc, c, p, -, rfl⟩ | ⟨r, rfl⟩ | ⟨mode, payload, rfl⟩
  · exact .inl rfl
  · exact .inl rfl
  · rcases eq_or_ne payload [] with rfl | hne
    · cases h
    rw [exec_write mode s hne] at h
    rcases concludeWrite_next h with hu | ⟨u, n, hu, rfl⟩
    · obtain ⟨p, -, rfl⟩ := runActions_done hu
      exact .inl (landed_statuses ..)
    · obtain ⟨as, e, as', rest, p, -, -, -, rfl⟩ := runActions_failed hu
      exact .inr ⟨n, by simp⟩

/-- An instruction that ends in a precise error is a request that its check turned away (R171, R172). -/
theorem turnedAway_of_precise {i : Instr} {s t : State} {st : Status} (hprec : st.isPrecise = true)
    (h : exec i s = .next t) (hst : t.statuses = s.statuses ++ [st]) :
    turnedAway i s = some st ∧ t = s.report st := by
  cases hi : i.isRequest with
  | false =>
    rcases statuses_of_not_request hi h with hkeep | ⟨n, hfault⟩
    · simp [hst] at hkeep
    · obtain rfl : st = .transportFault n := by simpa [hst] using hfault
      cases hprec
  | true =>
    rcases request_next hi h with
      ⟨st', ha, -, rfl⟩ | ⟨-, p, -, rfl⟩ | ⟨-, as, e, as', rest, p, n, -, -, -, rfl⟩
    · obtain rfl := report_statuses_inj hst
      exact ⟨ha, rfl⟩
    · obtain rfl : .ok = st := by simpa using hst
      cases hprec
    · obtain rfl : .transportFault n = st := by split at hst <;> simpa using hst
      cases hprec

/-- Settles O27: what turns a request away does nothing but report. -/
theorem errorsArePrecise : Obligations.ErrorsArePrecise := by
  intro i s t st hprec h hst
  obtain ⟨-, ht⟩ := turnedAway_of_precise hprec h hst
  exact ht

theorem contrastLegal_eq_false_iff (contrast : Int) :
    contrastLegal contrast = false ↔ contrast < 0 ∨ 127 < contrast := by
  rw [← Bool.not_eq_true, contrastLegal_iff]
  omega

/-- The check of the contrast is REINIT's alone (R161). -/
theorem turnedAway_configError_iff {i : Instr} {s : State} {n : Int} :
    turnedAway i s = some (.configError n) ↔
      i = .reinit ∧ n = s.cfg.contrast ∧ contrastLegal s.cfg.contrast = false := by
  cases i with
  | reinit => cases hc : contrastLegal s.cfg.contrast <;> simp [turnedAway, hc, eq_comm]
  | cursor bank column =>
    by_cases hp : s.phase = .ready
    · cases hc : cursorInRange bank column <;> simp [turnedAway, hp, hc]
    · simp [turnedAway, hp]
  | printimage pixels =>
    by_cases hp : s.phase = .ready
    · by_cases hc : pixels.length = Config.frameBytes <;> simp [turnedAway, hp, hc]
    · simp [turnedAway, hp]
  | clear | backlight | inverse | printstring => by_cases hp : s.phase = .ready <;> simp [turnedAway, hp]
  | _ => simp [turnedAway]

/-- Settles O26: REINIT's check turns away an illegal contrast, and no other check returns this status. -/
theorem illegalContrastIsConfigError : Obligations.IllegalContrastIsConfigError := by
  refine ⟨fun s hc => ?returns, fun i s t n h hst => ?only⟩
  case returns =>
    exact exec_of_turnedAway rfl
      (turnedAway_configError_iff.2 ⟨rfl, rfl, (contrastLegal_eq_false_iff _).2 hc⟩)
  case only =>
    obtain ⟨ha, -⟩ := turnedAway_of_precise rfl h hst
    obtain ⟨hi, rfl, hc⟩ := turnedAway_configError_iff.1 ha
    exact ⟨hi, rfl, (contrastLegal_eq_false_iff _).1 hc⟩

end Sys2Proof.Machine
end

section
/-! O41: a request whose call fails after `k` events (`60_exceptions.md` R165). Its reliable run gives the split of
its actions at that call, and the flags are read off the part before it. -/

namespace Sys2Proof.Machine

/-! ## The check and the actions of a request do not look at the transport -/

theorem turnedAway_setTransport (i : Instr) (s : State) (v : List CallEnd) :
    turnedAway i (s.setTransport v) = turnedAway i s := rfl

theorem requestActions_setTransport (i : Instr) (s : State) (v : List CallEnd) :
    requestActions i (s.setTransport v) = requestActions i s := rfl

theorem flagsOf_setTransport (as : List Action) (s : State) (v : List CallEnd) :
    flagsOf as (s.setTransport v) = (flagsOf as s).setTransport v :=
  (flagsOf_override as s s.panel s.out v).trans (by simp [State.setTransport])

/-! ## The flags at an event of a request -/

/-- A request writes a mode flag in its first action or not at all (R134, R135). -/
theorem requestActions_tail_keepsModes (i : Instr) (s : State) :
    (requestActions i s).tail.all Action.keepsModes = true := by
  have tail : ∀ {as : List Action}, as.all Action.keepsModes = true →
      as.tail.all Action.keepsModes = true := fun h =>
    List.all_eq_true.2 fun a ha => List.all_eq_true.1 h a (List.mem_of_mem_tail ha)
  cases i with
  | reinit => exact tail (reinitActions_keepsModes s)
  | clear | cursor | printstring | printimage => exact tail (emitAll_keepsModes _)
  | _ => rfl

section
variable {i : Instr} {s : State} {as₁ as₂ : List Action} {e : Event}
  (hsplit : requestActions i s = as₁ ++ .emit e :: as₂)
include hsplit

/-- When a request reaches one of its events, it has written its mode flags (R134). -/
theorem flagsOf_request_modes_at :
    (flagsOf as₁ s).inverse = (flagsOf (requestActions i s) s).inverse ∧
      (flagsOf as₁ s).backlightOn = (flagsOf (requestActions i s) s).backlightOn := by
  have hrest : as₂.all Action.keepsModes = true := by
    have htail := requestActions_tail_keepsModes i s
    rw [hsplit] at htail
    cases as₁ with
    | nil => exact htail
    | cons a as₁ =>
      simp only [List.cons_append, List.tail_cons, List.all_append, List.all_cons, Bool.and_eq_true] at htail
      obtain ⟨-, -, hrest⟩ := htail
      exact hrest
  obtain ⟨hinv, hbl⟩ := flagsOf_keepsModes (flagsOf as₁ s) hrest
  rw [hsplit, flagsOf_append]
  exact ⟨hinv.symm, hbl.symm⟩

/-- A request other than REINIT writes neither the phase nor `bus_open` (R11, R16). -/
theorem flagsOf_request_phase_bus_at (hr : i ≠ .reinit) :
    (flagsOf as₁ s).phase = s.phase ∧ (flagsOf as₁ s).busOpen = s.busOpen := by
  rcases flagsOf_request_prefix hr ⟨_, hsplit.symm⟩ with hf | ⟨on, -, hf⟩ | ⟨on, -, hf⟩ <;> rw [hf] <;>
    exact ⟨rfl, rfl⟩

end

theorem frameOf_event_cases {soft : Bool} {dc : Level} {bytes : List Byte} {e : Event}
    (he : e ∈ frameOf soft dc bytes) : (∃ line level, e = .pin line level) ∨ ∃ bytes, e = .xfer bytes := by
  cases soft with
  | false =>
    simp only [frameOf, Bool.false_eq_true, if_false, List.mem_cons, List.not_mem_nil, or_false] at he
    rcases he with rfl | rfl <;> simp
  | true =>
    simp only [frameOf, if_true, List.mem_cons, List.not_mem_nil, or_false] at he
    rcases he with rfl | rfl | rfl | rfl <;> simp

/-- A request other than REINIT drives lines and transfers bytes, and makes no other call (R122, R134). -/
theorem request_event_cases {i : Instr} {s : State} {e : Event} (hr : i ≠ .reinit)
    (he : e ∈ eventsOf (requestActions i s)) :
    (∃ line level, e = .pin line level) ∨ ∃ bytes, e = .xfer bytes := by
  rcases eventsOf_request s hr with h | ⟨level, h⟩ <;> rw [h] at he
  · obtain ⟨frames, hframes, -⟩ := transferEvents_framed i s
    obtain ⟨f, -, he⟩ := List.mem_flatMap.1 (hframes ▸ he)
    exact frameOf_event_cases he
  · exact .inl ⟨.bl, level, List.mem_singleton.1 he⟩

/-- `bus_open` when a request reaches one of its events (R16, R131 steps 2 and 3). -/
theorem request_busOpen_at {i : Instr} {s : State} {as₁ as₂ : List Action} {e : Event}
    (hsplit : requestActions i s = as₁ ++ .emit e :: as₂) :
    (flagsOf as₁ s).busOpen =
      if .busClock 500000 ∈ eventsOf as₁ then true
      else if .busClose ∈ eventsOf as₁ then false else s.busOpen := by
  by_cases hr : i = .reinit
  · subst hr
    exact reinit_busOpen_at hsplit
  · have hcase : ∀ e ∈ eventsOf as₁, (∃ line level, e = .pin line level) ∨ ∃ bytes, e = .xfer bytes :=
      fun e he => request_event_cases hr ((eventsOf_prefix ⟨_, hsplit.symm⟩).subset he)
    have hclock : .busClock 500000 ∉ eventsOf as₁ := fun he => by simpa using hcase _ he
    have hclose : .busClose ∉ eventsOf as₁ := fun he => by simpa using hcase _ he
    rw [if_neg hclock, if_neg hclose]
    exact (flagsOf_request_phase_bus_at hsplit hr).2

/-! ## Where the failing call cuts the actions -/

/-- A request that emits on a reliable transport was accepted, and did all its actions. -/
theorem request_done_of_reliable {i : Instr} {s t : State} {es : List Event} (hi : i.isRequest = true)
    (hrel : Reliable s) (h : exec i s = .next t) (hout : t.out = s.out ++ es) (hne : es ≠ []) :
    turnedAway i s = none ∧ eventsOf (requestActions i s) = es ∧
      ∃ p, replay s.cfg.resetPulseOk es s.panel = .ok p ∧ t = (landed (requestActions i s) s p).report .ok := by
  rcases request_next hi h with
    ⟨st, -, -, rfl⟩ | ⟨ha, p, hp, rfl⟩ | ⟨-, as, e, as', rest, p, n, -, hfail, -, -⟩
  · exact absurd (by simpa using hout) hne
  · obtain rfl : eventsOf (requestActions i s) = es := by simpa using hout
    exact ⟨ha, rfl, p, hp, rfl⟩
  · rw [show s.transport = [] from hrel, List.drop_nil] at hfail
    cases hfail

/-- Where a trace has a meaning at the panel, so have its first events (R31). -/
theorem replay_take {b : Bool} {es : List Event} {p q : Panel} (k : Nat) (h : replay b es p = .ok q) :
    ∃ r, replay b (es.take k) p = .ok r := by
  rw [← List.take_append_drop k es, replay_append] at h
  cases hk : replay b (es.take k) p with
  | ok r => exact ⟨r, rfl⟩
  | error r => rw [hk] at h; cases h

/-- Where a request makes a `k`-th call on a reliable transport, its actions split there on every transport: the
first `k` events have a meaning, and the mode flags are those of the reliable run. -/
theorem request_splits_at {i : Instr} {s t : State} {es : List Event} {k : Nat} (hi : i.isRequest = true)
    (h : exec i (s.setTransport []) = .next t) (hout : t.out = s.out ++ es) (hk : k < es.length) :
    turnedAway i s = none ∧ ∃ as₁ e as₂ p, requestActions i s = as₁ ++ .emit e :: as₂ ∧
      eventsOf as₁ = es.take k ∧ replay s.cfg.resetPulseOk (es.take k) s.panel = .ok p ∧
      (flagsOf as₁ s).inverse = t.inverse ∧ (flagsOf as₁ s).backlightOn = t.backlightOn := by
  obtain ⟨ha, rfl, q, hq, rfl⟩ :=
    request_done_of_reliable (s := s.setTransport []) hi rfl h hout
      (List.ne_nil_of_length_pos (Nat.zero_lt_of_lt hk))
  rw [turnedAway_setTransport] at ha
  rw [requestActions_setTransport] at hk hq ⊢
  obtain ⟨as₁, e, as₂, hsplit, hes⟩ := split_at_event hk
  obtain ⟨p, hp⟩ := replay_take k hq
  obtain ⟨hinv, hbl⟩ := flagsOf_request_modes_at hsplit
  exact ⟨ha, as₁, e, as₂, p, hsplit, hes, hp,
    by simp [flagsOf_setTransport, hinv], by simp [flagsOf_setTransport, hbl]⟩

/-- The state a request ends in when the call after some of its actions fails (R165). -/
def faulted (i : Instr) (as : List Action) (s : State) (p : Panel) (rest : List CallEnd) (n : Nat) : State :=
  { landed as s p with
    phase := if i = .reinit then .uninitialized else (flagsOf as s).phase
    statuses := s.statuses ++ [.transportFault n]
    transport := rest }

/-- An accepted request whose call fails ends there, with the report as its status (R165). -/
theorem exec_fails_at {i : Instr} {s : State} {as₁ as₂ : List Action} {e : Event} {p : Panel} {n : Nat}
    {rest : List CallEnd} (hi : i.isRequest = true) (ha : turnedAway i s = none)
    (hsplit : requestActions i s = as₁ ++ .emit e :: as₂)
    (ht : s.transport = List.replicate (eventsOf as₁).length .succeeds ++ .fails n :: rest)
    (hp : replay s.cfg.resetPulseOk (eventsOf as₁) s.panel = .ok p) :
    exec i s = .next (faulted i as₁ s p rest n) := by
  have hrun := runActions_fails_at (e := e) (as₂ := as₂) ht hp
  rw [← hsplit] at hrun
  rcases exec_request s hi with ⟨st, h, -, -⟩ | ⟨-, rfl, h⟩ | ⟨-, hr, -, h⟩
  · rw [ha] at h; cases h
  · rw [h, hrun]
    simp [concludeReinit, endWith, faulted, State.report, State.setPhase, State.setTransport]
  · rw [h, hrun]
    simp [conclude, endWith, faulted, State.report, State.setTransport, hr]

/-- Settles O41: the reliable run says where the failing call cuts the actions. -/
theorem transportFaultStopsThere : Obligations.TransportFaultStopsThere := by
  intro i s t es k report rest hi h hout hk ht
  obtain ⟨ha, as₁, e, as₂, p, hsplit, hes, hp, hinv, hbl⟩ := request_splits_at hi h hout hk
  have hexec : exec i s = .next (faulted i as₁ s p rest report) :=
    exec_fails_at hi ha hsplit (by rw [hes, List.length_take_of_le hk.le, ht]) (by rw [hes, hp])
  have hbus := request_busOpen_at hsplit
  rw [hes] at hbus
  refine ⟨_, p, hexec, hp, rfl, congrArg (s.out ++ ·) hes, rfl, rfl, ?phase, hbus, hinv, hbl, flagsOf_cfg ..⟩
  case phase => exact ite_congr rfl (fun _ => rfl) fun hr => (flagsOf_request_phase_bus_at hsplit hr).1

end Sys2Proof.Machine
end

section
/-! O33: an instance with an illegal contrast answers every request with a status and nothing else
(`70_reset_and_hazards.md` R192, `44_driver_ops.md` R130, `60_exceptions.md` R161). -/

namespace Sys2Proof.Machine

/-- An instance that never becomes ready turns every request away: REINIT at its contrast, every other one at its
phase or its op code (R130, R161, R166). -/
theorem NeverReady.exec_request {i : Instr} {s : State} (hn : NeverReady s) (hi : i.isRequest = true) :
    ∃ st, exec i s = .next (s.report st) := by
  obtain ⟨hphase, hillegal⟩ := hn
  rcases Machine.exec_request s hi with ⟨st, -, -, hexec⟩ | ⟨ha, rfl, -⟩ | ⟨-, -, hready, -⟩
  · exact ⟨st, hexec⟩
  · have hlegal := (turnedAway_reinit s).1 ha
    rw [hillegal] at hlegal
    cases hlegal
  · rw [hphase] at hready
    cases hready

/-- Settles O33: a host step takes nothing, or takes one request, which is turned away. -/
theorem badContrastIsForever : Obligations.BadContrastIsForever := by
  intro s t hf hn h
  rcases hostStep_next hf h with ⟨rfl, -⟩ | ⟨i, rest, hi, hf', hexec⟩
  · exact ⟨hf, hn, rfl, rfl⟩
  · have hn' : NeverReady (s.setInbox rest) := hn
    obtain ⟨st, haway⟩ := hn'.exec_request hi
    rw [haway] at hexec
    injection hexec with ht
    subst ht
    exact ⟨hf', hn', rfl, rfl⟩

end Sys2Proof.Machine
end

section
/-! O42: a request whose call never returns has no next state (`70_reset_and_hazards.md` R191). The hanging call
cuts its actions where a failing one does. -/

namespace Sys2Proof.Machine

/-- An accepted request whose call never returns has no end (R191). -/
theorem exec_hangs_at {i : Instr} {s : State} {as₁ as₂ : List Action} {e : Event} {p : Panel}
    {rest : List CallEnd} (hi : i.isRequest = true) (ha : turnedAway i s = none)
    (hsplit : requestActions i s = as₁ ++ .emit e :: as₂)
    (ht : s.transport = List.replicate (eventsOf as₁).length .succeeds ++ .hangs :: rest)
    (hp : replay s.cfg.resetPulseOk (eventsOf as₁) s.panel = .ok p) :
    exec i s = .fault .transportHang := by
  have hrun : runActions (requestActions i s) s = .hung := hsplit ▸ runActions_hangs_at ht hp
  rcases exec_request s hi with ⟨st, h, -, -⟩ | ⟨-, -, h⟩ | ⟨-, -, -, h⟩
  · rw [ha] at h; cases h
  · rw [h, hrun]; rfl
  · rw [h, hrun]; rfl

/-- Settles O42: the reliable run says where the hanging call cuts the actions. -/
theorem hangingCallStops : Obligations.HangingCallStops := by
  intro i s t es k rest hi h hout hk ht
  obtain ⟨ha, as₁, e, as₂, p, hsplit, hes, hp, -, -⟩ := request_splits_at hi h hout hk
  exact exec_hangs_at hi ha hsplit (by rw [hes, List.length_take_of_le hk.le, ht]) (by rw [hes, hp])

end Sys2Proof.Machine
end
